-- ==== Sys2Proof/Word.lean ====
section
/-! DEFINITION. The widths the spec gives its values (spec/00_scope.md R9, R12): every value is an unsigned integer. -/

namespace Sys2Proof

/-- A command, operand or response word: CMD_W = 32 bits (R9). -/
abbrev Word := BitVec 32

/-- A note code: NOTE_W = 8 bits (R9, R108). -/
abbrev NoteCode := BitVec 8

/-- A frequency in Hz: FREQ_W = 32 bits (R9). -/
abbrev Hz := BitVec 32

/-- A duration in ms: DUR_W = 24 bits (R9). -/
abbrev Millis := BitVec 24

/-- A duty value or a maximum duty: DUTY_W = MAXD_W = 16 bits (R9). -/
abbrev Duty := BitVec 16

/-- An outbound record word: 64 bits (R120). -/
abbrev RecordWord := BitVec 64

end Sys2Proof
end

