-- ==== Sys2Proof/Config.lean ====
section
/-! DEFINITION. What is fixed for one block (spec/00_scope.md R9) and what the spec leaves free.
An `opaque` constant has no body: nothing can be proved of its value, so a theorem holds for every value of it. -/

namespace Sys2Proof

/-- One choice of the outside world: which agent moves next, and with what (R8, R77, R308, R341). Log 1. -/
inductive Event where
  /-- HOST sends one more word of its command stream (R100). -/
  | send (w : Word)
  /-- HOST's command stream ends (R113). -/
  | endStream
  /-- A HOST step: the block executes the next command (R77). -/
  | host
  /-- A SEQ micro-step (R180). -/
  | seq
  /-- ENV advances NOW by `d` ms (R50, R313): NOW never decreases. -/
  | tick (d : Nat)
  /-- ENV applies the next record of the tone channel's trace (R257). -/
  | applyTone
  /-- ENV's transmitter consumes the next duty buffer (R258). -/
  | takeBuffer
  /-- ENV asserts reset (R341). -/
  | reset
deriving DecidableEq, Repr, Inhabited

/-- The byte orders a transport may carry a word in (R72). DESIGN CHOICE: R9, R72 and D35 name no values of this
parameter, and the model admits these two alone. Log 5. -/
inductive ByteOrder where
  | littleEndian
  | bigEndian
deriving DecidableEq, Repr, Inhabited

/-- CAPACITY: melody entries the block can hold (R9). -/
abbrev Config.capacity : Nat := 256

/-- PIXELS: pixels per ENCODE batch (R9). -/
abbrev Config.pixels : Nat := 8

/-- DUTY_LEN: duty values per ENCODE output (R9, R235). -/
abbrev Config.dutyLen : Nat := 192

/-- HIGH_NUM / DEN, the threshold fraction of a 1 bit (R9). -/
abbrev Config.highNum : Nat := 7

/-- LOW_NUM / DEN, the threshold fraction of a 0 bit (R9). -/
abbrev Config.lowNum : Nat := 3

/-- DEN, the denominator of both fractions (R9). -/
abbrev Config.den : Nat := 10

/-- NUM_NOTES: recognised pitched notes, codes 1 to 25 (R9, R141). -/
abbrev Config.numNotes : Nat := 25

/-- NOTE_FREQ less one (R143, OPEN): the spec admits exactly the values 1 to 2^32-1, so the value less one is any
number below 2^32-1. Log 3. -/
opaque Config.noteFreqLessOne : NoteCode → Fin 4294967295

/-- NOTE_FREQ: the frequency of a pitched note code, each in 1..2^32-1 (R143). -/
def Config.noteFreq (c : NoteCode) : Hz := BitVec.ofNat 32 ((Config.noteFreqLessOne c).val + 1)

/-- The default NOTE_FREQ of R144, which the spec marks as general knowledge and not the source's. No meaning uses
it; it serves the spec's own vectors, which name it as an assumption. -/
def Config.defaultNoteFreq (c : NoteCode) : Hz :=
  ([0, 262, 277, 294, 311, 330, 349, 370, 392, 415, 440, 466, 494, 523, 554, 587, 622, 659, 698, 740, 784, 831, 880,
    932, 988, 1047] : List Hz).getD c.toNat 0

/-- CHANNEL less one (R9, R45, OPEN in 1..4). Log 4. -/
opaque Config.channelLessOne : Fin 4

/-- CHANNEL: the PWM channel number the sequencer is bound to, 1 to 4 (R45). -/
def Config.channel : BitVec 3 := BitVec.ofNat 3 (Config.channelLessOne.val + 1)

/-- WORD_BYTE_ORDER (R9, R72, OPEN): no rule of the block reads it, and no definition of the model does. Log 5. -/
opaque Config.wordByteOrder : ByteOrder

/-- NOW when the block starts: "It may start at any value" (R313). Log 6. -/
opaque Config.startNow : Nat

/-- The choice of the outside world where State lists none: a free value for each count of draws (R77, U10). Log 1. -/
opaque Config.event : Nat → Event

/-- ENV's answer to `get_max_duty` where State lists none: a free value for each count of draws (R186, R252, U6).
Log 2. -/
opaque Config.maxDutyAnswer : Nat → Duty

/-- The frequency the tone channel was programmed to before the block's first action (U15). Log 13. -/
opaque Config.chanFreqAtStart : Hz

/-- The duty the tone channel was set to before the block's first action (U15). Log 13. -/
opaque Config.chanDutyAtStart : Duty

/-- Whether the tone channel's output is on before the block's first action (N16, R351). Log 13. -/
opaque Config.chanOnAtStart : Bool

end Sys2Proof
end

