-- ==== Sys2Proof/Syntax.lean ====
section
/-! DEFINITION. The instructions: one constructor per row of spec/opcode_table.json (spec/30_encoding.md R110), and the
four spaces their encodings live in. -/

namespace Sys2Proof

/-- The fields of a format E word (R104): NOTE 31:24, DUR 23:0. -/
structure EntryWord where
  note : NoteCode
  dur : Millis
deriving DecidableEq, Repr

/-- The fields of a format P word (R106): reserved 31:24, R 23:16, G 15:8, B 7:0. -/
structure PixelWord where
  rsv : BitVec 8
  r : BitVec 8
  g : BitVec 8
  b : BitVec 8
deriving DecidableEq, Repr

/-- `rsv` is the command's reserved bits, which R111 has the command itself reject when they are not all 0.
A SETMEL or ENCODE holds the operand words the stream had for it: fewer than its header announces when the stream
ended inside the command (R113). -/
inductive Instr where
  /-- SETMEL: header bits 27:16 reserved, 15:0 N, then N entry words (R103, R161). -/
  | setmel (rsv : BitVec 12) (n : BitVec 16) (entries : List EntryWord)
  /-- PLAY: header bits 27:0 reserved (R107, R181). -/
  | play (rsv : BitVec 28)
  /-- RUN: header bits 27:0 reserved (R107, R182). -/
  | run (rsv : BitVec 28)
  /-- STOP: header bits 27:0 reserved (R107, R183). -/
  | stop (rsv : BitVec 28)
  /-- ENCODE: header bits 27:16 reserved, 15:0 MAXD, then eight pixel words (R105, R231). -/
  | encode (rsv : BitVec 12) (maxd : Duty) (pixels : List PixelWord)
  /-- RESOLVE: header bits 27:8 reserved, 7:0 NOTE (R107, R142). -/
  | resolve (rsv : BitVec 20) (note : NoteCode)
  /-- RDREG: header bits 27:4 reserved, 3:0 REG (R107, R271). -/
  | rdreg (rsv : BitVec 24) (reg : BitVec 4)
  /-- RDMEL: header bits 27:8 reserved, 7:0 INDEX (R107, R272). -/
  | rdmel (rsv : BitVec 20) (index : BitVec 8)
  /-- The illegal headers (R112), bits 27:0 ignored. -/
  | illegalOp0 (bits : BitVec 28)
  | illegalOp9 (bits : BitVec 28)
  | illegalOpA (bits : BitVec 28)
  | illegalOpB (bits : BitVec 28)
  | illegalOpC (bits : BitVec 28)
  | illegalOpD (bits : BitVec 28)
  | illegalOpE (bits : BitVec 28)
  | illegalOpF (bits : BitVec 28)
  /-- ENTRY: one operand word of SETMEL (R104). -/
  | entry (note : NoteCode) (dur : Millis)
  /-- PIXEL: one operand word of ENCODE (R106). -/
  | pixel (rsv : BitVec 8) (r : BitVec 8) (g : BitVec 8) (b : BitVec 8)
  /-- The micro-steps of SEQ (R184 to R192): the encoding is the FSM_STATE code. -/
  | ustepFetch
  | ustepSetfreq
  | ustepGetmax
  | ustepSetduty
  | ustepEnable
  | ustepSleep
  | ustepWait
  | ustepDisable
  | ustepNext
  /-- The action records (R120): OPERAND is bits 31:0 of the record word. -/
  | actSetFreq (operand : Word)
  | actGetMaxDuty (operand : Word)
  | actSetDuty (operand : Word)
  | actEnable (operand : Word)
  | actDisable (operand : Word)
  | actSleep (operand : Word)
  | actWake (operand : Word)
  /-- DUTY_OUT carries 192 duty values after its record word (R120, R258). -/
  | actDutyOut (operand : Word) (payload : List Duty)
deriving DecidableEq, Repr

/-- The names of the action records (R120). -/
inductive Act where
  | setFreq
  | getMaxDuty
  | setDuty
  | enable
  | disable
  | sleep
  | wake
  | dutyOut
deriving DecidableEq, Repr

/-- An encoding, in the space its row of the table belongs to. -/
inductive Code where
  /-- A command: its header and operand words, as a whole finite stream (R100). -/
  | stream (words : List Word)
  /-- An operand word of SETMEL (format E, R104). -/
  | entryWord (w : Word)
  /-- An operand word of ENCODE (format P, R106). -/
  | pixelWord (w : Word)
  /-- A micro-step: its FSM_STATE code (R32). -/
  | fsmState (c : BitVec 4)
  /-- An action record word and the duty values that follow it (R120). -/
  | record (w : RecordWord) (payload : List Duty)
deriving DecidableEq, Repr

/-- Why the decoder gives no instruction, by name. -/
inductive DecodeReject where
  /-- The stream holds no word. -/
  | noWord
  /-- The stream goes on, and does not hold all of the command's operand words yet. -/
  | incomplete
  /-- Words are left over after one whole command. -/
  | trailingWords
  /-- The FSM_STATE code has no micro-step: UNSET, IDLE, FAULT (R180) or reserved (R32). -/
  | noMicroStep
  /-- The ACT code is never emitted: 0x00, 0x09 to 0xFF (R120). -/
  | unknownAct
  /-- Bits 55:32 of the record word are not 0 (R120). -/
  | recordZeroField
  /-- Only DUTY_OUT carries a payload (R120). -/
  | payloadOnToneRecord
deriving DecidableEq, Repr

end Sys2Proof
end

