-- ==== Sys2Proof/WellFormed.lean ====
section
/-! DEFINITION. Which instructions the block's encodings can say, and which records it can emit. -/

namespace Sys2Proof

/-- A command never holds more operand words than its header announces (R101); a record's OPERAND has the width its
ACT gives it, and is 0 where R120 says so. -/
def Instr.wellFormed : Instr → Bool
  | .setmel _ n entries => decide (entries.length ≤ n.toNat)
  | .play _ => true
  | .run _ => true
  | .stop _ => true
  | .encode _ _ pixels => decide (pixels.length ≤ Config.pixels)
  | .resolve _ _ => true
  | .rdreg _ _ => true
  | .rdmel _ _ => true
  | .illegalOp0 _ => true
  | .illegalOp9 _ => true
  | .illegalOpA _ => true
  | .illegalOpB _ => true
  | .illegalOpC _ => true
  | .illegalOpD _ => true
  | .illegalOpE _ => true
  | .illegalOpF _ => true
  | .entry _ _ => true
  | .pixel _ _ _ _ => true
  | .ustepFetch => true
  | .ustepSetfreq => true
  | .ustepGetmax => true
  | .ustepSetduty => true
  | .ustepEnable => true
  | .ustepSleep => true
  | .ustepWait => true
  | .ustepDisable => true
  | .ustepNext => true
  | .actSetFreq operand => decide (operand ≠ 0)
  | .actGetMaxDuty operand => decide (operand.toNat < 2 ^ 16)
  | .actSetDuty operand => decide (operand.toNat < 2 ^ 15)
  | .actEnable operand => decide (operand = 0)
  | .actDisable operand => decide (operand = 0)
  | .actSleep operand => decide (operand.toNat < 2 ^ 24)
  | .actWake operand => decide (operand = 0)
  | .actDutyOut operand payload => decide (operand.toNat = Config.dutyLen) && decide (payload.length = Config.dutyLen)

/-- All the operand words the header announces are there: the command is not malformed (R113). -/
def Instr.complete : Instr → Bool
  | .setmel _ n entries => decide (entries.length = n.toNat)
  | .encode _ _ pixels => decide (pixels.length = Config.pixels)
  | _ => true

/-- The commands and illegal headers: what a HOST step executes (R77, R100). -/
def Instr.isCommand : Instr → Bool
  | .setmel _ _ _ => true
  | .play _ => true
  | .run _ => true
  | .stop _ => true
  | .encode _ _ _ => true
  | .resolve _ _ => true
  | .rdreg _ _ => true
  | .rdmel _ _ => true
  | .illegalOp0 _ => true
  | .illegalOp9 _ => true
  | .illegalOpA _ => true
  | .illegalOpB _ => true
  | .illegalOpC _ => true
  | .illegalOpD _ => true
  | .illegalOpE _ => true
  | .illegalOpF _ => true
  | _ => false

/-- The micro-steps of SEQ (R180). -/
def Instr.isMicroStep : Instr → Bool
  | .ustepFetch => true
  | .ustepSetfreq => true
  | .ustepGetmax => true
  | .ustepSetduty => true
  | .ustepEnable => true
  | .ustepSleep => true
  | .ustepWait => true
  | .ustepDisable => true
  | .ustepNext => true
  | _ => false

end Sys2Proof
end

