-- ==== Sys2Proof/Decode.lean ====
section
/-! DEFINITION. The decoder of each encoding space and the encoder (spec/30_encoding.md R100 to R120). -/

namespace Sys2Proof

/-- OP, bits 31:28 of a header (R102). -/
def opOf (h : Word) : BitVec 4 := h.extractLsb' 28 4

/-- Bits 27:0 of a header (R102). -/
def bits28 (h : Word) : BitVec 28 := h.extractLsb' 0 28

/-- Bits 27:16 of a SETMEL or ENCODE header, reserved (R103, R105). -/
def rsv12 (h : Word) : BitVec 12 := h.extractLsb' 16 12

/-- Bits 15:0 of a SETMEL header, N, or of an ENCODE header, MAXD (R103, R105). -/
def low16 (h : Word) : BitVec 16 := h.extractLsb' 0 16

/-- Bits 27:8 of a RESOLVE or RDMEL header, reserved (R107). -/
def rsv20 (h : Word) : BitVec 20 := h.extractLsb' 8 20

/-- Bits 7:0 of a RESOLVE header, NOTE, or of an RDMEL header, INDEX (R107). -/
def low8 (h : Word) : BitVec 8 := h.extractLsb' 0 8

/-- Bits 27:4 of an RDREG header, reserved (R107). -/
def rsv24 (h : Word) : BitVec 24 := h.extractLsb' 4 24

/-- Bits 3:0 of an RDREG header, REG (R107). -/
def low4 (h : Word) : BitVec 4 := h.extractLsb' 0 4

/-- How many operand words follow a header: fixed by the header alone (R101). -/
def operandCount (h : Word) : Nat :=
  if opOf h = 0x1#4 then (low16 h).toNat else if opOf h = 0x5#4 then Config.pixels else 0

/-- The fields of an entry word (R104, R109). -/
def decodeEntryWord (w : Word) : EntryWord := ⟨w.extractLsb' 24 8, w.extractLsb' 0 24⟩

/-- The fields of a pixel word (R106, R109). -/
def decodePixelWord (w : Word) : PixelWord :=
  ⟨w.extractLsb' 24 8, w.extractLsb' 16 8, w.extractLsb' 8 8, w.extractLsb' 0 8⟩

/-- The row of the opcode map a header selects (R110), with the operand words `ws` it was given. -/
def commandOf (h : Word) (ws : List Word) : Instr :=
  match (opOf h).toNat with
  | 0x0 => .illegalOp0 (bits28 h)
  | 0x1 => .setmel (rsv12 h) (low16 h) (ws.map decodeEntryWord)
  | 0x2 => .play (bits28 h)
  | 0x3 => .run (bits28 h)
  | 0x4 => .stop (bits28 h)
  | 0x5 => .encode (rsv12 h) (low16 h) (ws.map decodePixelWord)
  | 0x6 => .resolve (rsv20 h) (low8 h)
  | 0x7 => .rdreg (rsv24 h) (low4 h)
  | 0x8 => .rdmel (rsv20 h) (low8 h)
  | 0x9 => .illegalOp9 (bits28 h)
  | 0xA => .illegalOpA (bits28 h)
  | 0xB => .illegalOpB (bits28 h)
  | 0xC => .illegalOpC (bits28 h)
  | 0xD => .illegalOpD (bits28 h)
  | 0xE => .illegalOpE (bits28 h)
  | _ => .illegalOpF (bits28 h)

/-- The next command of a stream and the words after it (R100, R101). `ended` says that no further word will come:
then a command that lacks operand words is given with the ones there are, for it to answer ERR_MALFORMED (R113). -/
def decodeCommand (ended : Bool) : List Word → Except DecodeReject (Instr × List Word)
  | [] => .error .noWord
  | h :: ws =>
    if decide (operandCount h ≤ ws.length) || ended then
      .ok (commandOf h (ws.take (operandCount h)), ws.drop (operandCount h))
    else .error .incomplete

/-- What the next word of a stream is to the decoder, given the words before it that are not consumed yet. -/
inductive Position where
  | header
  | entryWord
  | pixelWord
deriving DecidableEq, Repr

/-- The position of the word that comes next: `n` operand words are still owed to the last header, of format `p`
(R101). -/
def positionAfter (owed : Nat) (p : Position) : List Word → Position
  | [] => if owed = 0 then .header else p
  | w :: ws =>
    if owed = 0 then
      positionAfter (operandCount w) (if opOf w = 0x1#4 then .entryWord else .pixelWord) ws
    else positionAfter (owed - 1) p ws

/-- The position of the word that HOST sends after the unconsumed words `ws` (R74, R101, R352). -/
def nextPosition (ws : List Word) : Position := positionAfter 0 .header ws

/-- The operand word `w` as the instruction its position makes it; a header is no operand word. -/
def decodeOperand (p : Position) (w : Word) : Option Instr :=
  match p with
  | .header => none
  | .entryWord => some (.entry (decodeEntryWord w).note (decodeEntryWord w).dur)
  | .pixelWord =>
    some (.pixel (decodePixelWord w).rsv (decodePixelWord w).r (decodePixelWord w).g (decodePixelWord w).b)

/-- The micro-step of an FSM_STATE code (R32, R180). -/
def decodeUstep (c : BitVec 4) : Except DecodeReject Instr :=
  match c.toNat with
  | 2 => .ok .ustepFetch
  | 3 => .ok .ustepSetfreq
  | 4 => .ok .ustepGetmax
  | 5 => .ok .ustepSetduty
  | 6 => .ok .ustepEnable
  | 7 => .ok .ustepSleep
  | 8 => .ok .ustepWait
  | 9 => .ok .ustepDisable
  | 10 => .ok .ustepNext
  | _ => .error .noMicroStep

/-- The ACT code of a record (R120). -/
def Act.code : Act → BitVec 8
  | .setFreq => 0x01#8
  | .getMaxDuty => 0x02#8
  | .setDuty => 0x03#8
  | .enable => 0x04#8
  | .disable => 0x05#8
  | .sleep => 0x06#8
  | .wake => 0x07#8
  | .dutyOut => 0x08#8

/-- The record word: ACT in 63:56, 0 in 55:32, OPERAND in 31:0 (R120). -/
def recordWord (a : Act) (operand : Word) : RecordWord := a.code ++ 0#24 ++ operand

/-- A record of the tone channel carries no payload (R120). -/
def decodeToneRecord (i : Instr) : List Duty → Except DecodeReject Instr
  | [] => .ok i
  | _ :: _ => .error .payloadOnToneRecord

/-- The action record of a record word and the duty values that follow it (R120). -/
def decodeRecord (w : RecordWord) (payload : List Duty) : Except DecodeReject Instr :=
  if w.extractLsb' 32 24 ≠ 0#24 then .error .recordZeroField
  else
    match (w.extractLsb' 56 8).toNat with
    | 0x01 => decodeToneRecord (.actSetFreq (w.extractLsb' 0 32)) payload
    | 0x02 => decodeToneRecord (.actGetMaxDuty (w.extractLsb' 0 32)) payload
    | 0x03 => decodeToneRecord (.actSetDuty (w.extractLsb' 0 32)) payload
    | 0x04 => decodeToneRecord (.actEnable (w.extractLsb' 0 32)) payload
    | 0x05 => decodeToneRecord (.actDisable (w.extractLsb' 0 32)) payload
    | 0x06 => decodeToneRecord (.actSleep (w.extractLsb' 0 32)) payload
    | 0x07 => decodeToneRecord (.actWake (w.extractLsb' 0 32)) payload
    | 0x08 => .ok (.actDutyOut (w.extractLsb' 0 32) payload)
    | _ => .error .unknownAct

/-- The instruction of an encoding. -/
def decode : Code → Except DecodeReject Instr
  | .stream ws =>
    match decodeCommand true ws with
    | .ok (i, []) => .ok i
    | .ok (_, _ :: _) => .error .trailingWords
    | .error e => .error e
  | .entryWord w => .ok (.entry (decodeEntryWord w).note (decodeEntryWord w).dur)
  | .pixelWord w =>
    .ok (.pixel (decodePixelWord w).rsv (decodePixelWord w).r (decodePixelWord w).g (decodePixelWord w).b)
  | .fsmState c => decodeUstep c
  | .record w payload => decodeRecord w payload

/-- An entry word from its fields (R104). -/
def encodeEntryWord (e : EntryWord) : Word := e.note ++ e.dur

/-- A pixel word from its fields (R106). -/
def encodePixelWord (p : PixelWord) : Word := p.rsv ++ p.r ++ p.g ++ p.b

/-- A header whose bits 27:0 are one field (R102). -/
def header28 (op : BitVec 4) (bits : BitVec 28) : Word := op ++ bits

/-- A header with reserved bits 27:16 and a 16-bit field (R103, R105). -/
def header16 (op : BitVec 4) (rsv : BitVec 12) (low : BitVec 16) : Word := op ++ rsv ++ low

/-- A header with reserved bits 27:8 and an 8-bit field (R107). -/
def header8 (op : BitVec 4) (rsv : BitVec 20) (low : BitVec 8) : Word := op ++ rsv ++ low

/-- A header with reserved bits 27:4 and a 4-bit field (R107). -/
def header4 (op : BitVec 4) (rsv : BitVec 24) (low : BitVec 4) : Word := op ++ rsv ++ low

/-- The encoding of an instruction (R100 to R107, R110, R120). -/
def encode : Instr → Code
  | .setmel rsv n entries => .stream (header16 0x1#4 rsv n :: entries.map encodeEntryWord)
  | .play rsv => .stream [header28 0x2#4 rsv]
  | .run rsv => .stream [header28 0x3#4 rsv]
  | .stop rsv => .stream [header28 0x4#4 rsv]
  | .encode rsv maxd pixels => .stream (header16 0x5#4 rsv maxd :: pixels.map encodePixelWord)
  | .resolve rsv note => .stream [header8 0x6#4 rsv note]
  | .rdreg rsv reg => .stream [header4 0x7#4 rsv reg]
  | .rdmel rsv index => .stream [header8 0x8#4 rsv index]
  | .illegalOp0 bits => .stream [header28 0x0#4 bits]
  | .illegalOp9 bits => .stream [header28 0x9#4 bits]
  | .illegalOpA bits => .stream [header28 0xA#4 bits]
  | .illegalOpB bits => .stream [header28 0xB#4 bits]
  | .illegalOpC bits => .stream [header28 0xC#4 bits]
  | .illegalOpD bits => .stream [header28 0xD#4 bits]
  | .illegalOpE bits => .stream [header28 0xE#4 bits]
  | .illegalOpF bits => .stream [header28 0xF#4 bits]
  | .entry note dur => .entryWord (encodeEntryWord ⟨note, dur⟩)
  | .pixel rsv r g b => .pixelWord (encodePixelWord ⟨rsv, r, g, b⟩)
  | .ustepFetch => .fsmState 2#4
  | .ustepSetfreq => .fsmState 3#4
  | .ustepGetmax => .fsmState 4#4
  | .ustepSetduty => .fsmState 5#4
  | .ustepEnable => .fsmState 6#4
  | .ustepSleep => .fsmState 7#4
  | .ustepWait => .fsmState 8#4
  | .ustepDisable => .fsmState 9#4
  | .ustepNext => .fsmState 10#4
  | .actSetFreq operand => .record (recordWord .setFreq operand) []
  | .actGetMaxDuty operand => .record (recordWord .getMaxDuty operand) []
  | .actSetDuty operand => .record (recordWord .setDuty operand) []
  | .actEnable operand => .record (recordWord .enable operand) []
  | .actDisable operand => .record (recordWord .disable operand) []
  | .actSleep operand => .record (recordWord .sleep operand) []
  | .actWake operand => .record (recordWord .wake operand) []
  | .actDutyOut operand payload => .record (recordWord .dutyOut operand) payload

/-- The words of an instruction of the command stream whose first `nbits` bits are `w`, the first word lowest; the
operand words its header announces beyond them are 0. -/
def layoutWords (nbits w : Nat) : List Word :=
  match (List.range ((nbits + 31) / 32)).map (fun k => BitVec.ofNat 32 (w >>> (32 * k))) with
  | [] => []
  | h :: ws => h :: (ws ++ List.replicate (operandCount h - ws.length) 0#32)

/-- The duty values of a record word: 192 zeros for DUTY_OUT, none for another record. -/
def layoutPayload (w : RecordWord) : List Duty :=
  if w.extractLsb' 56 8 = Act.dutyOut.code then List.replicate Config.dutyLen 0#16 else []

/-- The space a table row's bits belong to, by their number: a micro-step's 4-bit code in one byte, a 64-bit record
word, and otherwise words of the command stream. Log 21. -/
def codeOfBits (nbits w : Nat) : Code :=
  if nbits ≤ 8 then .fsmState (BitVec.ofNat 4 w)
  else if nbits = 64 then .record (BitVec.ofNat 64 w) (layoutPayload (BitVec.ofNat 64 w))
  else .stream (layoutWords nbits w)

/-- The instruction the decoder reads from the `nbits` bits `w` of a table row. Log 21. -/
def decodeTableWord (nbits w : Nat) : Option Instr :=
  match decode (codeOfBits nbits w) with
  | .ok i => some i
  | .error _ => none

end Sys2Proof
end

