-- ==== Sys2Proof/Machine/State.lean ====
section
/-! DEFINITION. The state of the machine (spec/10_state.md R31), the environment it steps with, and its reset
(spec/70_reset_and_hazards.md R340). -/

namespace Sys2Proof.Machine

/-- FSM_STATE (R32). The reserved codes 11 to 14 are never entered and cannot be represented (V5). -/
inductive Fsm where
  | unset
  | idle
  | fetch
  | setfreq
  | getmax
  | setduty
  | enable
  | sleep
  | wait
  | disable
  | next
  | fault
deriving DecidableEq, Repr

/-- FAULT (R40, R301). The reserved codes 3 to 15 are never recorded and cannot be represented (V6). -/
inductive FaultCode where
  | none
  | emptyMelodyPlayback
  | emptyLoop
deriving DecidableEq, Repr

/-- The STATUS of a response (R119). The reserved codes 11 to 15 are never produced (V7). -/
inductive Status where
  | ok
  | okTrunc
  | errCapacity
  | errBusy
  | errFaulted
  | errIllegal
  | errReserved
  | errMalformed
  | errRange
  | errNoMelody
  | errEmptyLoop
deriving DecidableEq, Repr

/-- An entry of the melody store (R41): `freq` is 0 for a rest. -/
structure NoteEntry where
  freq : Hz
  dur : Millis
deriving DecidableEq, Repr

/-- The melody store (R41, R70) as (index, entry) pairs in one canonical form: indexes strictly rising and below 256,
no pair equal to what an unlisted index reads as (`MelStore.wf` in Machine/Ops.lean). Logs 7 and 8. -/
abbrev MelStore := List (Nat × NoteEntry)

/-- The block's state: exactly the fields of R31. -/
structure Block where
  /-- FSM_STATE (R32) -/
  fsm : Fsm
  /-- MEL_SET (R34) -/
  melSet : Bool
  /-- TRUNC (R36) -/
  trunc : Bool
  /-- LOOP (R37) -/
  loop : Bool
  /-- STOP_REQ (R38) -/
  stopReq : Bool
  /-- OUT_EN (R39) -/
  outEn : Bool
  /-- FAULT (R40) -/
  fault : FaultCode
  /-- MEL_LEN (R35) -/
  melLen : BitVec 9
  /-- IDX, the sequencer's program counter (R33) -/
  idx : BitVec 9
  /-- TRUNC_IDX (R36) -/
  truncIdx : BitVec 9
  /-- CHAN (R45) -/
  chan : BitVec 3
  /-- CUR_FREQ (R42) -/
  curFreq : Hz
  /-- CUR_DUR (R42) -/
  curDur : Millis
  /-- MAXD (R43) -/
  maxd : Duty
  /-- DEADLINE, a natural number of ms (R44) -/
  deadline : Nat
  /-- MEL[0..255] (R41) -/
  mel : MelStore
deriving DecidableEq, Repr

/-- A command's response: RSP and its payload words (R118). -/
structure Response where
  rsp : Word
  payload : List Word
deriving DecidableEq, Repr

/-- The command interface: what HOST has sent and not had consumed, and what it was answered (R100, R113, R118). -/
structure Port where
  /-- The unconsumed words of the command stream, the next header first. -/
  stream : List Word
  /-- HOST's stream has ended: until a reset, no word comes after those of `stream`. -/
  ended : Bool
  /-- Every response given, oldest first. -/
  responses : List Response
deriving DecidableEq, Repr

/-- A record of the tone channel's trace: `(t, A)` (R120). -/
structure ToneRecord where
  time : Nat
  word : RecordWord
deriving DecidableEq, Repr

/-- A record of the LED transmitter's trace: `(t, A)` and its duty values in output order (R120, R231). -/
structure LedRecord where
  time : Nat
  word : RecordWord
  payload : List Duty
deriving DecidableEq, Repr

/-- The two traces, each oldest first; no order holds between them (R78). -/
structure Traces where
  tone : List ToneRecord
  led : List LedRecord
deriving DecidableEq, Repr

/-- What ENV holds: it is not block state (R49, R50). -/
structure Env where
  /-- NOW, ms (R50, R313) -/
  now : Nat
  /-- The frequency the tone channel was last programmed to (R251) -/
  chanFreq : Hz
  /-- The duty the tone channel was last set to (R253) -/
  chanDuty : Duty
  /-- Whether the tone channel's output is on (R254, R255) -/
  chanOn : Bool
  /-- The duration of the suspension under way, if there is one (R256) -/
  suspended : Option Word
  /-- How many records of the tone trace ENV has applied (R257) -/
  toneApplied : Nat
  /-- How many records of the LED trace the transmitter has consumed (R258) -/
  ledApplied : Nat
  /-- The buffers the transmitter has streamed, oldest first (R258) -/
  transmitted : List (List Duty)
deriving DecidableEq, Repr

/-- The model's own fields for what the spec leaves free: the coming choices, and how many were drawn from Config
after the listed ones ran out. They are no state of the block or of ENV. Logs 1 and 2. -/
structure Choices where
  events : List Event
  eventCount : Nat
  answers : List Duty
  answerCount : Nat
deriving DecidableEq, Repr

/-- The whole machine: the block (R31), its command interface, its traces, ENV, and the choices that are free. -/
structure State where
  block : Block
  port : Port
  out : Traces
  env : Env
  choices : Choices
deriving DecidableEq, Repr

/-- How a step can stop the machine. The block's own sticky FAULT is no such stop: it is a next state (R303). -/
inductive Fault where
  /-- Raised by FETCH alone, where IDX is below MEL_LEN and at or above 256: MEL has no such entry (R41, R70). Safe:
  R48 gives MEL_LEN at most 256 in every reachable state, so no run meets it. Log 19. -/
  | noSuchMelodyEntry
deriving DecidableEq, Repr

/-- Why an instruction has no meaning. -/
inductive Refusal where
  /-- Raised by an arm of exec whose instruction has no meaning yet. Safe. No arm does. -/
  | notModelled (mnemonic : String)
deriving DecidableEq, Repr

/-- The block after reset: the reset column of R31 (R340). MEL is unspecified there and unobservable; log 7. -/
def Block.reset : Block where
  fsm := .unset
  melSet := false
  trunc := false
  loop := false
  stopReq := false
  outEn := false
  fault := .none
  melLen := 0#9
  idx := 0#9
  truncIdx := 0#9
  chan := Config.channel
  curFreq := 0#32
  curDur := 0#24
  maxd := 0#16
  deadline := 0
  mel := []

/-- The machine right after the power-on reset: the block at R340's values, nothing sent, nothing emitted, and ENV at
values that Config leaves free. Logs 1, 2, 6, 9, 12, 13 and 18. -/
def State.reset : State where
  block := Block.reset
  port := { stream := [], ended := false, responses := [] }
  out := { tone := [], led := [] }
  env :=
    { now := Config.startNow
      chanFreq := Config.chanFreqAtStart
      chanDuty := Config.chanDutyAtStart
      chanOn := Config.chanOnAtStart
      suspended := Option.none
      toneApplied := 0
      ledApplied := 0
      transmitted := [] }
  choices := { events := [], eventCount := 0, answers := [], answerCount := 0 }

end Sys2Proof.Machine
end

