-- ==== Sys2Proof/Machine/Flags.lean ====
section
/-! DEFINITION. The codes of the state register, the faults and the statuses, and the words they are packed into
(spec/10_state.md R32, R47; spec/30_encoding.md R118, R119; spec/60_exceptions.md R301). -/

namespace Sys2Proof.Machine

/-- The FSM_STATE code (R32). -/
def Fsm.code : Fsm → BitVec 4
  | .unset => 0#4
  | .idle => 1#4
  | .fetch => 2#4
  | .setfreq => 3#4
  | .getmax => 4#4
  | .setduty => 5#4
  | .enable => 6#4
  | .sleep => 7#4
  | .wait => 8#4
  | .disable => 9#4
  | .next => 10#4
  | .fault => 15#4

/-- The state that holds code `c`; a reserved code holds none (R32). -/
def Fsm.ofCode (c : BitVec 4) : Option Fsm :=
  match c.toNat with
  | 0 => some .unset
  | 1 => some .idle
  | 2 => some .fetch
  | 3 => some .setfreq
  | 4 => some .getmax
  | 5 => some .setduty
  | 6 => some .enable
  | 7 => some .sleep
  | 8 => some .wait
  | 9 => some .disable
  | 10 => some .next
  | 15 => some .fault
  | _ => none

/-- A HOST step is enabled only in UNSET, IDLE, WAIT and FAULT; otherwise HOST is held (R77). -/
def Fsm.hostEnabled : Fsm → Bool
  | .unset => true
  | .idle => true
  | .wait => true
  | .fault => true
  | _ => false

/-- The FAULT code (R301). -/
def FaultCode.code : FaultCode → BitVec 4
  | .none => 0#4
  | .emptyMelodyPlayback => 1#4
  | .emptyLoop => 2#4

/-- The STATUS code (R119). -/
def Status.code : Status → BitVec 4
  | .ok => 0#4
  | .okTrunc => 1#4
  | .errCapacity => 2#4
  | .errBusy => 3#4
  | .errFaulted => 4#4
  | .errIllegal => 5#4
  | .errReserved => 6#4
  | .errMalformed => 7#4
  | .errRange => 8#4
  | .errNoMelody => 9#4
  | .errEmptyLoop => 10#4

/-- A 1-bit field. -/
def bit (b : Bool) : BitVec 1 := if b then 1#1 else 0#1

/-- The STATUS register (R47), from bit 31 down: 31:16 0, FAULT 15:12, 11:9 0, OUT_EN, STOP_REQ, LOOP, TRUNC, MEL_SET,
FSM_STATE 3:0. -/
def Block.statusWord (b : Block) : Word :=
  0#16 ++ b.fault.code ++ 0#3 ++ bit b.outEn ++ bit b.stopReq ++ bit b.loop ++ bit b.trunc ++ bit b.melSet
    ++ b.fsm.code

/-- The word RSP (R118): OP 31:28, FOUND bit 8, STATUS 3:0, every other bit 0. -/
def rspWord (op : BitVec 4) (found : Bool) (status : Status) : Word :=
  op ++ 0#19 ++ bit found ++ 0#4 ++ status.code

end Sys2Proof.Machine
end

