-- ==== Sys2Proof/Machine/Ops.lean ====
section
/-! DEFINITION. The operations the instructions share: the melody store, responses, records, the sticky fault (R303),
reset (R340 to R342), the draws that are free, and when a HOST step or a micro-step is enabled (R77, R180). -/

namespace Sys2Proof.Machine

/-! The melody store -/

/-- What an index that nothing has written reads as. The spec leaves it unspecified and unobservable (R41). Log 7. -/
def MelStore.unwritten : NoteEntry := ⟨0#32, 0#24⟩

/-- MEL[i] (R13, R41). -/
def MelStore.read (m : MelStore) (i : Nat) : NoteEntry :=
  match m with
  | [] => MelStore.unwritten
  | (k, e) :: rest => if k = i then e else MelStore.read rest i

/-- MEL[i] <- e, keeping the canonical form (R41). -/
def MelStore.write (m : MelStore) (i : Nat) (e : NoteEntry) : MelStore :=
  match m with
  | [] => if e = MelStore.unwritten then [] else [(i, e)]
  | (k, x) :: rest =>
    if i < k then
      if e = MelStore.unwritten then (k, x) :: rest else (i, e) :: (k, x) :: rest
    else if i = k then
      if e = MelStore.unwritten then rest else (i, e) :: rest
    else (k, x) :: MelStore.write rest i e

/-- MEL[i], MEL[i+1], ... <- the entries, in order (R162). -/
def MelStore.writeFrom (m : MelStore) (i : Nat) (es : List NoteEntry) : MelStore :=
  match es with
  | [] => m
  | e :: rest => MelStore.writeFrom (MelStore.write m i e) (i + 1) rest

/-- Canonical from index `lo` on. -/
def MelStore.wfFrom (lo : Nat) (m : MelStore) : Bool :=
  match m with
  | [] => true
  | (k, e) :: rest =>
    decide (lo ≤ k) && decide (k < Config.capacity) && decide (e ≠ MelStore.unwritten)
      && MelStore.wfFrom (k + 1) rest

/-- The canonical form: indexes strictly rising and below 256, no pair equal to what an unlisted index reads as. -/
def MelStore.wf (m : MelStore) : Bool := MelStore.wfFrom 0 m

/-! Responses, records and faults -/

/-- `respond(status, payload...)` (R13, R118). -/
def State.respond (s : State) (op : BitVec 4) (found : Bool) (status : Status) (payload : List Word) : State :=
  { s with
    port := { s.port with responses := s.port.responses ++ [⟨rspWord op found status, payload⟩] } }

/-- A response that carries a status alone: FOUND = 0 and no payload (R118). -/
def State.answer (s : State) (op : BitVec 4) (status : Status) : State := s.respond op false status []

/-- `emit A(operand)`: the record joins the tone channel's trace, stamped with NOW (R13, R120). -/
def State.emit (s : State) (a : Act) (operand : Word) : State :=
  { s with out := { s.out with tone := s.out.tone ++ [⟨s.env.now, recordWord a operand⟩] } }

/-- `emit_led DUTY_OUT(buf)`: OPERAND is 192, and the duty values follow (R13, R120). -/
def State.emitLed (s : State) (buf : List Duty) : State :=
  { s with out :=
      { s.out with led :=
          s.out.led ++ [⟨s.env.now, recordWord .dutyOut (BitVec.ofNat 32 Config.dutyLen), buf⟩] } }

/-- `goto St` (R13). -/
def State.goto (s : State) (f : Fsm) : State := { s with block := { s.block with fsm := f } }

/-- `raise Fault(c)` (R303): FAULT and FSM_STATE are written, nothing is saved and nothing is emitted. No instruction
returns from FAULT: only reset leaves it (R305). -/
def State.raiseFault (s : State) (c : FaultCode) : State :=
  { s with block := { s.block with fault := c, fsm := .fault } }

/-! Reset -/

/-- Reset, asserted by ENV between two steps (R340, R341). It emits nothing, leaves ENV as it is, and abandons a WAIT
(R342). HOST's stream starts anew: no HOST step that was enabled before is taken (R308), a partially received command is
discarded, and the first word HOST sends after reset is a header, also where the stream had ended (R342). Logs 9 and
10. The channel stays as it was (R342); DESIGN CHOICE: no driver of HOST's or ENV's own, which R351 has disable the
channel after a reset in mid-tone, is modelled. Log 25. -/
def State.applyReset (s : State) : State :=
  { s with block := Block.reset, port := { s.port with stream := [], ended := false } }

/-! What is free -/

/-- The next choice of the outside world: the oldest one State lists, or else a free one (R77, U10). Log 1. -/
def State.nextEvent (s : State) : Event :=
  match s.choices.events with
  | [] => Config.event s.choices.eventCount
  | e :: _ => e

/-- The state with that choice taken. -/
def State.afterEvent (s : State) : State :=
  match s.choices.events with
  | [] => { s with choices := { s.choices with eventCount := s.choices.eventCount + 1 } }
  | _ :: es => { s with choices := { s.choices with events := es } }

/-- `draw_maxd()`: ENV's answer to `get_max_duty`, the oldest one State lists, or else a free value (R13, R186, U6).
Log 2. -/
def State.drawMaxd (s : State) : Duty :=
  match s.choices.answers with
  | [] => Config.maxDutyAnswer s.choices.answerCount
  | m :: _ => m

/-- The state with that answer taken. -/
def State.afterDraw (s : State) : State :=
  match s.choices.answers with
  | [] => { s with choices := { s.choices with answerCount := s.choices.answerCount + 1 } }
  | _ :: ms => { s with choices := { s.choices with answers := ms } }

/-! When a step is enabled -/

/-- A command's HOST step from `s` to `t`; while SEQ is mid-segment HOST is held and nothing happens (R14, R77).
Log 15. -/
def hostStep (s t : State) : Host.Outcome State Fault Refusal :=
  if s.block.fsm.hostEnabled then .next t else .next s

/-- The micro-step of FSM state `f`, with outcome `o`; in another state it is not enabled and nothing happens (R14,
R180). Log 16. -/
def seqStep (f : Fsm) (s : State) (o : Host.Outcome State Fault Refusal) : Host.Outcome State Fault Refusal :=
  if s.block.fsm = f then o else .next s

/-- A header with OP in 0x0, 0x9..0xF: OP is echoed with ERR_ILLEGAL, and nothing else happens (R112). -/
def illegalHeader (op : BitVec 4) (s : State) : Host.Outcome State Fault Refusal :=
  hostStep s (s.answer op .errIllegal)

/-- HOST sends the word `w` (R100). -/
def State.sendWord (s : State) (w : Word) : State := { s with port := { s.port with stream := s.port.stream ++ [w] } }

end Sys2Proof.Machine
end

