-- ==== Sys2Proof/Machine/Channel.lean ====
section
/-! DEFINITION. The action records as ENV takes them (spec/44_pwm_interface.md R250 to R258): what ENV does with each.
The block's own state is never touched, and the block reads none of this (R49, R257). Logs 12 and 14. -/

namespace Sys2Proof.Machine

/-- SET_FREQ (R251): ENV programs the channel's period to the operand, in Hz. -/
def execActSetFreq (operand : Word) (s : State) : Host.Outcome State Fault Refusal :=
  .next { s with env := { s.env with chanFreq := operand } }

/-- GET_MAX_DUTY (R252): the answer is in the record, and the read has no effect on the channel. -/
def execActGetMaxDuty (_operand : Word) (s : State) : Host.Outcome State Fault Refusal := .next s

/-- SET_DUTY (R253): ENV sets the high time of each period to the operand's 16-bit duty. -/
def execActSetDuty (operand : Word) (s : State) : Host.Outcome State Fault Refusal :=
  .next { s with env := { s.env with chanDuty := operand.setWidth 16 } }

/-- ENABLE (R254): ENV turns the channel's output on. -/
def execActEnable (_operand : Word) (s : State) : Host.Outcome State Fault Refusal :=
  .next { s with env := { s.env with chanOn := true } }

/-- DISABLE (R255): ENV turns the channel's output off. -/
def execActDisable (_operand : Word) (s : State) : Host.Outcome State Fault Refusal :=
  .next { s with env := { s.env with chanOn := false } }

/-- SLEEP (R256): the suspension of the operand's duration begins. -/
def execActSleep (operand : Word) (s : State) : Host.Outcome State Fault Refusal :=
  .next { s with env := { s.env with suspended := some operand } }

/-- WAKE (R256): the suspension is over. -/
def execActWake (_operand : Word) (s : State) : Host.Outcome State Fault Refusal :=
  .next { s with env := { s.env with suspended := none } }

/-- DUTY_OUT (R258): the transmitter streams the buffer once. -/
def execActDutyOut (_operand : Word) (payload : List Duty) (s : State) : Host.Outcome State Fault Refusal :=
  .next { s with env := { s.env with transmitted := s.env.transmitted ++ [payload] } }

end Sys2Proof.Machine
end

