-- ==== Sys2Proof/Machine/Operands.lean ====
section
/-! DEFINITION. What an operand stands for: the Note Table (spec/40_note_table.md R141), the resolved prefix of a
melody (spec/41_melody_builder.md R162), the register numbers (spec/45_readback.md R270), and the encoder's thresholds
and lanes (spec/43_rgb_encoder.md R231 to R234). -/

namespace Sys2Proof.Machine

/-- `ROM(c)` (R141): `some 0` for the rest, `some NOTE_FREQ(c)` for the 25 pitched notes, `none` for the others. -/
def rom (c : NoteCode) : Option Hz :=
  if c = 0#8 then some 0#32
  else if c.toNat ≤ Config.numNotes then some (Config.noteFreq c)
  else none

/-- The entries of a SETMEL up to the first unresolved one, each with its code resolved (R162). -/
def resolvePrefix : List EntryWord → List NoteEntry
  | [] => []
  | e :: rest =>
    match rom e.note with
    | some f => ⟨f, e.dur⟩ :: resolvePrefix rest
    | none => []

/-- The value RDREG returns for a register number; 10 to 15 are reserved (R270). -/
def Block.regValue (b : Block) (reg : BitVec 4) : Option Word :=
  match reg.toNat with
  | 0 => some b.statusWord
  | 1 => some (b.melLen.setWidth 32)
  | 2 => some (b.idx.setWidth 32)
  | 3 => some (b.truncIdx.setWidth 32)
  | 4 => some (b.chan.setWidth 32)
  | 5 => some b.curFreq
  | 6 => some (b.curDur.setWidth 32)
  | 7 => some (b.maxd.setWidth 32)
  | 8 => some (BitVec.ofNat 32 (b.deadline % 2 ^ 64 % 2 ^ 32))
  | 9 => some (BitVec.ofNat 32 (b.deadline % 2 ^ 64 / 2 ^ 32))
  | _ => none

/-- The duty of a 1 bit: M × 7, exact, then div 10 (R232). It fits 16 bits (R233). -/
def highDuty (m : Duty) : Duty := BitVec.ofNat 16 (m.toNat * Config.highNum / Config.den)

/-- The duty of a 0 bit: M × 3, exact, then div 10 (R232). It fits 16 bits (R233). -/
def lowDuty (m : Duty) : Duty := BitVec.ofNat 16 (m.toNat * Config.lowNum / Config.den)

/-- One lane: its bits from 7 down to 0, each as the duty of its value (R71, R231). -/
def laneDuties (m : Duty) (lane : BitVec 8) : List Duty :=
  [7, 6, 5, 4, 3, 2, 1, 0].map fun b => if lane.getLsbD b then highDuty m else lowDuty m

/-- One pixel: its lanes in the order G, R, B (R71, R231). -/
def pixelDuties (m : Duty) (p : PixelWord) : List Duty := laneDuties m p.g ++ laneDuties m p.r ++ laneDuties m p.b

/-- The duty buffer of a batch: pixel 0 first (R231). -/
def dutyBuffer (m : Duty) (ps : List PixelWord) : List Duty := (ps.map (pixelDuties m)).flatten

end Sys2Proof.Machine
end

