-- ==== Sys2Proof/Machine/Encoder.lean ====
section
/-! DEFINITION. ENCODE and its operand word PIXEL (spec/43_rgb_encoder.md R230 to R235, spec/30_encoding.md R106). -/

namespace Sys2Proof.Machine

/-- ENCODE's checks (R111, R113, R231) and its one DUTY_OUT record; the block's state is not written (R230). -/
def encodeBody (rsv : BitVec 12) (maxd : Duty) (pixels : List PixelWord) (s : State) : State :=
  if pixels.length < Config.pixels then s.answer 0x5#4 .errMalformed
  else if rsv ≠ 0#12 ∨ (pixels.take Config.pixels).any (fun p => decide (p.rsv ≠ 0#8)) then
    s.answer 0x5#4 .errReserved
  else (s.emitLed (dutyBuffer maxd (pixels.take Config.pixels))).answer 0x5#4 .ok

/-- ENCODE (R231). -/
def execEncode (rsv : BitVec 12) (maxd : Duty) (pixels : List PixelWord) (s : State) :
    Host.Outcome State Fault Refusal :=
  hostStep s (encodeBody rsv maxd pixels s)

/-- PIXEL (R106): the operand word reaches the block as the next consecutive word of the stream (R101). Its duty
values are emitted by its ENCODE's one step (R75, R231). Log 11. -/
def execPixel (rsv : BitVec 8) (r : BitVec 8) (g : BitVec 8) (b : BitVec 8) (s : State) :
    Host.Outcome State Fault Refusal :=
  .next (s.sendWord (encodePixelWord ⟨rsv, r, g, b⟩))

end Sys2Proof.Machine
end

