-- ==== Sys2Proof/Machine/Illegal.lean ====
section
/-! DEFINITION. The illegal headers (spec/30_encoding.md R112): one word consumed, OP echoed, ERR_ILLEGAL. -/

namespace Sys2Proof.Machine

/-- OP = 0x0 (R112). -/
def execIllegalOp0 (_bits : BitVec 28) (s : State) : Host.Outcome State Fault Refusal := illegalHeader 0x0#4 s

/-- OP = 0x9 (R112). -/
def execIllegalOp9 (_bits : BitVec 28) (s : State) : Host.Outcome State Fault Refusal := illegalHeader 0x9#4 s

/-- OP = 0xA (R112). -/
def execIllegalOpA (_bits : BitVec 28) (s : State) : Host.Outcome State Fault Refusal := illegalHeader 0xA#4 s

/-- OP = 0xB (R112). -/
def execIllegalOpB (_bits : BitVec 28) (s : State) : Host.Outcome State Fault Refusal := illegalHeader 0xB#4 s

/-- OP = 0xC (R112). -/
def execIllegalOpC (_bits : BitVec 28) (s : State) : Host.Outcome State Fault Refusal := illegalHeader 0xC#4 s

/-- OP = 0xD (R112). -/
def execIllegalOpD (_bits : BitVec 28) (s : State) : Host.Outcome State Fault Refusal := illegalHeader 0xD#4 s

/-- OP = 0xE (R112). -/
def execIllegalOpE (_bits : BitVec 28) (s : State) : Host.Outcome State Fault Refusal := illegalHeader 0xE#4 s

/-- OP = 0xF (R112). -/
def execIllegalOpF (_bits : BitVec 28) (s : State) : Host.Outcome State Fault Refusal := illegalHeader 0xF#4 s

end Sys2Proof.Machine
end

