-- ==== Sys2Proof/Machine/Melody.lean ====
section
/-! DEFINITION. SETMEL and its operand word ENTRY (spec/41_melody_builder.md R160 to R165, spec/30_encoding.md R104). -/

namespace Sys2Proof.Machine

/-- The block after an accepted SETMEL whose entries are `es` (R162): the resolved prefix is stored, and MEL_LEN,
MEL_SET, TRUNC, TRUNC_IDX and FSM_STATE are written; nothing else is (R165). -/
def Block.install (b : Block) (es : List EntryWord) : Block :=
  { b with
    mel := MelStore.writeFrom b.mel 0 (resolvePrefix es)
    melLen := BitVec.ofNat 9 (resolvePrefix es).length
    melSet := true
    fsm := .idle
    trunc := decide ((resolvePrefix es).length < es.length)
    truncIdx :=
      if (resolvePrefix es).length < es.length then BitVec.ofNat 9 (resolvePrefix es).length else 0#9 }

/-- An accepted SETMEL (R162). -/
def installMelody (es : List EntryWord) (s : State) : State :=
  ({ s with block := s.block.install es } : State).answer 0x1#4
    (if (resolvePrefix es).length < es.length then .okTrunc else .ok)

/-- SETMEL's checks, in R161's order, and then R162. -/
def setmelBody (rsv : BitVec 12) (n : BitVec 16) (entries : List EntryWord) (s : State) : State :=
  if entries.length < n.toNat then s.answer 0x1#4 .errMalformed
  else if rsv ≠ 0#12 then s.answer 0x1#4 .errReserved
  else if s.block.fsm = .fault then s.answer 0x1#4 .errFaulted
  else if s.block.fsm ≠ .unset ∧ s.block.fsm ≠ .idle then s.answer 0x1#4 .errBusy
  else if Config.capacity < n.toNat then s.answer 0x1#4 .errCapacity
  else installMelody (entries.take n.toNat) s

/-- SETMEL (R161, R162). -/
def execSetmel (rsv : BitVec 12) (n : BitVec 16) (entries : List EntryWord) (s : State) :
    Host.Outcome State Fault Refusal :=
  hostStep s (setmelBody rsv n entries s)

/-- ENTRY (R104): the operand word reaches the block as the next consecutive word of the stream (R101). What it stands
for, one entry to resolve and store, happens inside its SETMEL's one step: no agent sees a melody half replaced (R75),
and SETMEL alone writes the store (R160). Log 11. -/
def execEntry (note : NoteCode) (dur : Millis) (s : State) : Host.Outcome State Fault Refusal :=
  .next (s.sendWord (encodeEntryWord ⟨note, dur⟩))

end Sys2Proof.Machine
end

