-- ==== Sys2Proof/Machine/NoteTable.lean ====
section
/-! DEFINITION. RESOLVE (spec/40_note_table.md R142). -/

namespace Sys2Proof.Machine

/-- RESOLVE's state change (R142): a response, and nothing else. -/
def resolveBody (rsv : BitVec 20) (note : NoteCode) (s : State) : State :=
  if rsv ≠ 0#20 then s.answer 0x6#4 .errReserved
  else
    match rom note with
    | some f => s.respond 0x6#4 true .ok [f]
    | none => s.respond 0x6#4 false .ok [0#32]

/-- RESOLVE (R142). -/
def execResolve (rsv : BitVec 20) (note : NoteCode) (s : State) : Host.Outcome State Fault Refusal :=
  hostStep s (resolveBody rsv note s)

end Sys2Proof.Machine
end

