-- ==== Sys2Proof/Machine/Readback.lean ====
section
/-! DEFINITION. RDREG and RDMEL (spec/45_readback.md R270 to R273). -/

namespace Sys2Proof.Machine

/-- RDREG's state change (R271): a response, and nothing else. -/
def rdregBody (rsv : BitVec 24) (reg : BitVec 4) (s : State) : State :=
  if rsv ≠ 0#24 then s.answer 0x7#4 .errReserved
  else
    match s.block.regValue reg with
    | some v => s.respond 0x7#4 false .ok [v]
    | none => s.answer 0x7#4 .errRange

/-- RDREG (R271). -/
def execRdreg (rsv : BitVec 24) (reg : BitVec 4) (s : State) : Host.Outcome State Fault Refusal :=
  hostStep s (rdregBody rsv reg s)

/-- RDMEL's state change (R272): a response, and nothing else. -/
def rdmelBody (rsv : BitVec 20) (index : BitVec 8) (s : State) : State :=
  if rsv ≠ 0#20 then s.answer 0x8#4 .errReserved
  else if s.block.melLen.toNat ≤ index.toNat then s.answer 0x8#4 .errRange
  else
    s.respond 0x8#4 false .ok
      [(MelStore.read s.block.mel index.toNat).freq, (MelStore.read s.block.mel index.toNat).dur.setWidth 32]

/-- RDMEL (R272). -/
def execRdmel (rsv : BitVec 20) (index : BitVec 8) (s : State) : Host.Outcome State Fault Refusal :=
  hostStep s (rdmelBody rsv index s)

end Sys2Proof.Machine
end

