-- ==== Sys2Proof/Machine/Sequencer.lean ====
section
/-! DEFINITION. PLAY, RUN, STOP and the micro-steps of SEQ (spec/42_tone_sequencer.md R180 to R192). -/

namespace Sys2Proof.Machine

/-- The start of a pass: IDX <- 0, LOOP, STOP_REQ <- 0, goto FETCH (R181, R182). -/
def State.startPass (s : State) (loop : Bool) : State :=
  { s with block := { s.block with idx := 0#9, loop := loop, stopReq := false, fsm := .fetch } }

/-- The way into IDLE: IDX <- 0, LOOP <- 0, STOP_REQ <- 0 (R37, R38, R192). -/
def State.endPass (s : State) : State :=
  { s with block := { s.block with idx := 0#9, loop := false, stopReq := false, fsm := .idle } }

/-- PLAY's checks and effect, in R181's order. -/
def playBody (rsv : BitVec 28) (s : State) : State :=
  if rsv ≠ 0#28 then s.answer 0x2#4 .errReserved
  else if s.block.fsm = .fault then s.answer 0x2#4 .errFaulted
  else if s.block.fsm = .wait then s.answer 0x2#4 .errBusy
  else if s.block.fsm = .unset then (s.raiseFault .emptyMelodyPlayback).answer 0x2#4 .errNoMelody
  else (s.startPass false).answer 0x2#4 .ok

/-- PLAY (R181). -/
def execPlay (rsv : BitVec 28) (s : State) : Host.Outcome State Fault Refusal := hostStep s (playBody rsv s)

/-- RUN's checks and effect, in R182's order. -/
def runBody (rsv : BitVec 28) (s : State) : State :=
  if rsv ≠ 0#28 then s.answer 0x3#4 .errReserved
  else if s.block.fsm = .fault then s.answer 0x3#4 .errFaulted
  else if s.block.fsm = .wait then s.answer 0x3#4 .errBusy
  else if s.block.fsm = .unset then (s.raiseFault .emptyMelodyPlayback).answer 0x3#4 .errNoMelody
  else if s.block.melLen = 0#9 then (s.raiseFault .emptyLoop).answer 0x3#4 .errEmptyLoop
  else (s.startPass true).answer 0x3#4 .ok

/-- RUN (R182). -/
def execRun (rsv : BitVec 28) (s : State) : Host.Outcome State Fault Refusal := hostStep s (runBody rsv s)

/-- STOP's checks and effect, in R183's order. -/
def stopBody (rsv : BitVec 28) (s : State) : State :=
  if rsv ≠ 0#28 then s.answer 0x4#4 .errReserved
  else if s.block.fsm = .fault then s.answer 0x4#4 .errFaulted
  else if s.block.fsm = .wait then
    ({ s with block := { s.block with stopReq := true } } : State).answer 0x4#4 .ok
  else s.answer 0x4#4 .ok

/-- STOP (R183). -/
def execStop (rsv : BitVec 28) (s : State) : Host.Outcome State Fault Refusal := hostStep s (stopBody rsv s)

/-- FETCH loads an entry and takes the tone path or the rest path (R184). -/
def State.loadEntry (s : State) (e : NoteEntry) : State :=
  { s with block :=
      { s.block with
        curFreq := e.freq
        curDur := e.dur
        fsm := if e.freq ≠ 0#32 then .setfreq else .sleep } }

/-- FETCH at IDX = MEL_LEN: the end of a pass (R184). -/
def State.passEnd (s : State) : State :=
  if s.block.loop then { s with block := { s.block with idx := 0#9 } }
  else { s with block := { s.block with idx := 0#9, stopReq := false, fsm := .idle } }

/-- FETCH (R184). -/
def execUstepFetch (s : State) : Host.Outcome State Fault Refusal :=
  seqStep .fetch s <|
    if s.block.idx.toNat < s.block.melLen.toNat then
      if s.block.idx.toNat < Config.capacity then
        .next (s.loadEntry (MelStore.read s.block.mel s.block.idx.toNat))
      else .fault .noSuchMelodyEntry
    else .next s.passEnd

/-- SETFREQ (R185). -/
def execUstepSetfreq (s : State) : Host.Outcome State Fault Refusal :=
  seqStep .setfreq s (.next ((s.emit .setFreq s.block.curFreq).goto .getmax))

/-- MAXD <- m (R186). -/
def State.latchMaxd (s : State) (m : Duty) : State := { s with block := { s.block with maxd := m } }

/-- GETMAX (R186): ENV's answer m is recorded and latched. -/
def execUstepGetmax (s : State) : Host.Outcome State Fault Refusal :=
  seqStep .getmax s
    (.next (((s.afterDraw.emit .getMaxDuty (s.drawMaxd.setWidth 32)).latchMaxd s.drawMaxd).goto .setduty))

/-- The 50 % duty: MAXD div 2 (R187). -/
def halfDuty (m : Duty) : Duty := BitVec.ofNat 16 (m.toNat / 2)

/-- SETDUTY (R187). -/
def execUstepSetduty (s : State) : Host.Outcome State Fault Refusal :=
  seqStep .setduty s (.next ((s.emit .setDuty ((halfDuty s.block.maxd).setWidth 32)).goto .enable))

/-- OUT_EN <- b (R188, R191). -/
def State.setOutEn (s : State) (b : Bool) : State := { s with block := { s.block with outEn := b } }

/-- ENABLE (R188). -/
def execUstepEnable (s : State) : Host.Outcome State Fault Refusal :=
  seqStep .enable s (.next (((s.emit .enable 0#32).setOutEn true).goto .sleep))

/-- DEADLINE <- NOW + CUR_DUR, exact over naturals (R189). -/
def State.setDeadline (s : State) : State :=
  { s with block := { s.block with deadline := s.env.now + s.block.curDur.toNat } }

/-- SLEEP (R189). -/
def execUstepSleep (s : State) : Host.Outcome State Fault Refusal :=
  seqStep .sleep s (.next ((s.setDeadline.emit .sleep (s.block.curDur.setWidth 32)).goto .wait))

/-- WAIT (R190): held until NOW >= DEADLINE, then WAKE. -/
def execUstepWait (s : State) : Host.Outcome State Fault Refusal :=
  seqStep .wait s <|
    if s.env.now < s.block.deadline then .next s
    else .next ((s.emit .wake 0#32).goto (if s.block.curFreq ≠ 0#32 then .disable else .next))

/-- DISABLE (R191). -/
def execUstepDisable (s : State) : Host.Outcome State Fault Refusal :=
  seqStep .disable s (.next (((s.emit .disable 0#32).setOutEn false).goto .next))

/-- IDX <- IDX + 1, goto FETCH (R192). -/
def State.advance (s : State) : State :=
  { s with block := { s.block with idx := s.block.idx + 1#9, fsm := .fetch } }

/-- NEXT (R192). -/
def execUstepNext (s : State) : Host.Outcome State Fault Refusal :=
  seqStep .next s (.next (if s.block.stopReq then s.endPass else s.advance))

end Sys2Proof.Machine
end

