-- ==== Sys2Proof/Machine/Dispatch.lean ====
section
/-! DEFINITION. exec: one arm per instruction, each one direct call of its meaning. -/

namespace Sys2Proof.Machine

def exec (i : Instr) (s : State) : Host.Outcome State Fault Refusal :=
  match i with
  | .setmel rsv n entries => Sys2Proof.Machine.execSetmel rsv n entries s
  | .play rsv => Sys2Proof.Machine.execPlay rsv s
  | .run rsv => Sys2Proof.Machine.execRun rsv s
  | .stop rsv => Sys2Proof.Machine.execStop rsv s
  | .encode rsv maxd pixels => Sys2Proof.Machine.execEncode rsv maxd pixels s
  | .resolve rsv note => Sys2Proof.Machine.execResolve rsv note s
  | .rdreg rsv reg => Sys2Proof.Machine.execRdreg rsv reg s
  | .rdmel rsv index => Sys2Proof.Machine.execRdmel rsv index s
  | .illegalOp0 bits => Sys2Proof.Machine.execIllegalOp0 bits s
  | .illegalOp9 bits => Sys2Proof.Machine.execIllegalOp9 bits s
  | .illegalOpA bits => Sys2Proof.Machine.execIllegalOpA bits s
  | .illegalOpB bits => Sys2Proof.Machine.execIllegalOpB bits s
  | .illegalOpC bits => Sys2Proof.Machine.execIllegalOpC bits s
  | .illegalOpD bits => Sys2Proof.Machine.execIllegalOpD bits s
  | .illegalOpE bits => Sys2Proof.Machine.execIllegalOpE bits s
  | .illegalOpF bits => Sys2Proof.Machine.execIllegalOpF bits s
  | .entry note dur => Sys2Proof.Machine.execEntry note dur s
  | .pixel rsv r g b => Sys2Proof.Machine.execPixel rsv r g b s
  | .ustepFetch => Sys2Proof.Machine.execUstepFetch s
  | .ustepSetfreq => Sys2Proof.Machine.execUstepSetfreq s
  | .ustepGetmax => Sys2Proof.Machine.execUstepGetmax s
  | .ustepSetduty => Sys2Proof.Machine.execUstepSetduty s
  | .ustepEnable => Sys2Proof.Machine.execUstepEnable s
  | .ustepSleep => Sys2Proof.Machine.execUstepSleep s
  | .ustepWait => Sys2Proof.Machine.execUstepWait s
  | .ustepDisable => Sys2Proof.Machine.execUstepDisable s
  | .ustepNext => Sys2Proof.Machine.execUstepNext s
  | .actSetFreq operand => Sys2Proof.Machine.execActSetFreq operand s
  | .actGetMaxDuty operand => Sys2Proof.Machine.execActGetMaxDuty operand s
  | .actSetDuty operand => Sys2Proof.Machine.execActSetDuty operand s
  | .actEnable operand => Sys2Proof.Machine.execActEnable operand s
  | .actDisable operand => Sys2Proof.Machine.execActDisable operand s
  | .actSleep operand => Sys2Proof.Machine.execActSleep operand s
  | .actWake operand => Sys2Proof.Machine.execActWake operand s
  | .actDutyOut operand payload => Sys2Proof.Machine.execActDutyOut operand payload s

end Sys2Proof.Machine
end

