-- ==== Sys2Proof/Machine/Fetch.lean ====
section
/-! DEFINITION. Which instruction the next step runs: the choice of agent (spec/20_memory.md R77), and what that agent
finds to do. Also where an instruction is placed so that the next step finds it. -/

namespace Sys2Proof.Machine

/-- A HOST step runs the next command of the stream, all of whose words it consumes (R100, R101); HOST is held while
SEQ is mid-segment (R77), and has nothing to run while the stream goes on without a whole command (R113). -/
def fetchHost (s : State) : Option Instr × State :=
  if s.block.fsm.hostEnabled then
    match decodeCommand s.port.ended s.port.stream with
    | .ok (i, rest) => (some i, { s with port := { s.port with stream := rest } })
    | .error _ => (none, s)
  else (none, s)

/-- SEQ runs the micro-step of FSM_STATE; UNSET, IDLE and FAULT have none (R180). -/
def fetchSeq (s : State) : Option Instr × State :=
  match decodeUstep s.block.fsm.code with
  | .ok i => (some i, s)
  | .error _ => (none, s)

/-- ENV applies the oldest record of the tone trace that it has not applied (R257). -/
def fetchTone (s : State) : Option Instr × State :=
  match s.out.tone[s.env.toneApplied]? with
  | none => (none, s)
  | some r =>
    match decodeRecord r.word [] with
    | .ok i => (some i, { s with env := { s.env with toneApplied := s.env.toneApplied + 1 } })
    | .error _ => (none, s)

/-- The transmitter consumes the oldest duty buffer that it has not consumed (R258). -/
def fetchLed (s : State) : Option Instr × State :=
  match s.out.led[s.env.ledApplied]? with
  | none => (none, s)
  | some r =>
    match decodeRecord r.word r.payload with
    | .ok i => (some i, { s with env := { s.env with ledApplied := s.env.ledApplied + 1 } })
    | .error _ => (none, s)

/-- HOST sends a word: an operand word is an instruction of its own row, a header waits for its HOST step (R101). After
the end of the stream no word comes (R113) until a reset (R342). Log 9. -/
def fetchSend (w : Word) (s : State) : Option Instr × State :=
  if s.port.ended then (none, s)
  else
    match decodeOperand (nextPosition s.port.stream) w with
    | some i => (some i, s)
    | none => (none, s.sendWord w)

/-- What a choice runs, and the state it runs in; `none` is a choice that is no instruction (time, the end of the
stream, reset) or whose agent is not enabled (R14). -/
def fetchFor (e : Event) (s : State) : Option Instr × State :=
  match e with
  | .send w => fetchSend w s
  | .endStream => (none, { s with port := { s.port with ended := true } })
  | .host => fetchHost s
  | .seq => fetchSeq s
  | .tick d => (none, { s with env := { s.env with now := s.env.now + d } })
  | .applyTone => fetchTone s
  | .takeBuffer => fetchLed s
  | .reset => (none, s.applyReset)

/-- What the next step runs, and the state it runs in: the next choice is taken from State, or is free (R77, U10). -/
def fetch (s : State) : Option Instr × State := fetchFor s.nextEvent s.afterEvent

/-- `s` with `e` as its next choice. -/
def State.withEvent (s : State) (e : Event) : State :=
  { s with choices := { s.choices with events := e :: s.choices.events } }

/-- `s` with an instruction placed where the next step finds it, and that step's agent chosen. A command stands first
in the stream, in a state in which HOST steps; a micro-step is FSM_STATE; a record is the next one its reader takes;
an operand word comes next after a header that announces one. Log 20. -/
def placeCode (c : Code) (s : State) : State :=
  match c with
  | .stream ws =>
    ({ s with
        port := { s.port with stream := ws ++ s.port.stream }
        block := { s.block with fsm := if s.block.fsm.hostEnabled then s.block.fsm else .wait } } : State).withEvent
      .host
  | .entryWord w =>
    ({ s with port := { s.port with stream := [header16 0x1#4 0#12 1#16], ended := false } } : State).withEvent
      (.send w)
  | .pixelWord w =>
    ({ s with port := { s.port with stream := [header16 0x5#4 0#12 0#16], ended := false } } : State).withEvent
      (.send w)
  | .fsmState k =>
    match Fsm.ofCode k with
    | some f => (s.goto f).withEvent .seq
    | none => s.withEvent .seq
  | .record w payload =>
    if w.extractLsb' 56 8 = Act.dutyOut.code then
      ({ s with
          out := { s.out with led := s.out.led ++ [⟨s.env.now, w, payload⟩] }
          env := { s.env with ledApplied := s.out.led.length } } : State).withEvent .takeBuffer
    else
      ({ s with
          out := { s.out with tone := s.out.tone ++ [⟨s.env.now, w⟩] }
          env := { s.env with toneApplied := s.out.tone.length } } : State).withEvent .applyTone

end Sys2Proof.Machine
end

