-- ==== Sys2Proof/Machine/Step.lean ====
section
/-! DEFINITION. One step of the machine: one agent's step (spec/00_scope.md R8, R14). -/

namespace Sys2Proof.Machine

/-- Run what was fetched; a choice that is no instruction has had its whole effect. -/
def runFetched : Option Instr × State → Host.Outcome State Fault Refusal
  | (some i, s) => exec i s
  | (none, s) => .next s

/-- One step: the next choice, and what it runs. -/
def step (s : State) : Host.Outcome State Fault Refusal := runFetched (fetch s)

/-- `s` with the instruction of the `nbits` bits `w` placed where the next step fetches. Log 20. -/
def State.withFetchWord (s : State) (nbits w : Nat) : State := placeCode (codeOfBits nbits w) s

end Sys2Proof.Machine
end

