-- ==== Sys2Proof/Machine/Assembler.lean ====
section
/-! DEFINITION. The block's assembly language (spec/30_encoding.md R108, R115, R116, R117): text to command words.
No step of the machine reads this file. Log 22. -/

namespace Sys2Proof.Machine

/-- Why the assembler refuses a line. -/
inductive AsmError where
  /-- The line's first word is no command and no pseudo-instruction (R115, R117). -/
  | unknownCommand
  /-- The operands do not have the command's syntax (R115). -/
  | badSyntax
  /-- A number is neither decimal nor hex with a `0x` prefix (R115). -/
  | badNumber
  /-- An `encode` with other than 8 triplets (R115). -/
  | tripletCount
  /-- A colour component above 255 (R115). -/
  | componentRange
  /-- An M above 65535 (R115). -/
  | maxdRange
  /-- A duration above 2^24-1 (R115). -/
  | durationRange
  /-- More than 65535 pairs in a `setmel` (R115). -/
  | pairCount
  /-- A REG that is neither a number 0..15 nor a name of R270 (R115). -/
  | registerRange
  /-- An `rdmel` index above 255: INDEX has 8 bits (R107). -/
  | indexRange
  /-- A `.word` above 2^32-1: a word has 32 bits (R115). -/
  | wordRange
deriving DecidableEq, Repr

/-- A pair of a `setmel`: `t:d`, or the pseudo-form `rest d` (R115, R117). -/
inductive AsmPair where
  | note (token : List Char) (dur : Nat)
  | rest (dur : Nat)
deriving DecidableEq, Repr

/-- A line of the assembly language (R115, R117). -/
inductive AsmLine where
  | setmel (pairs : List AsmPair)
  | play
  | run
  | playloop
  | stop
  | encode (m : Nat) (triplets : List (Nat × Nat × Nat))
  | resolve (token : List Char)
  | rdreg (reg : Nat)
  | rdstatus
  | rdlen
  | rdmel (index : Nat)
  | word (w : Nat)
deriving DecidableEq, Repr

/-- The tokens of codes 0x00 to 0x19, in order (R108). -/
def noteTokens : List (List Char) :=
  ["_".toList, "C4".toList, "C#4".toList, "D4".toList, "D#4".toList, "E4".toList, "F4".toList, "F#4".toList,
    "G4".toList, "G#4".toList, "A4".toList, "A#4".toList, "B4".toList, "C5".toList, "C#5".toList, "D5".toList,
    "D#5".toList, "E5".toList, "F5".toList, "F#5".toList, "G5".toList, "G#5".toList, "A5".toList, "A#5".toList,
    "B5".toList, "C6".toList]

/-- `code(T)`: an exact, case-sensitive match; every other token is 0xFF (R116). -/
def tokenCode (t : List Char) : NoteCode :=
  if noteTokens.idxOf t < noteTokens.length then BitVec.ofNat 8 (noteTokens.idxOf t) else 0xFF#8

/-- The names of the registers 0 to 9, in order (R270). -/
def registerNames : List (List Char) :=
  ["STATUS".toList, "MEL_LEN".toList, "IDX".toList, "TRUNC_IDX".toList, "CHAN".toList, "CUR_FREQ".toList,
    "CUR_DUR".toList, "MAXD".toList, "DEADLINE_LO".toList, "DEADLINE_HI".toList]

/-- The token and duration of a pair; `rest D` is `_:D` (R117). -/
def AsmPair.parts : AsmPair → List Char × Nat
  | .note t d => (t, d)
  | .rest d => ("_".toList, d)

/-- One E word per pair (R115). -/
def assemblePairs : List AsmPair → Except AsmError (List Word)
  | [] => .ok []
  | p :: ps =>
    if 2 ^ 24 ≤ p.parts.2 then .error .durationRange
    else
      match assemblePairs ps with
      | .ok ws => .ok (encodeEntryWord ⟨tokenCode p.parts.1, BitVec.ofNat 24 p.parts.2⟩ :: ws)
      | .error e => .error e

/-- One P word per triplet (R115). -/
def assembleTriplets : List (Nat × Nat × Nat) → Except AsmError (List Word)
  | [] => .ok []
  | (r, g, b) :: ts =>
    if 255 < r ∨ 255 < g ∨ 255 < b then .error .componentRange
    else
      match assembleTriplets ts with
      | .ok ws => .ok (encodePixelWord ⟨0#8, BitVec.ofNat 8 r, BitVec.ofNat 8 g, BitVec.ofNat 8 b⟩ :: ws)
      | .error e => .error e

/-- The words of a line (R115, R117). More than 256 pairs are accepted, so that ERR_CAPACITY can be tested. -/
def assembleLine : AsmLine → Except AsmError (List Word)
  | .setmel pairs =>
    if 65535 < pairs.length then .error .pairCount
    else
      match assemblePairs pairs with
      | .ok ws => .ok (header16 0x1#4 0#12 (BitVec.ofNat 16 pairs.length) :: ws)
      | .error e => .error e
  | .play => .ok [header28 0x2#4 0#28]
  | .run => .ok [header28 0x3#4 0#28]
  | .playloop => .ok [header28 0x3#4 0#28]
  | .stop => .ok [header28 0x4#4 0#28]
  | .encode m triplets =>
    if 65535 < m then .error .maxdRange
    else if triplets.length ≠ Config.pixels then .error .tripletCount
    else
      match assembleTriplets triplets with
      | .ok ws => .ok (header16 0x5#4 0#12 (BitVec.ofNat 16 m) :: ws)
      | .error e => .error e
  | .resolve t => .ok [header8 0x6#4 0#20 (tokenCode t)]
  | .rdreg reg => if 15 < reg then .error .registerRange else .ok [header4 0x7#4 0#24 (BitVec.ofNat 4 reg)]
  | .rdstatus => .ok [header4 0x7#4 0#24 0#4]
  | .rdlen => .ok [header4 0x7#4 0#24 1#4]
  | .rdmel i => if 255 < i then .error .indexRange else .ok [header8 0x8#4 0#20 (BitVec.ofNat 8 i)]
  | .word w => if 2 ^ 32 ≤ w then .error .wordRange else .ok [BitVec.ofNat 32 w]

/-! The text form -/

/-- A lexeme of a line. -/
inductive AsmTok where
  | word (cs : List Char)
  | colon
  | comma
  | lparen
  | rparen
deriving DecidableEq, Repr

/-- The word read so far, if there is one. -/
def flushWord (acc : List Char) : List AsmTok := if acc = [] then [] else [.word acc.reverse]

/-- The lexemes of a line; `;` starts a comment that runs to its end (R115). DESIGN CHOICE: R115 and R116 do not say which
characters a token may hold; here a blank, a tab, a carriage return, `:`, `,`, `(`, `)` and `;` end a word in every line,
so that no token holds one, and a line such as `resolve A(4` is refused. Log 22. -/
def lexLine (acc : List Char) : List Char → List AsmTok
  | [] => flushWord acc
  | c :: cs =>
    if c = ';' then flushWord acc
    else if c = ' ' ∨ c = '\t' ∨ c = '\r' then flushWord acc ++ lexLine [] cs
    else if c = ':' then flushWord acc ++ .colon :: lexLine [] cs
    else if c = ',' then flushWord acc ++ .comma :: lexLine [] cs
    else if c = '(' then flushWord acc ++ .lparen :: lexLine [] cs
    else if c = ')' then flushWord acc ++ .rparen :: lexLine [] cs
    else lexLine (c :: acc) cs

/-- The value of a digit, if it is one below `base`. -/
def digitValue (base : Nat) (c : Char) : Option Nat :=
  let v :=
    if '0' ≤ c ∧ c ≤ '9' then c.toNat - '0'.toNat
    else if 'a' ≤ c ∧ c ≤ 'f' then c.toNat - 'a'.toNat + 10
    else if 'A' ≤ c ∧ c ≤ 'F' then c.toNat - 'A'.toNat + 10
    else base
  if v < base then some v else none

/-- The value of the digits, after those that gave `acc`. -/
def digitsValue (base acc : Nat) : List Char → Option Nat
  | [] => some acc
  | c :: cs =>
    match digitValue base c with
    | some v => digitsValue base (acc * base + v) cs
    | none => none

/-- A number: decimal, or hex with a `0x` prefix (R115). DESIGN CHOICE: R115 does not say whether a number may carry the
`_` separators of the spec's own notation (R11); the assembler refuses such a number. Log 22. -/
def numberOf : List Char → Except AsmError Nat
  | [] => .error .badNumber
  | ['0', 'x'] => .error .badNumber
  | '0' :: 'x' :: ds =>
    match digitsValue 16 0 ds with
    | some n => .ok n
    | none => .error .badNumber
  | ds =>
    match digitsValue 10 0 ds with
    | some n => .ok n
    | none => .error .badNumber

/-- The pair a word and what follows it make. -/
def pairOf (t : List Char) (d : List Char) : Except AsmError AsmPair :=
  match numberOf d with
  | .ok n => .ok (.note t n)
  | .error e => .error e

/-- The pair of `rest D` (R117). -/
def restOf (t : List Char) (d : List Char) : Except AsmError AsmPair :=
  if t = "rest".toList then
    match numberOf d with
    | .ok n => .ok (.rest n)
    | .error e => .error e
  else .error .badSyntax

/-- A pair before the pairs of the rest of the line. -/
def consPair (p : Except AsmError AsmPair) (ps : Except AsmError (List AsmPair)) : Except AsmError (List AsmPair) :=
  match p with
  | .error e => .error e
  | .ok x =>
    match ps with
    | .error e => .error e
    | .ok xs => .ok (x :: xs)

/-- The pair list of a `setmel` (R115). -/
def pairsOf : List AsmTok → Except AsmError (List AsmPair)
  | [.word t, .colon, .word d] => consPair (pairOf t d) (.ok [])
  | .word t :: .colon :: .word d :: .comma :: rest => consPair (pairOf t d) (pairsOf rest)
  | [.word t, .word d] => consPair (restOf t d) (.ok [])
  | .word t :: .word d :: .comma :: rest => consPair (restOf t d) (pairsOf rest)
  | _ => .error .badSyntax

/-- A triplet before the triplets of the rest of the line. -/
def consTriplet (r g b : List Char) (ts : Except AsmError (List (Nat × Nat × Nat))) :
    Except AsmError (List (Nat × Nat × Nat)) :=
  match numberOf r, numberOf g, numberOf b, ts with
  | .ok x, .ok y, .ok z, .ok xs => .ok ((x, y, z) :: xs)
  | .error e, _, _, _ => .error e
  | _, .error e, _, _ => .error e
  | _, _, .error e, _ => .error e
  | _, _, _, .error e => .error e

/-- The triplets of an `encode` (R115). -/
def tripletsOf : List AsmTok → Except AsmError (List (Nat × Nat × Nat))
  | [.lparen, .word r, .comma, .word g, .comma, .word b, .rparen] => consTriplet r g b (.ok [])
  | .lparen :: .word r :: .comma :: .word g :: .comma :: .word b :: .rparen :: .comma :: rest =>
    consTriplet r g b (tripletsOf rest)
  | _ => .error .badSyntax

/-- A line whose operand is one number. -/
def numberLine (f : Nat → AsmLine) : List AsmTok → Except AsmError AsmLine
  | [.word d] =>
    match numberOf d with
    | .ok n => .ok (f n)
    | .error e => .error e
  | _ => .error .badSyntax

/-- A line without operands. -/
def bareLine (l : AsmLine) : List AsmTok → Except AsmError AsmLine
  | [] => .ok l
  | _ => .error .badSyntax

/-- The operands of `setmel`; without pairs the header says N = 0 (R115). -/
def setmelLine : List AsmTok → Except AsmError AsmLine
  | [] => .ok (.setmel [])
  | toks =>
    match pairsOf toks with
    | .ok ps => .ok (.setmel ps)
    | .error e => .error e

/-- The operands of `encode M, (r0,g0,b0), ...` (R115). -/
def encodeLine : List AsmTok → Except AsmError AsmLine
  | .word m :: .comma :: rest =>
    match numberOf m, tripletsOf rest with
    | .ok n, .ok ts => .ok (.encode n ts)
    | .error e, _ => .error e
    | _, .error e => .error e
  | _ => .error .badSyntax

/-- The operand of `resolve T`: any token (R116). -/
def resolveLine : List AsmTok → Except AsmError AsmLine
  | [.word t] => .ok (.resolve t)
  | _ => .error .badSyntax

/-- The operand of `rdreg REG`: a name of R270, or a number. -/
def rdregLine : List AsmTok → Except AsmError AsmLine
  | [.word t] =>
    if registerNames.idxOf t < registerNames.length then .ok (.rdreg (registerNames.idxOf t))
    else numberLine AsmLine.rdreg [.word t]
  | _ => .error .badSyntax

/-- One command per line; an empty line or a comment alone has none (R115). -/
def parseLine (cs : List Char) : Except AsmError (Option AsmLine) :=
  match lexLine [] cs with
  | [] => .ok none
  | .word c :: args =>
    let line :=
      if c = "setmel".toList then setmelLine args
      else if c = "play".toList then bareLine .play args
      else if c = "run".toList then bareLine .run args
      else if c = "playloop".toList then bareLine .playloop args
      else if c = "stop".toList then bareLine .stop args
      else if c = "encode".toList then encodeLine args
      else if c = "resolve".toList then resolveLine args
      else if c = "rdreg".toList then rdregLine args
      else if c = "rdstatus".toList then bareLine .rdstatus args
      else if c = "rdlen".toList then bareLine .rdlen args
      else if c = "rdmel".toList then numberLine AsmLine.rdmel args
      else if c = ".word".toList then numberLine AsmLine.word args
      else .error .unknownCommand
    match line with
    | .ok l => .ok (some l)
    | .error e => .error e
  | _ => .error .badSyntax

/-- The words of one line of text. -/
def assembleChars (cs : List Char) : Except AsmError (List Word) :=
  match parseLine cs with
  | .ok none => .ok []
  | .ok (some l) => assembleLine l
  | .error e => .error e

/-- The lines of a text; `acc` is the line being read, reversed. -/
def splitLines (acc : List Char) : List Char → List (List Char)
  | [] => [acc.reverse]
  | c :: cs => if c = '\n' then acc.reverse :: splitLines [] cs else splitLines (c :: acc) cs

/-- The words of the lines, in order; the first refused line refuses the text. -/
def assembleLines : List (List Char) → Except AsmError (List Word)
  | [] => .ok []
  | l :: ls =>
    match assembleChars l with
    | .error e => .error e
    | .ok ws =>
      match assembleLines ls with
      | .error e => .error e
      | .ok rest => .ok (ws ++ rest)

/-- The command stream of an assembly text (R115). -/
def assemble (text : String) : Except AsmError (List Word) := assembleLines (splitLines [] text.toList)

end Sys2Proof.Machine
end

