-- ==== Sys2Proof/Safety.lean ====
section
/-! DEFINITION. The invariants of the machine (spec/10_state.md R31, R48), runs of SEQ (spec/42_tone_sequencer.md R193),
a run at rest (spec/60_exceptions.md R318) and fair executions (R310), in the terms the statements use. -/

namespace Sys2Proof.Machine

/-- What R48 says of every reachable state of the block, bullet by bullet. -/
structure Block.Spec48 (b : Block) : Prop where
  melLen_le : b.melLen.toNat ≤ Config.capacity
  idx_le : b.idx.toNat ≤ b.melLen.toNat
  not_set : b.melSet = false → b.melLen = 0#9 ∧ b.trunc = false ∧ (b.fsm = .unset ∨ b.fsm = .fault)
  at_rest : b.fsm = .unset ∨ b.fsm = .idle ∨ b.fsm = .fault →
    b.idx = 0#9 ∧ b.loop = false ∧ b.stopReq = false ∧ b.outEn = false
  out_en : b.outEn = true ↔ (b.fsm = .sleep ∨ b.fsm = .wait ∨ b.fsm = .disable) ∧ b.curFreq ≠ 0#32
  fault_iff : b.fault ≠ .none ↔ b.fsm = .fault
  trunc_idx : b.trunc = true → b.truncIdx = b.melLen
  not_trunc : b.trunc = false → b.truncIdx = 0#9

/-- The states in which entry IDX is being played: from SETFREQ to NEXT (R33, R180). -/
def Fsm.playing : Fsm → Bool
  | .setfreq => true
  | .getmax => true
  | .setduty => true
  | .enable => true
  | .sleep => true
  | .wait => true
  | .disable => true
  | .next => true
  | _ => false

/-- R48 and what makes it inductive: the entry being played exists, the tone states have a tone, a loop has an entry
(R182, R184), and UNSET means that no melody was set (R32). -/
structure Block.Inv (b : Block) : Prop extends Block.Spec48 b where
  playing_idx : b.fsm.playing = true → b.idx.toNat < b.melLen.toNat
  tone_freq :
    b.fsm = .setfreq ∨ b.fsm = .getmax ∨ b.fsm = .setduty ∨ b.fsm = .enable ∨ b.fsm = .disable → b.curFreq ≠ 0#32
  loop_len : b.loop = true → b.melLen ≠ 0#9
  unset_not_set : b.fsm = .unset → b.melSet = false

/-- A frequency the Note Table can give: 0, or NOTE_FREQ of a pitched code (R31, R41, R141). -/
def isPitch (f : Hz) : Prop := f = 0#32 ∨ ∃ c : NoteCode, 1 ≤ c.toNat ∧ c.toNat ≤ Config.numNotes ∧ f = Config.noteFreq c

/-- The legal values R31 gives CUR_FREQ, CHAN, TRUNC_IDX and the valid entries of MEL. -/
structure Block.Legal (b : Block) : Prop where
  cur_freq : isPitch b.curFreq
  entries : ∀ i : Nat, i < b.melLen.toNat → isPitch (MelStore.read b.mel i).freq
  chan : b.chan = Config.channel
  chan_range : 1 ≤ b.chan.toNat ∧ b.chan.toNat ≤ 4
  trunc_idx_range : b.truncIdx.toNat ≤ 255

/-- Outside WAIT the last deadline has passed (R189, R190), so that the next one is no smaller (R355). -/
def State.DeadlinePassed (s : State) : Prop := s.block.fsm ≠ .wait → s.block.deadline ≤ s.env.now

/-! The tone channel's trace -/

/-- ACT of a record (R120). -/
def ToneRecord.act (r : ToneRecord) : BitVec 8 := r.word.extractLsb' 56 8

/-- OPERAND of a record (R120). -/
def ToneRecord.operand (r : ToneRecord) : Word := r.word.extractLsb' 0 32

/-- The time at which the suspension under way is due, after the records: the SLEEP's time and its duration (R189). -/
def dueAfter (due : Option Nat) : List ToneRecord → Option Nat
  | [] => due
  | r :: rs => dueAfter (if r.act = Act.sleep.code then some (r.time + r.operand.toNat) else due) rs

/-- Every WAKE is preceded by a SLEEP, and comes no earlier than the last SLEEP's time and duration (R195). -/
def wakesNotEarly (due : Option Nat) : List ToneRecord → Bool
  | [] => true
  | r :: rs =>
    (if r.act = Act.wake.code then
        match due with
        | some d => decide (d ≤ r.time)
        | none => false
      else true)
      && wakesNotEarly (if r.act = Act.sleep.code then some (r.time + r.operand.toNat) else due) rs

/-- The trace's times never decrease and none is after NOW (R50, R195), no WAKE is early, and in WAIT the suspension
under way is due at DEADLINE (R189, R190, R195). -/
structure State.WakesOnTime (s : State) : Prop where
  in_time_order : (s.out.tone.map (·.time)).Pairwise (· ≤ ·)
  not_after_now : ∀ r ∈ s.out.tone, r.time ≤ s.env.now
  not_early : wakesNotEarly none s.out.tone = true
  waiting : s.block.fsm = .wait → dueAfter none s.out.tone = some s.block.deadline

/-- How far the records of one entry have come (R194). -/
inductive TonePhase where
  /-- Between two entries. -/
  | boundary
  /-- After a tone's SET_FREQ. -/
  | freqSet
  /-- After its GET_MAX_DUTY, which answered `m`. -/
  | maxRead (m : Nat)
  /-- After its SET_DUTY. -/
  | dutySet
  /-- After its ENABLE. -/
  | on
  /-- After its SLEEP. -/
  | onAsleep
  /-- After its WAKE. -/
  | onAwake
  /-- After a rest's SLEEP. -/
  | restAsleep
deriving DecidableEq, Repr

/-- The phase after one more record; `none` where R194 and R196 do not let the record stand. -/
def TonePhase.after (p : TonePhase) (r : ToneRecord) : Option TonePhase :=
  match p with
  | .boundary =>
    if r.act = Act.setFreq.code then (if r.operand ≠ 0#32 then some .freqSet else none)
    else if r.act = Act.sleep.code then some .restAsleep
    else none
  | .freqSet => if r.act = Act.getMaxDuty.code then some (.maxRead r.operand.toNat) else none
  | .maxRead m => if r.act = Act.setDuty.code ∧ r.operand.toNat = m / 2 then some .dutySet else none
  | .dutySet => if r.act = Act.enable.code then some .on else none
  | .on => if r.act = Act.sleep.code then some .onAsleep else none
  | .onAsleep => if r.act = Act.wake.code then some .onAwake else none
  | .onAwake => if r.act = Act.disable.code then some .boundary else none
  | .restAsleep => if r.act = Act.wake.code then some .boundary else none

/-- The phase after more records, as long as R194 and R196 let each stand. -/
def TonePhase.afterAll (p : TonePhase) : List ToneRecord → Option TonePhase
  | [] => some p
  | r :: rs =>
    match p.after r with
    | some q => q.afterAll rs
    | none => none

/-- The phase the block is in: where its FSM stands in the records of the entry it plays (R180, R194). -/
def Block.phase (b : Block) : TonePhase :=
  match b.fsm with
  | .getmax => .freqSet
  | .setduty => .maxRead b.maxd.toNat
  | .enable => .dutySet
  | .sleep => if b.curFreq ≠ 0#32 then .on else .boundary
  | .wait => if b.curFreq ≠ 0#32 then .onAsleep else .restAsleep
  | .disable => .onAwake
  | .unset => .boundary
  | .idle => .boundary
  | .fetch => .boundary
  | .setfreq => .boundary
  | .next => .boundary
  | .fault => .boundary

/-- The records after `before` are whole entries' records, in order and not overlapping, and the records so far of the
entry being played (R194, R196). `before` is what was emitted before the last reset, which may cut an entry short
(R342). -/
def State.EntriesInOrder (s : State) (before : List ToneRecord) : Prop :=
  ∃ since, s.out.tone = before ++ since ∧ TonePhase.boundary.afterAll since = some s.block.phase

/-- Whether the channel's output is on after the records, each of which took effect: on from an ENABLE to the next DISABLE
(R254, R255, R257). -/
def outputAfter (on : Bool) : List ToneRecord → Bool
  | [] => on
  | r :: rs =>
    outputAfter (if r.act = Act.enable.code then true else if r.act = Act.disable.code then false else on) rs

/-- The LED transmitter's trace holds DUTY_OUT records alone (R120). -/
def State.LedHoldsBuffers (s : State) : Prop := ∀ r ∈ s.out.led, r.word.extractLsb' 56 8 = Act.dutyOut.code

/-- Every record of the tone trace has taken effect (R257). -/
def State.ChannelUpToDate (s : State) : Prop := s.env.toneApplied = s.out.tone.length

/-- The next outcome of a run that goes on only from a next state. -/
def andThen (o : Host.Outcome State Fault Refusal) (f : State → Host.Outcome State Fault Refusal) :
    Host.Outcome State Fault Refusal :=
  match o with
  | .next s => f s
  | .fault r => .fault r
  | .refused r => .refused r

/-- One SEQ micro-step: the one of FSM_STATE, where it has one (R180). -/
def seqOnce (s : State) : Host.Outcome State Fault Refusal :=
  match decodeUstep s.block.fsm.code with
  | .ok i => exec i s
  | .error _ => .next s

/-- `n` SEQ micro-steps. -/
def seqRun : Nat → State → Host.Outcome State Fault Refusal
  | 0, s => .next s
  | n + 1, s => andThen (seqOnce s) (seqRun n)

/-- At rest (R318): the stream is consumed and SEQ is in UNSET, IDLE or FAULT. Every record is in a trace at all
times. It does not say whether the channel's output is off, or whether the transmitter has finished. DESIGN CHOICE: R318
does not say whether a stream that is empty but has not ended is consumed; here it is. Log 24. -/
def State.AtRest (s : State) : Prop :=
  s.port.stream = [] ∧ (s.block.fsm = .unset ∨ s.block.fsm = .idle ∨ s.block.fsm = .fault)

/-- The `n`-th state of the execution from `s` in which the outside world chooses by the schedule `σ`; it stays where a
step stops. A schedule is a list of choices without end, and no part of the state (R77, R308). -/
def trajectory (σ : Nat → Event) (s : State) : Nat → State
  | 0 => s
  | n + 1 =>
    match step ((trajectory σ s n).withEvent (σ n)) with
    | .next t => t
    | .fault _ => trajectory σ s n
    | .refused _ => trajectory σ s n

/-- R257's assumption on ENV, which a claim about the channel's output has as a premise: each record takes effect before
the next record of the trace. That records take effect in trace order is fetchTone's. Log 14. -/
def AppliedInTurn (σ : Nat → Event) (s : State) : Prop :=
  ∀ n, (trajectory σ s (n + 1)).out.tone ≠ (trajectory σ s n).out.tone → (trajectory σ s n).ChannelUpToDate

/-- A SEQ micro-step is enabled: in every state but UNSET, IDLE, FAULT, and WAIT before its deadline (R77). -/
def State.SeqEnabled (s : State) : Prop :=
  s.block.fsm ≠ .unset ∧ s.block.fsm ≠ .idle ∧ s.block.fsm ≠ .fault ∧
    (s.block.fsm = .wait → s.block.deadline ≤ s.env.now)

/-- Weak fairness (R310): a SEQ step that stays enabled is taken, and NOW grows without bound. The choices that are
free are not forced to be fair: a statement about fair executions has this as a premise. Log 17. -/
structure Fair (σ : Nat → Event) (s : State) : Prop where
  seq_taken : ∀ n, (∀ m, n ≤ m → (trajectory σ s m).SeqEnabled) → ∃ m, n ≤ m ∧ σ m = .seq
  time_grows : ∀ t, ∃ n, t ≤ (trajectory σ s n).env.now

end Sys2Proof.Machine
end

