-- ==== Sys2Proof/Certificates/Slice0/Obligations.lean ====
section
/-! DEFINITION. The statements about the machine, each from the rules of spec/ its docstring cites. -/

open Sys2Proof Sys2Proof.Machine

/-! Encoding -/

/-- R100 to R107, R110, R120: for every well-formed instruction, decoding its encoding gives it back, with every
operand at every value. -/
def Obligations.DecodeOfEncodeIsTheInstruction : Prop :=
  ∀ i : Instr, i.wellFormed = true → decode (encode i) = .ok i

/-- R100, R101, R110, R114: every header word with the operand words its own bits announce decodes to one complete
instruction, whose encoding is exactly those words, and the rest of the stream is left; the state plays no part. -/
def Obligations.EveryHeaderDecodesToOneCompleteCommand : Prop :=
  ∀ (h : Word) (ws : List Word) (ended : Bool), operandCount h ≤ ws.length →
    ∃ i : Instr, i.isCommand = true ∧ i.complete = true ∧ i.wellFormed = true ∧
      encode i = .stream (h :: ws.take (operandCount h)) ∧
      decodeCommand ended (h :: ws) = .ok (i, ws.drop (operandCount h))

/-- Words written out from the spec's encodings (R103 to R107, R112, R115; spec/95_test_vectors.md) decode to the
instructions they stand for. -/
def Obligations.WordsOfTheSpecDecode : Prop :=
  decode (.stream [0x10000002#32, 0x0A000064#32, 0x00000032#32]) =
      .ok (.setmel 0#12 2#16 [⟨0x0A#8, 100#24⟩, ⟨0x00#8, 50#24⟩]) ∧
    decode (.stream [0x20000000#32]) = .ok (.play 0#28) ∧
    decode (.stream [0x6000000A#32]) = .ok (.resolve 0#20 0x0A#8) ∧
    decode (.stream [0x70000008#32]) = .ok (.rdreg 0#24 8#4) ∧
    decode (.stream [0x800000FF#32]) = .ok (.rdmel 0#20 255#8) ∧
    decode (.stream [0xF1234567#32]) = .ok (.illegalOpF 0x1234567#28) ∧
    decode (.pixelWord 0x00123456#32) = .ok (.pixel 0#8 0x12#8 0x34#8 0x56#8) ∧
    decode (.fsmState 0b1000#4) = .ok .ustepWait ∧
    decode (.record 0x01000000000001B8#64 []) = .ok (.actSetFreq 440#32)

/-! What a step runs -/

/-- R77, R100, R180: when the choice is a HOST step and the stream's next words decode to an instruction, the step is
exec of it, with its words consumed; when the choice is SEQ, the step is exec of the micro-step of FSM_STATE. The
choice itself is free, and State holds it or Config does (log 1). -/
def Obligations.StepRunsTheDecodedInstruction : Prop :=
  (∀ (s : State) (i : Instr) (rest : List Word), s.nextEvent = .host → s.block.fsm.hostEnabled = true →
      decodeCommand s.port.ended s.port.stream = .ok (i, rest) →
      step s = exec i { s.afterEvent with port := { s.port with stream := rest } }) ∧
    (∀ (s : State) (i : Instr), s.nextEvent = .seq → decodeUstep s.block.fsm.code = .ok i →
      step s = exec i s.afterEvent)

/-- R101, R257, R258: when the choice is a sent word in an operand position, the step is exec of that ENTRY or PIXEL;
when it is the next record of a trace, the step is exec of the record, with the trace's reader moved past it. The two
are the model's own form of how a word arrives and of how ENV takes records (logs 11, 12 and 14). -/
def Obligations.StepRunsOperandWordsAndRecords : Prop :=
  (∀ (s : State) (w : Word) (i : Instr), s.nextEvent = .send w → s.port.ended = false →
      decodeOperand (nextPosition s.port.stream) w = some i → step s = exec i s.afterEvent) ∧
    (∀ (s : State) (r : ToneRecord) (i : Instr), s.nextEvent = .applyTone →
      s.out.tone[s.env.toneApplied]? = some r → decodeRecord r.word [] = .ok i →
      step s = exec i { s.afterEvent with env := { s.env with toneApplied := s.env.toneApplied + 1 } }) ∧
    (∀ (s : State) (r : LedRecord) (i : Instr), s.nextEvent = .takeBuffer →
      s.out.led[s.env.ledApplied]? = some r → decodeRecord r.word r.payload = .ok i →
      step s = exec i { s.afterEvent with env := { s.env with ledApplied := s.env.ledApplied + 1 } })

/-- R50, R100, R113, R313: time only grows by a tick, a header word waits in the stream, after the end of the stream no
word comes, and a HOST step that finds no whole command in a stream that goes on waits (the last two are the model's
own reading, log 9). -/
def Obligations.StepsThatAreNoInstruction : Prop :=
  (∀ (s : State) (d : Nat), s.nextEvent = .tick d →
      step s = .next { s.afterEvent with env := { s.env with now := s.env.now + d } }) ∧
    (∀ s : State, s.nextEvent = .endStream →
      step s = .next { s.afterEvent with port := { s.port with ended := true } }) ∧
    (∀ (s : State) (w : Word), s.nextEvent = .send w → s.port.ended = false →
      nextPosition s.port.stream = .header →
      step s = .next { s.afterEvent with port := { s.port with stream := s.port.stream ++ [w] } }) ∧
    (∀ (s : State) (w : Word), s.nextEvent = .send w → s.port.ended = true → step s = .next s.afterEvent) ∧
    (∀ (s : State) (h : Word) (ws : List Word), s.nextEvent = .host → s.port.ended = false →
      s.port.stream = h :: ws → ws.length < operandCount h → step s = .next s.afterEvent)

/-- R77: a HOST step is enabled only when FSM_STATE is UNSET, IDLE, WAIT or FAULT; while SEQ is mid-segment HOST is held.
That exec of a held command is a next state equal to the one before, and that a held HOST step is a next state that only
uses up its choice, is the model's choice (logs 1 and 15), for R14 lists hold apart from next state. -/
def Obligations.HostIsHeldMidSegment : Prop :=
  (∀ f : Fsm, f.hostEnabled = true ↔ f = .unset ∨ f = .idle ∨ f = .wait ∨ f = .fault) ∧
    (∀ s : State, s.block.fsm.hostEnabled = false →
      (∀ i : Instr, i.isCommand = true → exec i s = .next s) ∧
      (s.nextEvent = .host → step s = .next s.afterEvent))

/-- R101: a HOST step consumes exactly the header and the operand words the header announces, whatever the reserved
bits and the block's state are and whatever the response is, and gives exactly one response, which echoes OP. -/
def Obligations.HostStepConsumesItsCommandAndAnswersOnce : Prop :=
  ∀ (s : State) (h : Word) (ws : List Word), s.nextEvent = .host → s.block.fsm.hostEnabled = true →
    s.port.stream = h :: ws →
    (if h.extractLsb' 28 4 = 0x1#4 then (h.extractLsb' 0 16).toNat
      else if h.extractLsb' 28 4 = 0x5#4 then 8 else 0) ≤ ws.length →
    ∃ (t : State) (r : Response), step s = .next t ∧
      t.port.stream = ws.drop
        (if h.extractLsb' 28 4 = 0x1#4 then (h.extractLsb' 0 16).toNat
          else if h.extractLsb' 28 4 = 0x5#4 then 8 else 0) ∧
      t.port.responses = s.port.responses ++ [r] ∧ r.rsp.extractLsb' 28 4 = h.extractLsb' 28 4

/-! Reserved, illegal and malformed words -/

/-- R111: a command whose reserved bits are not all 0, or an ENCODE with a pixel word whose bits 31:24 are not 0, is
rejected with ERR_RESERVED; it is not executed, and all its words are consumed. -/
def Obligations.ReservedBitsAreRejected : Prop :=
  ∀ (s : State) (h : Word) (ws : List Word), s.nextEvent = .host → s.block.fsm.hostEnabled = true →
    s.port.stream = h :: ws → operandCount h ≤ ws.length →
    ((opOf h = 0x1#4 ∧ h.extractLsb' 16 12 ≠ 0#12) ∨
      ((opOf h = 0x2#4 ∨ opOf h = 0x3#4 ∨ opOf h = 0x4#4) ∧ h.extractLsb' 0 28 ≠ 0#28) ∨
      (opOf h = 0x5#4 ∧ (h.extractLsb' 16 12 ≠ 0#12 ∨ ∃ w ∈ ws.take 8, w.extractLsb' 24 8 ≠ 0#8)) ∨
      ((opOf h = 0x6#4 ∨ opOf h = 0x8#4) ∧ h.extractLsb' 8 20 ≠ 0#20) ∨
      (opOf h = 0x7#4 ∧ h.extractLsb' 4 24 ≠ 0#24)) →
    step s = .next
      { s.afterEvent with
        port :=
          { s.port with
            stream := ws.drop (operandCount h)
            responses := s.port.responses ++ [⟨rspWord (opOf h) false .errReserved, []⟩] } }

/-- R112: a header with OP = 0x0 or OP in 0x9..0xF is consumed alone, and OP is echoed with ERR_ILLEGAL; no state changes
and no action is emitted. The eight illegal instructions do exactly that. -/
def Obligations.IllegalHeadersAnswerErrIllegal : Prop :=
  (∀ (s : State) (h : Word) (ws : List Word), s.nextEvent = .host → s.block.fsm.hostEnabled = true →
      s.port.stream = h :: ws → (opOf h = 0x0#4 ∨ 9 ≤ (opOf h).toNat) →
      step s = .next
        { s.afterEvent with
          port :=
            { s.port with
              stream := ws
              responses := s.port.responses ++ [⟨rspWord (opOf h) false .errIllegal, []⟩] } }) ∧
    (∀ (s : State) (bits : BitVec 28), s.block.fsm.hostEnabled = true →
      exec (.illegalOp0 bits) s = .next (s.answer 0x0#4 .errIllegal) ∧
      exec (.illegalOp9 bits) s = .next (s.answer 0x9#4 .errIllegal) ∧
      exec (.illegalOpA bits) s = .next (s.answer 0xA#4 .errIllegal) ∧
      exec (.illegalOpB bits) s = .next (s.answer 0xB#4 .errIllegal) ∧
      exec (.illegalOpC bits) s = .next (s.answer 0xC#4 .errIllegal) ∧
      exec (.illegalOpD bits) s = .next (s.answer 0xD#4 .errIllegal) ∧
      exec (.illegalOpE bits) s = .next (s.answer 0xE#4 .errIllegal) ∧
      exec (.illegalOpF bits) s = .next (s.answer 0xF#4 .errIllegal))

/-- R113: when the stream ends after a header but before all of its operand words, the command is not executed, no state
changes, and the response has status ERR_MALFORMED. -/
def Obligations.StreamThatEndsInsideACommandIsMalformed : Prop :=
  ∀ (s : State) (h : Word) (ws : List Word), s.nextEvent = .host → s.block.fsm.hostEnabled = true →
    s.port.stream = h :: ws → ws.length < operandCount h → s.port.ended = true →
    step s = .next
      { s.afterEvent with
        port :=
          { s.port with
            stream := []
            responses := s.port.responses ++ [⟨rspWord (opOf h) false .errMalformed, []⟩] } }

/-! Reset -/

/-- R340: reset puts every field of the block at its reset value, at power-on and later alike, and STATUS then reads 0.
What MEL holds is unspecified, so nothing is said of it. -/
def Obligations.ResetPutsEveryFieldAtItsValue : Prop :=
  ∀ b : Block, (b = State.reset.block ∨ ∃ s t : State, s.nextEvent = .reset ∧ step s = .next t ∧ b = t.block) →
    b.fsm = .unset ∧ b.melSet = false ∧ b.trunc = false ∧ b.loop = false ∧ b.stopReq = false ∧ b.outEn = false ∧
      b.fault = .none ∧ b.melLen = 0#9 ∧ b.idx = 0#9 ∧ b.truncIdx = 0#9 ∧ b.chan = Config.channel ∧
      b.curFreq = 0#32 ∧ b.curDur = 0#24 ∧ b.maxd = 0#16 ∧ b.deadline = 0 ∧ b.statusWord = 0#32

/-- R342: reset emits no record and does not act on the environment; it discards the wake-up of a WAIT, for SEQ then has no
step; it discards a partially received command; and the first word HOST sends after it stands as a header. That this
holds even where the stream had ended is DEDUCED (log 9). R308: no HOST step that was enabled before the reset is taken
after it. That this holds of the whole commands behind the enabled one too is the model's choice (log 10), and that the
HOST step then is a next state equal to the one before is too (log 15). -/
def Obligations.ResetActsOnTheBlockAlone : Prop :=
  ∀ s : State, s.nextEvent = .reset →
    ∃ t : State, step s = .next t ∧ t.out = s.out ∧ t.env = s.env ∧ t.port.responses = s.port.responses ∧
      seqOnce t = .next t ∧
      (∀ (h : Word) (ws : List Word), s.port.stream = h :: ws → ws.length < operandCount h → t.port.stream = []) ∧
      nextPosition t.port.stream = .header ∧
      (∀ w : Word, step (t.withEvent (.send w)) =
        .next { t with port := { t.port with stream := t.port.stream ++ [w] } }) ∧
      (s.block.fsm.hostEnabled = true → step (t.withEvent .host) = .next t)

/-- R343: what each command does right after reset. -/
def Obligations.CommandsRightAfterReset : Prop :=
  ∀ s : State, s.block = Block.reset →
    (∀ (n : BitVec 16) (es : List EntryWord), es.length = n.toNat → n.toNat ≤ 256 →
      ∃ t, exec (.setmel 0#12 n es) s = .next t ∧ t.block.fsm = .idle) ∧
    (∃ t, exec (.play 0#28) s = .next t ∧ t.block.fsm = .fault ∧ t.block.fault = .emptyMelodyPlayback ∧
      t.port.responses = s.port.responses ++ [⟨0x20000009#32, []⟩]) ∧
    (∃ t, exec (.run 0#28) s = .next t ∧ t.block.fsm = .fault ∧ t.block.fault = .emptyMelodyPlayback ∧
      t.port.responses = s.port.responses ++ [⟨0x30000009#32, []⟩]) ∧
    exec (.stop 0#28) s = .next (s.answer 0x4#4 .ok) ∧
    (∀ (m : Duty) (ps : List PixelWord), ps.length = 8 → (∀ p ∈ ps, p.rsv = 0#8) →
      exec (.encode 0#12 m ps) s = .next ((s.emitLed (dutyBuffer m ps)).answer 0x5#4 .ok)) ∧
    (∀ c : NoteCode,
      exec (.resolve 0#20 c) s = .next (s.respond 0x6#4 (rom c).isSome .ok [(rom c).getD 0#32])) ∧
    (∀ reg : BitVec 4, reg.toNat < 10 →
      exec (.rdreg 0#24 reg) s =
        .next (s.respond 0x7#4 false .ok [if reg = 4#4 then Config.channel.setWidth 32 else 0#32])) ∧
    (∀ k : BitVec 8, exec (.rdmel 0#20 k) s = .next (s.answer 0x8#4 .errRange))

/-! SETMEL -/

/-- R162: an accepted SETMEL stores the resolved prefix of its entries, sets MEL_LEN, MEL_SET, TRUNC, TRUNC_IDX and IDLE,
answers OK or OK_TRUNC, and changes nothing else. -/
def Obligations.SetmelStoresTheResolvedPrefix : Prop :=
  ∀ (s : State) (n : BitVec 16) (es : List EntryWord), (s.block.fsm = .unset ∨ s.block.fsm = .idle) →
    es.length = n.toNat → n.toNat ≤ 256 →
    exec (.setmel 0#12 n es) s = .next
      { s with
        block :=
          { s.block with
            mel := MelStore.writeFrom s.block.mel 0 (resolvePrefix es)
            melLen := BitVec.ofNat 9 (resolvePrefix es).length
            melSet := true
            fsm := .idle
            trunc := decide ((resolvePrefix es).length < es.length)
            truncIdx :=
              if (resolvePrefix es).length < es.length then BitVec.ofNat 9 (resolvePrefix es).length else 0#9 }
        port :=
          { s.port with
            responses := s.port.responses ++
              [⟨if (resolvePrefix es).length < es.length then 0x10000001#32 else 0x10000000#32, []⟩] } }

/-- R163: an accepted SETMEL whose first unresolved entry is at index j leaves MEL_LEN = j and the entries before j
stored in order, each with its code resolved; with no unresolved entry it leaves MEL_LEN = N. -/
def Obligations.TruncationLaw : Prop :=
  ∀ (s : State) (n : BitVec 16) (es : List EntryWord), (s.block.fsm = .unset ∨ s.block.fsm = .idle) →
    MelStore.wf s.block.mel = true → es.length = n.toNat → n.toNat ≤ 256 →
    ∃ t, exec (.setmel 0#12 n es) s = .next t ∧
      (∀ (j : Nat) (hj : j < es.length), rom es[j].note = none →
        (∀ (k : Nat) (hk : k < es.length), k < j → rom es[k].note ≠ none) →
        t.block.melLen.toNat = j ∧
          ∀ (k : Nat) (hk : k < es.length), k < j →
            rom es[k].note = some (MelStore.read t.block.mel k).freq ∧
              (MelStore.read t.block.mel k).dur = es[k].dur) ∧
      ((∀ e ∈ es, rom e.note ≠ none) →
        t.block.melLen.toNat = n.toNat ∧
          ∀ (k : Nat) (hk : k < es.length),
            rom es[k].note = some (MelStore.read t.block.mel k).freq ∧
              (MelStore.read t.block.mel k).dur = es[k].dur)

/-- R164: 256 entries, all resolving, are all stored with status OK; 257 entries are rejected with ERR_CAPACITY and
change nothing. -/
def Obligations.CapacityBoundary : Prop :=
  ∀ (s : State) (es : List EntryWord), (s.block.fsm = .unset ∨ s.block.fsm = .idle) →
    MelStore.wf s.block.mel = true →
    (es.length = 256 → (∀ e ∈ es, rom e.note ≠ none) →
      ∃ t, exec (.setmel 0#12 256#16 es) s = .next t ∧ t.block.melLen.toNat = 256 ∧
        t.port.responses = s.port.responses ++ [⟨0x10000000#32, []⟩] ∧
        ∀ (k : Nat) (hk : k < es.length),
          rom es[k].note = some (MelStore.read t.block.mel k).freq ∧ (MelStore.read t.block.mel k).dur = es[k].dur) ∧
    (es.length = 257 →
      ∃ t, exec (.setmel 0#12 257#16 es) s = .next t ∧ t.block = s.block ∧
        t.port.responses = s.port.responses ++ [⟨0x10000002#32, []⟩])

/-- R41, R160, R165: the frame of SETMEL. IDX, LOOP, STOP_REQ, OUT_EN, CUR_FREQ, CUR_DUR, MAXD, DEADLINE, FAULT and
CHAN, both traces, ENV and the stream are as before, and every entry at or above the stored prefix reads as before. -/
def Obligations.SetmelFrame : Prop :=
  ∀ (s t : State) (rsv : BitVec 12) (n : BitVec 16) (es : List EntryWord), exec (.setmel rsv n es) s = .next t →
    t.block.idx = s.block.idx ∧ t.block.loop = s.block.loop ∧ t.block.stopReq = s.block.stopReq ∧
      t.block.outEn = s.block.outEn ∧ t.block.curFreq = s.block.curFreq ∧ t.block.curDur = s.block.curDur ∧
      t.block.maxd = s.block.maxd ∧ t.block.deadline = s.block.deadline ∧ t.block.fault = s.block.fault ∧
      t.block.chan = s.block.chan ∧ t.out = s.out ∧ t.env = s.env ∧ t.choices = s.choices ∧
      t.port.stream = s.port.stream ∧
      ∀ k : Nat, (resolvePrefix (es.take n.toNat)).length ≤ k →
        MelStore.read t.block.mel k = MelStore.read s.block.mel k

/-! PLAY, RUN and STOP -/

/-- R181, R182, R183: what PLAY, RUN and STOP do where they are accepted, and that they change nothing else. -/
def Obligations.PlaybackCommandsComplete : Prop :=
  (∀ s : State, s.block.fsm = .idle →
      exec (.play 0#28) s = .next
        { s with
          block := { s.block with idx := 0#9, loop := false, stopReq := false, fsm := .fetch }
          port := { s.port with responses := s.port.responses ++ [⟨0x20000000#32, []⟩] } }) ∧
    (∀ s : State, s.block.fsm = .idle → s.block.melLen ≠ 0#9 →
      exec (.run 0#28) s = .next
        { s with
          block := { s.block with idx := 0#9, loop := true, stopReq := false, fsm := .fetch }
          port := { s.port with responses := s.port.responses ++ [⟨0x30000000#32, []⟩] } }) ∧
    (∀ s : State, s.block.fsm = .wait →
      exec (.stop 0#28) s = .next
        { s with
          block := { s.block with stopReq := true }
          port := { s.port with responses := s.port.responses ++ [⟨0x40000000#32, []⟩] } }) ∧
    (∀ s : State, (s.block.fsm = .unset ∨ s.block.fsm = .idle) →
      exec (.stop 0#28) s = .next
        { s with port := { s.port with responses := s.port.responses ++ [⟨0x40000000#32, []⟩] } })

/-- R161, R181, R182, R183, R306: the checks of SETMEL, PLAY, RUN and STOP that leave the block alone, in their order: the
first that fails decides the response, and nothing else changes. -/
def Obligations.CommandsRejectInOrder : Prop :=
  (∀ (s : State) (rsv : BitVec 12) (n : BitVec 16) (es : List EntryWord), s.block.fsm.hostEnabled = true →
      (es.length < n.toNat → exec (.setmel rsv n es) s = .next (s.answer 0x1#4 .errMalformed)) ∧
      (n.toNat ≤ es.length → rsv ≠ 0#12 → exec (.setmel rsv n es) s = .next (s.answer 0x1#4 .errReserved)) ∧
      (n.toNat ≤ es.length → rsv = 0#12 → s.block.fsm = .fault →
        exec (.setmel rsv n es) s = .next (s.answer 0x1#4 .errFaulted)) ∧
      (n.toNat ≤ es.length → rsv = 0#12 → s.block.fsm = .wait →
        exec (.setmel rsv n es) s = .next (s.answer 0x1#4 .errBusy)) ∧
      (n.toNat ≤ es.length → rsv = 0#12 → (s.block.fsm = .unset ∨ s.block.fsm = .idle) → 256 < n.toNat →
        exec (.setmel rsv n es) s = .next (s.answer 0x1#4 .errCapacity))) ∧
    (∀ (s : State) (rsv : BitVec 28), s.block.fsm.hostEnabled = true → rsv ≠ 0#28 →
      exec (.play rsv) s = .next (s.answer 0x2#4 .errReserved) ∧
      exec (.run rsv) s = .next (s.answer 0x3#4 .errReserved) ∧
      exec (.stop rsv) s = .next (s.answer 0x4#4 .errReserved)) ∧
    (∀ s : State, s.block.fsm = .fault →
      exec (.play 0#28) s = .next (s.answer 0x2#4 .errFaulted) ∧
      exec (.run 0#28) s = .next (s.answer 0x3#4 .errFaulted) ∧
      exec (.stop 0#28) s = .next (s.answer 0x4#4 .errFaulted)) ∧
    (∀ s : State, s.block.fsm = .wait →
      exec (.play 0#28) s = .next (s.answer 0x2#4 .errBusy) ∧
      exec (.run 0#28) s = .next (s.answer 0x3#4 .errBusy))

/-- R303: the fault entries of PLAY and RUN. FAULT gets the code and FSM_STATE becomes FAULT; the command has no other
effect, no action is emitted, and IDX, LOOP, STOP_REQ and OUT_EN, which are 0 by R48, stay 0. -/
def Obligations.RaisingAFaultIsPrecise : Prop :=
  (∀ s : State, s.block.fsm = .unset →
      exec (.play 0#28) s = .next
        { s with
          block := { s.block with fault := .emptyMelodyPlayback, fsm := .fault }
          port := { s.port with responses := s.port.responses ++ [⟨0x20000009#32, []⟩] } } ∧
      exec (.run 0#28) s = .next
        { s with
          block := { s.block with fault := .emptyMelodyPlayback, fsm := .fault }
          port := { s.port with responses := s.port.responses ++ [⟨0x30000009#32, []⟩] } }) ∧
    (∀ s : State, s.block.fsm = .idle → s.block.melLen = 0#9 →
      exec (.run 0#28) s = .next
        { s with
          block := { s.block with fault := .emptyLoop, fsm := .fault }
          port := { s.port with responses := s.port.responses ++ [⟨0x3000000A#32, []⟩] } }) ∧
    (∀ (s t : State) (i : Instr), s.block.Inv → exec i s = .next t → t.block.fsm = .fault →
      t.block.idx = 0#9 ∧ t.block.loop = false ∧ t.block.stopReq = false ∧ t.block.outEn = false)

/-- R304, R305: in FAULT, SEQ has no step, SETMEL, PLAY, RUN and STOP are rejected with ERR_FAULTED, the other commands
leave the block alone, and STATUS[15:12] shows the code. Only instructions are meant: a reset does change the block
(R305). That every micro-step answers a next state in FAULT, which is not its own state, and that SEQ, which has no step
there, stays in the state it is in, is the model's choice (logs 16 and 15). -/
def Obligations.FaultStateRejectsAndShowsItsCode : Prop :=
  ∀ s : State, s.block.fsm = .fault →
    seqOnce s = .next s ∧
    (∀ (n : BitVec 16) (es : List EntryWord), es.length = n.toNat →
      exec (.setmel 0#12 n es) s = .next (s.answer 0x1#4 .errFaulted)) ∧
    exec (.play 0#28) s = .next (s.answer 0x2#4 .errFaulted) ∧
    exec (.run 0#28) s = .next (s.answer 0x3#4 .errFaulted) ∧
    exec (.stop 0#28) s = .next (s.answer 0x4#4 .errFaulted) ∧
    (∀ i : Instr, ∃ t, exec i s = .next t ∧ t.block = s.block) ∧
    ∃ v : Word, exec (.rdreg 0#24 0#4) s = .next (s.respond 0x7#4 false .ok [v]) ∧
      v.extractLsb' 12 4 = s.block.fault.code

/-- R305, R341: no step but a reset leaves FAULT or changes the recorded code. -/
def Obligations.OnlyResetLeavesFault : Prop :=
  ∀ s t : State, s.block.fsm = .fault → step s = .next t →
    (t.block.fsm = .fault ∧ t.block.fault = s.block.fault) ∨ s.nextEvent = .reset

/-- R197: every pass starts at entry 0. PLAY and RUN set IDX = 0 where they start a pass, the end of a pass and a stop
set IDX = 0, and whatever step ends in IDLE leaves IDX = 0, so that no pass is resumed where it stopped. -/
def Obligations.EveryPassStartsAtEntryZero : Prop :=
  (∀ (s t : State) (i : Instr), i.isCommand = true → exec i s = .next t → s.block.fsm ≠ .fetch →
      t.block.fsm = .fetch → t.block.idx = 0#9) ∧
    (∀ s : State, s.block.fsm = .fetch → s.block.idx = s.block.melLen →
      ∃ t, exec .ustepFetch s = .next t ∧ t.block.idx = 0#9) ∧
    (∀ s : State, s.block.fsm = .next → s.block.stopReq = true →
      ∃ t, exec .ustepNext s = .next t ∧ t.block.idx = 0#9 ∧ t.block.fsm = .idle) ∧
    (∀ s t : State, s.block.Inv → step s = .next t → t.block.fsm = .idle → t.block.idx = 0#9)

/-! RESOLVE, RDREG and RDMEL -/

/-- R141: the three cases of the Note Table. -/
def Obligations.NoteTableCases : Prop :=
  ∀ c : NoteCode,
    (c = 0x00#8 → rom c = some 0#32) ∧
    (0x01 ≤ c.toNat → c.toNat ≤ 0x19 → rom c = some (Config.noteFreq c) ∧ Config.noteFreq c ≠ 0#32) ∧
    (0x1A ≤ c.toNat → rom c = none)

/-- R142: RESOLVE answers OK with FOUND and the frequency, rejects non-zero reserved bits, and changes nothing else. -/
def Obligations.ResolveAnswers : Prop :=
  ∀ s : State, s.block.fsm.hostEnabled = true →
    (∀ c : NoteCode,
      exec (.resolve 0#20 c) s = .next
        { s with
          port :=
            { s.port with
              responses := s.port.responses ++
                [⟨if c.toNat ≤ 0x19 then 0x60000100#32 else 0x60000000#32,
                  [if c = 0#8 then 0#32 else if c.toNat ≤ 0x19 then Config.noteFreq c else 0#32]⟩] } }) ∧
    (∀ (rsv : BitVec 20) (c : NoteCode), rsv ≠ 0#20 →
      exec (.resolve rsv c) s = .next
        { s with port := { s.port with responses := s.port.responses ++ [⟨0x60000006#32, []⟩] } })

/-- R270, R271: RDREG answers each register's value, rejects the numbers 10 to 15 with ERR_RANGE and non-zero reserved
bits with ERR_RESERVED, and changes nothing else. -/
def Obligations.RdregAnswers : Prop :=
  ∀ s : State, s.block.fsm.hostEnabled = true →
    exec (.rdreg 0#24 0#4) s = .next (s.respond 0x7#4 false .ok [s.block.statusWord]) ∧
    exec (.rdreg 0#24 1#4) s = .next (s.respond 0x7#4 false .ok [s.block.melLen.setWidth 32]) ∧
    exec (.rdreg 0#24 2#4) s = .next (s.respond 0x7#4 false .ok [s.block.idx.setWidth 32]) ∧
    exec (.rdreg 0#24 3#4) s = .next (s.respond 0x7#4 false .ok [s.block.truncIdx.setWidth 32]) ∧
    exec (.rdreg 0#24 4#4) s = .next (s.respond 0x7#4 false .ok [s.block.chan.setWidth 32]) ∧
    exec (.rdreg 0#24 5#4) s = .next (s.respond 0x7#4 false .ok [s.block.curFreq]) ∧
    exec (.rdreg 0#24 6#4) s = .next (s.respond 0x7#4 false .ok [s.block.curDur.setWidth 32]) ∧
    exec (.rdreg 0#24 7#4) s = .next (s.respond 0x7#4 false .ok [s.block.maxd.setWidth 32]) ∧
    (∃ lo hi : Word,
      exec (.rdreg 0#24 8#4) s = .next (s.respond 0x7#4 false .ok [lo]) ∧
      exec (.rdreg 0#24 9#4) s = .next (s.respond 0x7#4 false .ok [hi]) ∧
      hi ++ lo = BitVec.ofNat 64 s.block.deadline) ∧
    (∀ reg : BitVec 4, 10 ≤ reg.toNat → exec (.rdreg 0#24 reg) s = .next (s.answer 0x7#4 .errRange)) ∧
    (∀ (rsv : BitVec 24) (reg : BitVec 4), rsv ≠ 0#24 →
      exec (.rdreg rsv reg) s = .next (s.answer 0x7#4 .errReserved))

/-- R47: RDREG register 0 answers the STATUS word, field by field; its reserved bits read 0, and after reset it is 0. -/
def Obligations.StatusWordLayout : Prop :=
  (∀ s : State, s.block.fsm.hostEnabled = true →
      ∃ v : Word, exec (.rdreg 0#24 0#4) s = .next (s.respond 0x7#4 false .ok [v]) ∧
        v.extractLsb' 0 4 = s.block.fsm.code ∧ v.getLsbD 4 = s.block.melSet ∧ v.getLsbD 5 = s.block.trunc ∧
        v.getLsbD 6 = s.block.loop ∧ v.getLsbD 7 = s.block.stopReq ∧ v.getLsbD 8 = s.block.outEn ∧
        v.extractLsb' 9 3 = 0#3 ∧ v.extractLsb' 12 4 = s.block.fault.code ∧ v.extractLsb' 16 16 = 0#16) ∧
    ∀ s : State, s.block = Block.reset →
      exec (.rdreg 0#24 0#4) s = .next (s.respond 0x7#4 false .ok [0x00000000#32])

/-- R272: RDMEL answers a valid entry, rejects an INDEX at or above MEL_LEN with ERR_RANGE and non-zero reserved bits
with ERR_RESERVED, and changes nothing else. -/
def Obligations.RdmelAnswers : Prop :=
  ∀ (s : State) (k : BitVec 8), s.block.fsm.hostEnabled = true →
    exec (.rdmel 0#20 k) s =
        (if k.toNat < s.block.melLen.toNat then
          .next
            { s with
              port :=
                { s.port with
                  responses := s.port.responses ++
                    [⟨0x80000000#32,
                      [(MelStore.read s.block.mel k.toNat).freq,
                        (MelStore.read s.block.mel k.toNat).dur.setWidth 32]⟩] } }
        else .next { s with port := { s.port with responses := s.port.responses ++ [⟨0x80000008#32, []⟩] } }) ∧
      ∀ rsv : BitVec 20, rsv ≠ 0#20 →
        exec (.rdmel rsv k) s =
          .next { s with port := { s.port with responses := s.port.responses ++ [⟨0x80000006#32, []⟩] } }

/-- R49, R76, R79, R230, R273: every instruction but SETMEL, PLAY, RUN, STOP and the micro-steps leaves the block and the
tone channel's trace as they are, in every state; so SEQ runs on as if it had not been. -/
def Obligations.OtherInstructionsLeaveTheBlock : Prop :=
  ∀ (s t : State) (i : Instr), exec i s = .next t → i.isMicroStep = false →
    (∀ rsv n es, i ≠ .setmel rsv n es) → (∀ rsv, i ≠ .play rsv) → (∀ rsv, i ≠ .run rsv) → (∀ rsv, i ≠ .stop rsv) →
    t.block = s.block ∧ t.out.tone = s.out.tone ∧ t.choices = s.choices ∧ t.env.now = s.env.now ∧
      (∀ k : Nat, MelStore.read t.block.mel k = MelStore.read s.block.mel k)

/-! ENCODE -/

/-- R231: ENCODE emits one DUTY_OUT record that holds the buffer, answers OK, and changes nothing else. -/
def Obligations.EncodeEmitsOneBuffer : Prop :=
  ∀ (s : State) (m : Duty) (ps : List PixelWord), s.block.fsm.hostEnabled = true → ps.length = 8 →
    (∀ p ∈ ps, p.rsv = 0#8) →
    exec (.encode 0#12 m ps) s = .next
      { s with
        out :=
          { s.out with led := s.out.led ++ [⟨s.env.now, 0x08000000000000C0#64, dutyBuffer m ps⟩] }
        port := { s.port with responses := s.port.responses ++ [⟨0x50000000#32, []⟩] } }

/-- R232, R233, R236: the thresholds are the exact quotients, for every M, and neither wraps; low <= high always, and
low < high exactly when M >= 2; and the table of corner cases. -/
def Obligations.Thresholds : Prop :=
  (∀ m : Duty,
      (highDuty m).toNat = m.toNat * 7 / 10 ∧ (lowDuty m).toNat = m.toNat * 3 / 10 ∧
        (highDuty m).toNat ≤ 45874 ∧ (lowDuty m).toNat ≤ 19660 ∧
        lowDuty m ≤ highDuty m ∧ (lowDuty m < highDuty m ↔ 2 ≤ m.toNat)) ∧
    [0#16, 1#16, 2#16, 3#16, 4#16, 10#16, 11#16, 100#16, 255#16, 9363#16, 21846#16, 65535#16].map
        (fun m => (highDuty m, lowDuty m)) =
      [(0#16, 0#16), (0#16, 0#16), (1#16, 0#16), (2#16, 0#16), (2#16, 1#16), (7#16, 3#16), (7#16, 3#16),
        (70#16, 30#16), (178#16, 76#16), (6554#16, 2808#16), (15292#16, 6553#16), (45874#16, 19660#16)]

/-- R234: the closed form of the buffer. Value k belongs to pixel k div 24, lane (k mod 24) div 8 in the order G, R, B,
and bit 7 - k mod 8 of that lane. -/
def Obligations.BufferClosedForm : Prop :=
  ∀ (m : Duty) (ps : List PixelWord), ps.length = 8 → ∀ k : Nat, k < 192 →
    ∃ p ∈ ps[k / 24]?, (dutyBuffer m ps)[k]? =
      some
        (if (if k % 24 / 8 = 0 then p.g else if k % 24 / 8 = 1 then p.r else p.b).getLsbD (7 - k % 8) then highDuty m
          else lowDuty m)

/-- R235: the buffer has exactly 192 values, and every value is the low or the high duty. -/
def Obligations.BufferShape : Prop :=
  ∀ (m : Duty) (ps : List PixelWord), ps.length = 8 →
    (dutyBuffer m ps).length = 192 ∧ ∀ d ∈ dutyBuffer m ps, d = lowDuty m ∨ d = highDuty m

/-- R238: swapping R and B in pixel i leaves its first 8 values, exchanges its middle 8 and its last 8, and leaves every
other pixel's values. -/
def Obligations.SwappingRedAndBlue : Prop :=
  ∀ (m : Duty) (ps : List PixelWord) (i : Nat) (p : PixelWord), ps.length = 8 → ps[i]? = some p →
    ∀ k : Nat, k < 192 →
      (dutyBuffer m (ps.set i ⟨p.rsv, p.b, p.g, p.r⟩))[k]? =
        (dutyBuffer m ps)[if 24 * i + 8 ≤ k ∧ k < 24 * i + 16 then k + 8
          else if 24 * i + 16 ≤ k ∧ k < 24 * i + 24 then k - 8 else k]?

/-- R237: two ENCODEs of the same nine words emit the same payload, whatever the two states are. -/
def Obligations.EncodeDependsOnItsWordsAlone : Prop :=
  ∀ (s s' t t' : State) (rsv : BitVec 12) (m : Duty) (ps : List PixelWord), s.block.fsm.hostEnabled = true →
    s'.block.fsm.hostEnabled = true → exec (.encode rsv m ps) s = .next t → exec (.encode rsv m ps) s' = .next t' →
    ∃ emitted : List (List Duty),
      t.out.led.map (·.payload) = s.out.led.map (·.payload) ++ emitted ∧
        t'.out.led.map (·.payload) = s'.out.led.map (·.payload) ++ emitted

/-- R101, R104, R106: an operand word joins the stream as the next word, with its fields where the formats put them, and
nothing else changes. That this is the meaning of an operand word by itself is DEDUCED (log 11). -/
def Obligations.OperandWordsJoinTheStream : Prop :=
  (∀ (s : State) (note : NoteCode) (dur : Millis),
      exec (.entry note dur) s =
        .next { s with port := { s.port with stream := s.port.stream ++ [note ++ dur] } }) ∧
    (∀ (s : State) (rsv r g b : BitVec 8),
      exec (.pixel rsv r g b) s =
        .next { s with port := { s.port with stream := s.port.stream ++ [rsv ++ r ++ g ++ b] } })

/-! The micro-steps -/

/-- R184: FETCH loads the entry at IDX and takes the tone path or the rest path, or ends the pass. -/
def Obligations.FetchLoadsAnEntryOrEndsThePass : Prop :=
  ∀ s : State, s.block.fsm = .fetch →
    (∀ f d, s.block.idx.toNat < s.block.melLen.toNat → s.block.melLen.toNat ≤ 256 →
      MelStore.read s.block.mel s.block.idx.toNat = ⟨f, d⟩ →
      exec .ustepFetch s = .next
        { s with block :=
            { s.block with curFreq := f, curDur := d, fsm := if f ≠ 0#32 then .setfreq else .sleep } }) ∧
    (s.block.idx = s.block.melLen → s.block.loop = true →
      exec .ustepFetch s = .next { s with block := { s.block with idx := 0#9 } }) ∧
    (s.block.idx = s.block.melLen → s.block.loop = false →
      exec .ustepFetch s = .next { s with block := { s.block with idx := 0#9, stopReq := false, fsm := .idle } })

/-- R185, R186, R187, R188: the four micro-steps that start a tone, each with its record and the fields it writes. The
answer m of GETMAX is whatever ENV answers. -/
def Obligations.ToneMicroStepsEmitAndWrite : Prop :=
  (∀ s : State, s.block.fsm = .setfreq →
      exec .ustepSetfreq s = .next
        { s with
          block := { s.block with fsm := .getmax }
          out := { s.out with tone := s.out.tone ++ [⟨s.env.now, 0x01#8 ++ 0#24 ++ s.block.curFreq⟩] } }) ∧
    (∀ s : State, s.block.fsm = .getmax →
      exec .ustepGetmax s = .next
        { s with
          block := { s.block with maxd := s.drawMaxd, fsm := .setduty }
          out := { s.out with tone := s.out.tone ++ [⟨s.env.now, 0x02#8 ++ 0#24 ++ s.drawMaxd.setWidth 32⟩] }
          choices := s.afterDraw.choices }) ∧
    (∀ s : State, s.block.fsm = .setduty →
      ∃ d : Duty, d.toNat = s.block.maxd.toNat / 2 ∧
        exec .ustepSetduty s = .next
          { s with
            block := { s.block with fsm := .enable }
            out := { s.out with tone := s.out.tone ++ [⟨s.env.now, 0x03#8 ++ 0#24 ++ d.setWidth 32⟩] } }) ∧
    (∀ s : State, s.block.fsm = .enable →
      exec .ustepEnable s = .next
        { s with
          block := { s.block with outEn := true, fsm := .sleep }
          out := { s.out with tone := s.out.tone ++ [⟨s.env.now, 0x0400000000000000#64⟩] } })

/-- R189, R190: SLEEP records the deadline and suspends; WAIT holds until NOW >= DEADLINE and then wakes. That exec of WAIT
before its deadline is a next state equal to the one before is the model's choice (log 15), for R14 lists hold apart
from next state. -/
def Obligations.SleepAndWait : Prop :=
  (∀ s : State, s.block.fsm = .sleep →
      exec .ustepSleep s = .next
        { s with
          block := { s.block with deadline := s.env.now + s.block.curDur.toNat, fsm := .wait }
          out :=
            { s.out with tone := s.out.tone ++ [⟨s.env.now, 0x06#8 ++ 0#24 ++ s.block.curDur.setWidth 32⟩] } }) ∧
    (∀ s : State, s.block.fsm = .wait → s.env.now < s.block.deadline → exec .ustepWait s = .next s) ∧
    (∀ s : State, s.block.fsm = .wait → s.block.deadline ≤ s.env.now →
      exec .ustepWait s = .next
        { s with
          block := { s.block with fsm := if s.block.curFreq ≠ 0#32 then .disable else .next }
          out := { s.out with tone := s.out.tone ++ [⟨s.env.now, 0x0700000000000000#64⟩] } })

/-- R191, R192: DISABLE ends a tone; NEXT honours a stop or goes to the next entry. -/
def Obligations.DisableAndNext : Prop :=
  (∀ s : State, s.block.fsm = .disable →
      exec .ustepDisable s = .next
        { s with
          block := { s.block with outEn := false, fsm := .next }
          out := { s.out with tone := s.out.tone ++ [⟨s.env.now, 0x0500000000000000#64⟩] } }) ∧
    (∀ s : State, s.block.fsm = .next → s.block.stopReq = true →
      exec .ustepNext s = .next
        { s with block := { s.block with idx := 0#9, loop := false, stopReq := false, fsm := .idle } }) ∧
    (∀ s : State, s.block.fsm = .next → s.block.stopReq = false → s.block.idx.toNat < s.block.melLen.toNat →
      ∃ k : BitVec 9, k.toNat = s.block.idx.toNat + 1 ∧
        exec .ustepNext s = .next { s with block := { s.block with idx := k, fsm := .fetch } })

/-- R198: no micro-step writes MEL, MEL_LEN, MEL_SET, TRUNC or TRUNC_IDX. -/
def Obligations.MicroStepsNeverWriteTheMelody : Prop :=
  ∀ (s t : State) (i : Instr), i.isMicroStep = true → exec i s = .next t →
    t.block.mel = s.block.mel ∧ t.block.melLen = s.block.melLen ∧ t.block.melSet = s.block.melSet ∧
      t.block.trunc = s.block.trunc ∧ t.block.truncIdx = s.block.truncIdx

/-- R31, R75, R78, R180: the frame of the micro-steps. They leave CHAN, FAULT, every melody entry, the command
interface, the LED trace and ENV as they are, and emit at most one record. In a state that is not its own a micro-step
does nothing (log 16). -/
def Obligations.MicroStepFrame : Prop :=
  (∀ (s t : State) (i : Instr), i.isMicroStep = true → exec i s = .next t →
      t.block.chan = s.block.chan ∧ t.block.fault = s.block.fault ∧ t.port = s.port ∧ t.out.led = s.out.led ∧
        t.env = s.env ∧ (∃ rs : List ToneRecord, rs.length ≤ 1 ∧ t.out.tone = s.out.tone ++ rs) ∧
        ∀ k : Nat, MelStore.read t.block.mel k = MelStore.read s.block.mel k) ∧
    ∀ (s : State) (i : Instr), i.isMicroStep = true → decodeUstep s.block.fsm.code ≠ .ok i → exec i s = .next s

/-- R31: no instruction changes a field that is not its own to write: the writers of the table, instruction by
instruction. CHAN has none. PLAY and RUN write STOP_REQ by R181 and R182, which R31's row of it leaves out. -/
def Obligations.FieldsHaveOnlyTheirWriters : Prop :=
  ∀ (s t : State) (i : Instr), exec i s = .next t →
    t.block.chan = s.block.chan ∧
    (t.block.fsm ≠ s.block.fsm →
      (∃ r n es, i = .setmel r n es) ∨ (∃ r, i = .play r) ∨ (∃ r, i = .run r) ∨ i.isMicroStep = true) ∧
    (t.block.deadline ≠ s.block.deadline → i = .ustepSleep) ∧
    (t.block.maxd ≠ s.block.maxd → i = .ustepGetmax) ∧
    (t.block.curFreq ≠ s.block.curFreq ∨ t.block.curDur ≠ s.block.curDur → i = .ustepFetch) ∧
    (t.block.outEn ≠ s.block.outEn → i = .ustepEnable ∨ i = .ustepDisable) ∧
    (t.block.fault ≠ s.block.fault → (∃ r, i = .play r) ∨ ∃ r, i = .run r) ∧
    (t.block.mel ≠ s.block.mel ∨ t.block.melLen ≠ s.block.melLen ∨ t.block.melSet ≠ s.block.melSet ∨
        t.block.trunc ≠ s.block.trunc ∨ t.block.truncIdx ≠ s.block.truncIdx → ∃ r n es, i = .setmel r n es) ∧
    (t.block.idx ≠ s.block.idx ∨ t.block.loop ≠ s.block.loop →
      (∃ r, i = .play r) ∨ (∃ r, i = .run r) ∨ i = .ustepFetch ∨ i = .ustepNext) ∧
    (t.block.stopReq ≠ s.block.stopReq →
      (∃ r, i = .play r) ∨ (∃ r, i = .run r) ∨ (∃ r, i = .stop r) ∨ i = .ustepFetch ∨ i = .ustepNext)

/-- R194: a tone entry emits exactly SET_FREQ f, GET_MAX_DUTY m, SET_DUTY (m div 2), ENABLE, SLEEP d, and, at whatever
later time at or after the deadline it is woken, WAKE and DISABLE; a rest entry emits exactly SLEEP d and WAKE. -/
def Obligations.EntryEmitsItsRecords : Prop :=
  ∀ (s : State) (f : Hz) (d : Millis), s.block.fsm = .fetch → s.block.idx.toNat < s.block.melLen.toNat →
    s.block.melLen.toNat ≤ 256 → MelStore.read s.block.mel s.block.idx.toNat = ⟨f, d⟩ →
    (f ≠ 0#32 →
      ∃ t, seqRun 6 s = .next t ∧ t.block.fsm = .wait ∧ t.block.deadline = s.env.now + d.toNat ∧
        t.out.tone = s.out.tone ++
          [⟨s.env.now, recordWord .setFreq f⟩, ⟨s.env.now, recordWord .getMaxDuty (s.drawMaxd.setWidth 32)⟩,
            ⟨s.env.now, recordWord .setDuty (BitVec.ofNat 32 (s.drawMaxd.toNat / 2))⟩,
            ⟨s.env.now, recordWord .enable 0#32⟩, ⟨s.env.now, recordWord .sleep (d.setWidth 32)⟩] ∧
        ∀ now : Nat, t.block.deadline ≤ now →
          ∃ u, seqRun 2 { t with env := { t.env with now := now } } = .next u ∧ u.block.fsm = .next ∧
            u.block.idx = s.block.idx ∧
            u.out.tone = t.out.tone ++ [⟨now, recordWord .wake 0#32⟩, ⟨now, recordWord .disable 0#32⟩]) ∧
    (f = 0#32 →
      ∃ t, seqRun 2 s = .next t ∧ t.block.fsm = .wait ∧ t.block.deadline = s.env.now + d.toNat ∧
        t.out.tone = s.out.tone ++ [⟨s.env.now, recordWord .sleep (d.setWidth 32)⟩] ∧
        ∀ now : Nat, t.block.deadline ≤ now →
          ∃ u, seqRun 1 { t with env := { t.env with now := now } } = .next u ∧ u.block.fsm = .next ∧
            u.block.idx = s.block.idx ∧ u.out.tone = t.out.tone ++ [⟨now, recordWord .wake 0#32⟩])

/-- R193: from FETCH, or from WAIT once its deadline has passed, SEQ reaches WAIT or IDLE within at most 10 micro-steps,
counting the WAIT step. -/
def Obligations.SegmentBound : Prop :=
  ∀ s : State, s.block.Inv → (s.block.fsm = .fetch ∨ s.block.fsm = .wait ∧ s.block.deadline ≤ s.env.now) →
    ∃ (n : Nat) (t : State), 1 ≤ n ∧ n ≤ 10 ∧ seqRun n s = .next t ∧ (t.block.fsm = .wait ∨ t.block.fsm = .idle)

/-- R190, R307, R317: WAIT is left only by its wake-up, at or after DEADLINE and with a WAKE record, or by reset; until
then DEADLINE, CUR_FREQ and OUT_EN stay. -/
def Obligations.WaitEndsOnlyByWakeUpOrReset : Prop :=
  ∀ s t : State, s.block.fsm = .wait → step s = .next t →
    (t.block.fsm = .wait ∧ t.block.deadline = s.block.deadline ∧ t.block.curFreq = s.block.curFreq ∧
        t.block.outEn = s.block.outEn ∧ t.out.tone = s.out.tone) ∨
      (s.nextEvent = .seq ∧ s.block.deadline ≤ s.env.now ∧
        t.block.fsm = (if s.block.curFreq ≠ 0#32 then .disable else .next) ∧
        t.out.tone = s.out.tone ++ [⟨s.env.now, recordWord .wake 0#32⟩]) ∨
      s.nextEvent = .reset

/-! The records as ENV takes them -/

/-- R251 to R256, R258: what ENV does with each record; the block, its command interface and the traces are as before.
That ENV applies the records in order is the model's form of R257's assumption (log 14). -/
def Obligations.EnvAppliesEachRecord : Prop :=
  ∀ (s : State) (x : Word),
    exec (.actSetFreq x) s = .next { s with env := { s.env with chanFreq := x } } ∧
    exec (.actGetMaxDuty x) s = .next s ∧
    exec (.actSetDuty x) s = .next { s with env := { s.env with chanDuty := x.setWidth 16 } } ∧
    exec (.actEnable x) s = .next { s with env := { s.env with chanOn := true } } ∧
    exec (.actDisable x) s = .next { s with env := { s.env with chanOn := false } } ∧
    exec (.actSleep x) s = .next { s with env := { s.env with suspended := some x } } ∧
    exec (.actWake x) s = .next { s with env := { s.env with suspended := none } } ∧
    ∀ buf : List Duty,
      exec (.actDutyOut x buf) s = .next { s with env := { s.env with transmitted := s.env.transmitted ++ [buf] } }

/-- R49, R257: the block reads nothing of the channel or the transmitter: a step from a state that differs only there
gives the same block, command interface, traces, choices and time. And under R257's assumption, which is a premise here
(AppliedInTurn, log 14), the channel's output is on exactly from an ENABLE to the next DISABLE: at every time it is what
the records emitted so far leave it at, but for the last one while that one has not yet taken effect. That the LED trace
holds buffers alone is R120's, and TimeAndTracesOnlyGrow says that every step keeps it. That nothing but a record turns
the output, also after a reset in mid-tone, is the model's choice (log 25). -/
def Obligations.BlockReadsNothingOfTheChannel : Prop :=
  (∀ (s t : State) (f : Hz) (d : Duty) (on : Bool) (sus : Option Word) (tx : List (List Duty)), step s = .next t →
      ∃ t', step
          { s with env :=
              { s.env with chanFreq := f, chanDuty := d, chanOn := on, suspended := sus, transmitted := tx } } =
            .next t' ∧
        t'.block = t.block ∧ t'.port = t.port ∧ t'.out = t.out ∧ t'.choices = t.choices ∧ t'.env.now = t.env.now) ∧
    ∀ (σ : Nat → Event) (s : State), s.LedHoldsBuffers → s.ChannelUpToDate → AppliedInTurn σ s →
      ∀ n : Nat, ∃ since : List ToneRecord,
        (trajectory σ s n).out.tone = s.out.tone ++ since ∧
          ((trajectory σ s n).ChannelUpToDate ∧
              (trajectory σ s n).env.chanOn = outputAfter s.env.chanOn since ∨
            (trajectory σ s n).env.toneApplied + 1 = (trajectory σ s n).out.tone.length ∧
              (trajectory σ s n).env.chanOn = outputAfter s.env.chanOn since.dropLast)

/-! Invariants of every step -/

/-- R31, R48, R340: the invariants below hold right after the power-on reset. The block's invariant and its legal values
are R31's and R48's; the canonical form of the melody store is the model's own (log 8), and that the traces are empty at
power-on, on which the last two rest, is the model's choice (log 18). -/
def Obligations.ResetMeetsTheInvariants : Prop :=
  State.reset.block.Inv ∧ State.reset.block.Legal ∧ MelStore.wf State.reset.block.mel = true ∧
    State.reset.DeadlinePassed ∧ State.reset.WakesOnTime ∧ State.reset.EntriesInOrder []

/-- R48: every step keeps the invariant that every reachable state satisfies. -/
def Obligations.StepKeepsTheBlockInvariant : Prop :=
  ∀ s t : State, s.block.Inv → step s = .next t → t.block.Inv

/-- Every step keeps the model's canonical form of the melody store, which is a DESIGN CHOICE (log 8) and no rule of the
spec. R85, R160: a step changes the store only by a HOST step in UNSET or IDLE, or by a reset. -/
def Obligations.StepKeepsTheMelodyCanonical : Prop :=
  ∀ s t : State, MelStore.wf s.block.mel = true → step s = .next t →
    MelStore.wf t.block.mel = true ∧
      (t.block.mel ≠ s.block.mel → s.nextEvent = .host ∧ (s.block.fsm = .unset ∨ s.block.fsm = .idle) ∨
        s.nextEvent = .reset)

/-- R31, R41, R45: every step keeps CUR_FREQ and every valid melody entry a frequency the Note Table can give, CHAN the
CHANNEL parameter and in 1..4, and TRUNC_IDX in 0..255. The premise on the store is the model's canonical form (log 8),
which StepKeepsTheMelodyCanonical keeps. -/
def Obligations.StepKeepsLegalValues : Prop :=
  ∀ s t : State, MelStore.wf s.block.mel = true → s.block.Legal → step s = .next t → t.block.Legal

/-- R189, R190, R355: outside WAIT the last deadline has passed, every step keeps that, and so no step but a reset makes
DEADLINE smaller. -/
def Obligations.DeadlinesNeverShrink : Prop :=
  ∀ s t : State, s.DeadlinePassed → step s = .next t →
    t.DeadlinePassed ∧ (s.block.deadline ≤ t.block.deadline ∨ s.nextEvent = .reset)

/-- R189, R190, R195: every step keeps that the times of the tone trace never decrease and that no WAKE comes before the
last SLEEP's time and duration: durations are lower bounds. With R194's order of the records, these give
t_D >= t_W >= t_S + d >= t_E + d. -/
def Obligations.WakesAreNeverEarly : Prop :=
  ∀ s t : State, s.WakesOnTime → step s = .next t → t.WakesOnTime

/-- R194, R196: every step keeps that the records after `before` are whole entries' records in order, one entry after
another and none overlapping, and the records so far of the entry being played. Only a reset, which may cut an entry
short (R342), starts anew: then everything emitted so far stands before. -/
def Obligations.EntriesStayInOrder : Prop :=
  ∀ (s t : State) (before : List ToneRecord), s.block.Inv → s.EntriesInOrder before → step s = .next t →
    (s.nextEvent = .reset ∧ t.EntriesInOrder s.out.tone) ∨ (s.nextEvent ≠ .reset ∧ t.EntriesInOrder before)

/-- R50, R120, R342: no step makes NOW smaller, and none takes back a record or a response; what joins the LED trace is
DUTY_OUT records of operand 192 alone. -/
def Obligations.TimeAndTracesOnlyGrow : Prop :=
  ∀ s t : State, step s = .next t →
    s.env.now ≤ t.env.now ∧ (∃ xs, t.out.tone = s.out.tone ++ xs) ∧
      (∃ xs, t.out.led = s.out.led ++ xs ∧ ∀ r ∈ xs, r.word = 0x08000000000000C0#64) ∧
      ∃ xs, t.port.responses = s.port.responses ++ xs

/-- R14: from a state that meets the invariant of R48, every step has a next state: no run stops. A hold counts as a next
state here (log 15), and the one stop of the model, FETCH at an entry that does not exist (log 19), is the one that the
invariant rules out. -/
def Obligations.NoRunStops : Prop :=
  ∀ s : State, s.block.Inv → ∃ t, step s = .next t

/-- R310: in a fair execution a WAIT is left. Fairness is a premise, for the choices are free (log 17). -/
def Obligations.FairExecutionLeavesWait : Prop :=
  ∀ (σ : Nat → Event) (s : State), Fair σ s → s.block.fsm = .wait → ∃ n, (trajectory σ s n).block.fsm ≠ .wait

/-! The assembler -/

/-- R108, R115, R116, R117: the token of each code 0x00 to 0x19 has that code, and every other token has 0xFF. Each line
form gives the words R115 lists for it, `rest D` is `_:D`, and rdstatus, rdlen and playloop are rdreg 0, rdreg 1 and run;
a setmel and an encode are refused exactly where R115 says so. A text of each form assembles to its words. And the words
of a line that the assembler accepts, but for a raw word, decode to one complete command that they are the encoding of. -/
def Obligations.TokensAndAssembledLines : Prop :=
  (∀ t : List Char,
      tokenCode t =
        if t = "_".toList then 0x00#8 else if t = "C4".toList then 0x01#8 else if t = "C#4".toList then 0x02#8 else
        if t = "D4".toList then 0x03#8 else if t = "D#4".toList then 0x04#8 else if t = "E4".toList then 0x05#8 else
        if t = "F4".toList then 0x06#8 else if t = "F#4".toList then 0x07#8 else if t = "G4".toList then 0x08#8 else
        if t = "G#4".toList then 0x09#8 else if t = "A4".toList then 0x0A#8 else if t = "A#4".toList then 0x0B#8 else
        if t = "B4".toList then 0x0C#8 else if t = "C5".toList then 0x0D#8 else if t = "C#5".toList then 0x0E#8 else
        if t = "D5".toList then 0x0F#8 else if t = "D#5".toList then 0x10#8 else if t = "E5".toList then 0x11#8 else
        if t = "F5".toList then 0x12#8 else if t = "F#5".toList then 0x13#8 else if t = "G5".toList then 0x14#8 else
        if t = "G#5".toList then 0x15#8 else if t = "A5".toList then 0x16#8 else if t = "A#5".toList then 0x17#8 else
        if t = "B5".toList then 0x18#8 else if t = "C6".toList then 0x19#8 else 0xFF#8) ∧
    (∀ pairs : List AsmPair,
      (pairs.length ≤ 65535 → (∀ p ∈ pairs, p.parts.2 < 2 ^ 24) →
        assembleLine (.setmel pairs) =
          .ok (BitVec.ofNat 32 (0x10000000 + pairs.length) ::
            pairs.map fun p =>
              match p with
              | .note t d => tokenCode t ++ BitVec.ofNat 24 d
              | .rest d => 0x00#8 ++ BitVec.ofNat 24 d)) ∧
      (65535 < pairs.length ∨ (∃ p ∈ pairs, 2 ^ 24 ≤ p.parts.2) → ∃ e, assembleLine (.setmel pairs) = .error e)) ∧
    (∀ (m : Nat) (ts : List (Nat × Nat × Nat)),
      (m ≤ 65535 → ts.length = 8 → (∀ p ∈ ts, p.1 ≤ 255 ∧ p.2.1 ≤ 255 ∧ p.2.2 ≤ 255) →
        assembleLine (.encode m ts) =
          .ok (BitVec.ofNat 32 (0x50000000 + m) ::
            ts.map fun p => BitVec.ofNat 32 (p.1 * 65536 + p.2.1 * 256 + p.2.2))) ∧
      (65535 < m ∨ ts.length ≠ 8 ∨ (∃ p ∈ ts, 255 < p.1 ∨ 255 < p.2.1 ∨ 255 < p.2.2) →
        ∃ e, assembleLine (.encode m ts) = .error e)) ∧
    (assembleLine .play = .ok [0x20000000#32] ∧ assembleLine .run = .ok [0x30000000#32] ∧
      assembleLine .playloop = .ok [0x30000000#32] ∧ assembleLine .stop = .ok [0x40000000#32] ∧
      assembleLine .rdstatus = .ok [0x70000000#32] ∧ assembleLine .rdlen = .ok [0x70000001#32] ∧
      (∀ t : List Char, assembleLine (.resolve t) = .ok [0x600000#24 ++ tokenCode t]) ∧
      (∀ r : Nat, r ≤ 15 → assembleLine (.rdreg r) = .ok [BitVec.ofNat 32 (0x70000000 + r)]) ∧
      (∀ k : Nat, k ≤ 255 → assembleLine (.rdmel k) = .ok [BitVec.ofNat 32 (0x80000000 + k)]) ∧
      ∀ w : Nat, w < 2 ^ 32 → assembleLine (.word w) = .ok [BitVec.ofNat 32 w]) ∧
    (assemble "setmel A4:100, B#4:0x10, rest 50 ; three\nsetmel\nplay\nrun\nstop" =
        .ok [0x10000003#32, 0x0A000064#32, 0xFF000010#32, 0x00000032#32, 0x10000000#32, 0x20000000#32, 0x30000000#32,
          0x40000000#32] ∧
      assemble "encode 100, (0,255,0), (255,0,0), (0,0,255), (18,52,86), (0,0,0), (0,0,0), (0,0,0), (0,0,1)" =
        .ok [0x50000064#32, 0x0000FF00#32, 0x00FF0000#32, 0x000000FF#32, 0x00123456#32, 0#32, 0#32, 0#32, 1#32] ∧
      assemble "resolve C6\nrdreg 15\nrdreg DEADLINE_HI\nrdmel 255\n.word 0x20000001\nrdstatus\nrdlen\nplayloop" =
        .ok [0x60000019#32, 0x7000000F#32, 0x70000009#32, 0x800000FF#32, 0x20000001#32, 0x70000000#32, 0x70000001#32,
          0x30000000#32]) ∧
    ∀ (l : AsmLine) (ws : List Word), assembleLine l = .ok ws → (∀ w, l ≠ .word w) →
      ∃ i : Instr, decode (.stream ws) = .ok i ∧ i.isCommand = true ∧ i.complete = true ∧ encode i = .stream ws
end

