-- ==== Sys2Proof/Laws/Words.lean ====
section
/-! SUPPORT. The fields of the words the model packs: each field reads back from the word it was put into, and a word is
its fields put together. -/

namespace Sys2Proof

/-- A field that lies wholly below the high part of an append is a field of the low part. -/
theorem field_of_low {n m : Nat} (a : BitVec n) (b : BitVec m) {lo len : Nat} (h : lo + len ≤ m) :
    (a ++ b).extractLsb' lo len = b.extractLsb' lo len :=
  BitVec.extractLsb'_append_eq_of_add_le h

/-- A field that lies wholly above the low part of an append is a field of the high part. -/
theorem field_of_high {n m : Nat} (a : BitVec n) (b : BitVec m) {lo len : Nat} (h : m ≤ lo) :
    (a ++ b).extractLsb' lo len = a.extractLsb' (lo - m) len :=
  BitVec.extractLsb'_append_eq_of_le h

/-- The whole of a value as a field. -/
theorem field_whole {n : Nat} (a : BitVec n) : a.extractLsb' 0 n = a := BitVec.extractLsb'_eq_self

/-- Two neighbouring fields put together are one field. -/
theorem field_join {w : Nat} (x : BitVec w) {hi lo n m : Nat} (h : hi = lo + m) :
    x.extractLsb' hi n ++ x.extractLsb' lo m = x.extractLsb' lo (n + m) :=
  BitVec.extractLsb'_append_extractLsb'_eq_extractLsb' h

/-! Headers -/

section headers
variable (op : BitVec 4)

@[simp] theorem opOf_header28 (x : BitVec 28) : opOf (header28 op x) = op := by
  rw [opOf, header28, field_of_high _ _ (by decide), field_whole]

@[simp] theorem bits28_header28 (x : BitVec 28) : bits28 (header28 op x) = x := by
  rw [bits28, header28, field_of_low _ _ (by decide), field_whole]

@[simp] theorem opOf_header16 (r : BitVec 12) (x : BitVec 16) : opOf (header16 op r x) = op := by
  rw [opOf, header16, field_of_high _ _ (by decide), field_of_high _ _ (by decide), field_whole]

@[simp] theorem rsv12_header16 (r : BitVec 12) (x : BitVec 16) : rsv12 (header16 op r x) = r := by
  rw [rsv12, header16, field_of_high _ _ (by decide), field_of_low _ _ (by decide), field_whole]

@[simp] theorem low16_header16 (r : BitVec 12) (x : BitVec 16) : low16 (header16 op r x) = x := by
  rw [low16, header16, field_of_low _ _ (by decide), field_whole]

@[simp] theorem opOf_header8 (r : BitVec 20) (x : BitVec 8) : opOf (header8 op r x) = op := by
  rw [opOf, header8, field_of_high _ _ (by decide), field_of_high _ _ (by decide), field_whole]

@[simp] theorem rsv20_header8 (r : BitVec 20) (x : BitVec 8) : rsv20 (header8 op r x) = r := by
  rw [rsv20, header8, field_of_high _ _ (by decide), field_of_low _ _ (by decide), field_whole]

@[simp] theorem low8_header8 (r : BitVec 20) (x : BitVec 8) : low8 (header8 op r x) = x := by
  rw [low8, header8, field_of_low _ _ (by decide), field_whole]

@[simp] theorem opOf_header4 (r : BitVec 24) (x : BitVec 4) : opOf (header4 op r x) = op := by
  rw [opOf, header4, field_of_high _ _ (by decide), field_of_high _ _ (by decide), field_whole]

@[simp] theorem rsv24_header4 (r : BitVec 24) (x : BitVec 4) : rsv24 (header4 op r x) = r := by
  rw [rsv24, header4, field_of_high _ _ (by decide), field_of_low _ _ (by decide), field_whole]

@[simp] theorem low4_header4 (r : BitVec 24) (x : BitVec 4) : low4 (header4 op r x) = x := by
  rw [low4, header4, field_of_low _ _ (by decide), field_whole]

end headers

section words
variable (h : Word)

/-- A header is its OP and its bits 27:0. -/
theorem header28_fields : header28 (opOf h) (bits28 h) = h := by
  rw [header28, opOf, bits28, field_join h (by decide), field_whole]

theorem header16_fields : header16 (opOf h) (rsv12 h) (low16 h) = h := by
  rw [header16, opOf, rsv12, low16, field_join h (by decide), field_join h (by decide), field_whole]

theorem header8_fields : header8 (opOf h) (rsv20 h) (low8 h) = h := by
  rw [header8, opOf, rsv20, low8, field_join h (by decide), field_join h (by decide), field_whole]

theorem header4_fields : header4 (opOf h) (rsv24 h) (low4 h) = h := by
  rw [header4, opOf, rsv24, low4, field_join h (by decide), field_join h (by decide), field_whole]

end words

/-! Operand words -/

@[simp] theorem decodeEntryWord_encodeEntryWord (e : EntryWord) : decodeEntryWord (encodeEntryWord e) = e := by
  cases e
  simp only [decodeEntryWord, encodeEntryWord, EntryWord.mk.injEq]
  exact ⟨by rw [field_of_high _ _ (by decide), field_whole], by rw [field_of_low _ _ (by decide), field_whole]⟩

@[simp] theorem encodeEntryWord_decodeEntryWord (w : Word) : encodeEntryWord (decodeEntryWord w) = w := by
  rw [encodeEntryWord, decodeEntryWord, field_join w (by decide), field_whole]

@[simp] theorem decodePixelWord_encodePixelWord (p : PixelWord) : decodePixelWord (encodePixelWord p) = p := by
  cases p
  simp only [decodePixelWord, encodePixelWord, PixelWord.mk.injEq]
  refine ⟨?_, ?_, ?_, ?_⟩
  · rw [field_of_high _ _ (by decide), field_of_high _ _ (by decide), field_of_high _ _ (by decide), field_whole]
  · rw [field_of_high _ _ (by decide), field_of_high _ _ (by decide), field_of_low _ _ (by decide), field_whole]
  · rw [field_of_high _ _ (by decide), field_of_low _ _ (by decide), field_whole]
  · rw [field_of_low _ _ (by decide), field_whole]

@[simp] theorem encodePixelWord_decodePixelWord (w : Word) : encodePixelWord (decodePixelWord w) = w := by
  rw [encodePixelWord, decodePixelWord, field_join w (by decide), field_join w (by decide), field_join w (by decide),
    field_whole]

@[simp] theorem map_decode_encode_entries (es : List EntryWord) :
    (es.map encodeEntryWord).map decodeEntryWord = es := by
  induction es with
  | nil => rfl
  | cons e es ih => simp only [List.map_cons, decodeEntryWord_encodeEntryWord, ih]

@[simp] theorem map_encode_decode_entries (ws : List Word) :
    (ws.map decodeEntryWord).map encodeEntryWord = ws := by
  induction ws with
  | nil => rfl
  | cons w ws ih => simp only [List.map_cons, encodeEntryWord_decodeEntryWord, ih]

@[simp] theorem map_decode_encode_pixels (ps : List PixelWord) :
    (ps.map encodePixelWord).map decodePixelWord = ps := by
  induction ps with
  | nil => rfl
  | cons p ps ih => simp only [List.map_cons, decodePixelWord_encodePixelWord, ih]

@[simp] theorem map_encode_decode_pixels (ws : List Word) :
    (ws.map decodePixelWord).map encodePixelWord = ws := by
  induction ws with
  | nil => rfl
  | cons w ws ih => simp only [List.map_cons, encodePixelWord_decodePixelWord, ih]

/-! Record words -/

section records
variable (a : Act) (x : Word)

@[simp] theorem recordWord_act : (recordWord a x).extractLsb' 56 8 = a.code := by
  rw [recordWord, field_of_high _ _ (by decide), field_of_high _ _ (by decide), field_whole]

@[simp] theorem recordWord_zero : (recordWord a x).extractLsb' 32 24 = 0#24 := by
  rw [recordWord, field_of_high _ _ (by decide), field_of_low _ _ (by decide), field_whole]

@[simp] theorem recordWord_operand : (recordWord a x).extractLsb' 0 32 = x := by
  rw [recordWord, field_of_low _ _ (by decide), field_whole]

end records

namespace Machine

/-! The response word (R118) -/

section rsp
variable (op : BitVec 4) (found : Bool) (st : Status)

@[simp] theorem rspWord_op : (rspWord op found st).extractLsb' 28 4 = op := by
  rw [rspWord]
  repeat rw [field_of_high _ _ (by decide)]
  rw [field_whole]

@[simp] theorem rspWord_status : (rspWord op found st).extractLsb' 0 4 = st.code := by
  rw [rspWord, field_of_low _ _ (by decide), field_whole]

@[simp] theorem rspWord_found : (rspWord op found st).extractLsb' 8 1 = bit found := by
  rw [rspWord, field_of_high _ _ (by decide), field_of_high _ _ (by decide), field_of_low _ _ (by decide), field_whole]

end rsp

/-! State codes -/

/-- Every state's code names it. -/
@[simp] theorem Fsm.ofCode_code (f : Fsm) : Fsm.ofCode f.code = some f := by cases f <;> rfl

/-- No two states share a code. -/
theorem Fsm.code_injective (f g : Fsm) (h : f.code = g.code) : f = g := by
  have := congrArg Fsm.ofCode h
  simpa using this

end Machine

end Sys2Proof
end

