-- ==== Sys2Proof/Laws/Decode.lean ====
section
/-! SUPPORT. What the command decoder gives, header by header, and what it leaves of the stream. -/

namespace Sys2Proof

/-- The sixteen values of OP. -/
theorem opOf_cases (h : Word) :
    opOf h = 0x0#4 ∨ opOf h = 0x1#4 ∨ opOf h = 0x2#4 ∨ opOf h = 0x3#4 ∨ opOf h = 0x4#4 ∨ opOf h = 0x5#4 ∨
      opOf h = 0x6#4 ∨ opOf h = 0x7#4 ∨ opOf h = 0x8#4 ∨ opOf h = 0x9#4 ∨ opOf h = 0xA#4 ∨ opOf h = 0xB#4 ∨
      opOf h = 0xC#4 ∨ opOf h = 0xD#4 ∨ opOf h = 0xE#4 ∨ opOf h = 0xF#4 := by
  generalize opOf h = x
  revert x
  decide

/-! The row that a value of OP selects (R110) -/

section rows
variable {h : Word} (ws : List Word)

theorem commandOf_0 (ho : opOf h = 0x0#4) : commandOf h ws = .illegalOp0 (bits28 h) := by rw [commandOf, ho]; rfl
theorem commandOf_1 (ho : opOf h = 0x1#4) : commandOf h ws = .setmel (rsv12 h) (low16 h) (ws.map decodeEntryWord) := by
  rw [commandOf, ho]; rfl
theorem commandOf_2 (ho : opOf h = 0x2#4) : commandOf h ws = .play (bits28 h) := by rw [commandOf, ho]; rfl
theorem commandOf_3 (ho : opOf h = 0x3#4) : commandOf h ws = .run (bits28 h) := by rw [commandOf, ho]; rfl
theorem commandOf_4 (ho : opOf h = 0x4#4) : commandOf h ws = .stop (bits28 h) := by rw [commandOf, ho]; rfl
theorem commandOf_5 (ho : opOf h = 0x5#4) : commandOf h ws = .encode (rsv12 h) (low16 h) (ws.map decodePixelWord) := by
  rw [commandOf, ho]; rfl
theorem commandOf_6 (ho : opOf h = 0x6#4) : commandOf h ws = .resolve (rsv20 h) (low8 h) := by rw [commandOf, ho]; rfl
theorem commandOf_7 (ho : opOf h = 0x7#4) : commandOf h ws = .rdreg (rsv24 h) (low4 h) := by rw [commandOf, ho]; rfl
theorem commandOf_8 (ho : opOf h = 0x8#4) : commandOf h ws = .rdmel (rsv20 h) (low8 h) := by rw [commandOf, ho]; rfl
theorem commandOf_9 (ho : opOf h = 0x9#4) : commandOf h ws = .illegalOp9 (bits28 h) := by rw [commandOf, ho]; rfl
theorem commandOf_A (ho : opOf h = 0xA#4) : commandOf h ws = .illegalOpA (bits28 h) := by rw [commandOf, ho]; rfl
theorem commandOf_B (ho : opOf h = 0xB#4) : commandOf h ws = .illegalOpB (bits28 h) := by rw [commandOf, ho]; rfl
theorem commandOf_C (ho : opOf h = 0xC#4) : commandOf h ws = .illegalOpC (bits28 h) := by rw [commandOf, ho]; rfl
theorem commandOf_D (ho : opOf h = 0xD#4) : commandOf h ws = .illegalOpD (bits28 h) := by rw [commandOf, ho]; rfl
theorem commandOf_E (ho : opOf h = 0xE#4) : commandOf h ws = .illegalOpE (bits28 h) := by rw [commandOf, ho]; rfl
theorem commandOf_F (ho : opOf h = 0xF#4) : commandOf h ws = .illegalOpF (bits28 h) := by rw [commandOf, ho]; rfl

theorem operandCount_setmel (ho : opOf h = 0x1#4) : operandCount h = (low16 h).toNat := by rw [operandCount, if_pos ho]

theorem operandCount_encode (ho : opOf h = 0x5#4) : operandCount h = 8 := by
  rw [operandCount, if_neg (by rw [ho]; decide), if_pos ho]

theorem operandCount_other (h1 : opOf h ≠ 0x1#4) (h5 : opOf h ≠ 0x5#4) : operandCount h = 0 := by
  rw [operandCount, if_neg h1, if_neg h5]

end rows

/-! What the decoder takes of a stream -/

section streams
variable {h : Word} {ws : List Word}

/-- Where the operand words are all there, the command takes exactly those (R101). -/
theorem decodeCommand_whole {ended : Bool} (hl : operandCount h ≤ ws.length) :
    decodeCommand ended (h :: ws) = .ok (commandOf h (ws.take (operandCount h)), ws.drop (operandCount h)) := by
  simp [decodeCommand, hl]

/-- Where they are not and the stream has ended, the command takes what is there (R113). -/
theorem decodeCommand_ended (hl : ws.length ≤ operandCount h) :
    decodeCommand true (h :: ws) = .ok (commandOf h ws, []) := by
  simp [decodeCommand, List.take_of_length_le hl, List.drop_eq_nil_of_le hl]

/-- Where they are not and the stream goes on, there is no command yet. -/
theorem decodeCommand_incomplete (hl : ws.length < operandCount h) :
    decodeCommand false (h :: ws) = .error .incomplete := by
  simp [decodeCommand, Nat.not_le.mpr hl]

/-- A whole finite stream of at most one command. -/
theorem decode_stream (hl : ws.length ≤ operandCount h) : decode (.stream (h :: ws)) = .ok (commandOf h ws) := by
  rw [decode, decodeCommand_ended hl]

end streams

/-! Where a word stands in a stream (R101) -/

/-- After the words that are owed, the next word is a header. -/
theorem positionAfter_owed (p : Position) (ws : List Word) :
    positionAfter ws.length p ws = .header := by
  induction ws with
  | nil => rfl
  | cons w ws ih =>
    rw [positionAfter, if_neg (by simp)]
    simpa using ih

/-- The words after those that are owed stand as in a stream of their own. -/
theorem positionAfter_append (p : Position) (ws vs : List Word) (hv : vs ≠ []) :
    positionAfter ws.length p (ws ++ vs) = positionAfter 0 .header vs := by
  induction ws with
  | nil =>
    cases vs with
    | nil => exact absurd rfl hv
    | cons v vs => simp [positionAfter]
  | cons w ws ih =>
    rw [List.cons_append, positionAfter, if_neg (by simp)]
    simpa using ih

/-- A whole command at the front of a stream changes no later word's position. -/
theorem nextPosition_command {h : Word} {ws vs : List Word} (hl : ws.length = operandCount h) :
    nextPosition (h :: (ws ++ vs)) = nextPosition vs := by
  rw [nextPosition, positionAfter, if_pos rfl, ← hl]
  cases vs with
  | nil => rw [List.append_nil, positionAfter_owed]; rfl
  | cons v vs => rw [positionAfter_append _ _ _ (by simp)]; rfl

end Sys2Proof
end

