-- ==== Sys2Proof/Laws/State.lean ====
section
/-! SUPPORT. What each update of the state changes and what it leaves: one lemma per part of State, so that no proof
unfolds a record update. -/

namespace Sys2Proof.Machine

variable (s : State)

@[simp] theorem State.respond_block (op : BitVec 4) (found : Bool) (st : Status) (p : List Word) :
    (s.respond op found st p).block = s.block := rfl
@[simp] theorem State.respond_port (op : BitVec 4) (found : Bool) (st : Status) (p : List Word) :
    (s.respond op found st p).port = { s.port with responses := s.port.responses ++ [⟨rspWord op found st, p⟩] } := rfl
@[simp] theorem State.respond_out (op : BitVec 4) (found : Bool) (st : Status) (p : List Word) :
    (s.respond op found st p).out = s.out := rfl
@[simp] theorem State.respond_env (op : BitVec 4) (found : Bool) (st : Status) (p : List Word) :
    (s.respond op found st p).env = s.env := rfl
@[simp] theorem State.respond_choices (op : BitVec 4) (found : Bool) (st : Status) (p : List Word) :
    (s.respond op found st p).choices = s.choices := rfl

@[simp] theorem State.answer_block (op : BitVec 4) (st : Status) :
    (s.answer op st).block = s.block := rfl
@[simp] theorem State.answer_port (op : BitVec 4) (st : Status) :
    (s.answer op st).port = { s.port with responses := s.port.responses ++ [⟨rspWord op false st, []⟩] } := rfl
@[simp] theorem State.answer_out (op : BitVec 4) (st : Status) :
    (s.answer op st).out = s.out := rfl
@[simp] theorem State.answer_env (op : BitVec 4) (st : Status) :
    (s.answer op st).env = s.env := rfl
@[simp] theorem State.answer_choices (op : BitVec 4) (st : Status) :
    (s.answer op st).choices = s.choices := rfl

@[simp] theorem State.emit_block (a : Act) (w : Word) :
    (s.emit a w).block = s.block := rfl
@[simp] theorem State.emit_port (a : Act) (w : Word) :
    (s.emit a w).port = s.port := rfl
@[simp] theorem State.emit_out (a : Act) (w : Word) :
    (s.emit a w).out = { s.out with tone := s.out.tone ++ [⟨s.env.now, recordWord a w⟩] } := rfl
@[simp] theorem State.emit_env (a : Act) (w : Word) :
    (s.emit a w).env = s.env := rfl
@[simp] theorem State.emit_choices (a : Act) (w : Word) :
    (s.emit a w).choices = s.choices := rfl

@[simp] theorem State.emitLed_block (buf : List Duty) :
    (s.emitLed buf).block = s.block := rfl
@[simp] theorem State.emitLed_port (buf : List Duty) :
    (s.emitLed buf).port = s.port := rfl
@[simp] theorem State.emitLed_out (buf : List Duty) :
    (s.emitLed buf).out = { s.out with led := s.out.led ++ [⟨s.env.now, recordWord .dutyOut 192#32, buf⟩] } := rfl
@[simp] theorem State.emitLed_env (buf : List Duty) :
    (s.emitLed buf).env = s.env := rfl
@[simp] theorem State.emitLed_choices (buf : List Duty) :
    (s.emitLed buf).choices = s.choices := rfl

@[simp] theorem State.goto_block (f : Fsm) :
    (s.goto f).block = { s.block with fsm := f } := rfl
@[simp] theorem State.goto_port (f : Fsm) :
    (s.goto f).port = s.port := rfl
@[simp] theorem State.goto_out (f : Fsm) :
    (s.goto f).out = s.out := rfl
@[simp] theorem State.goto_env (f : Fsm) :
    (s.goto f).env = s.env := rfl
@[simp] theorem State.goto_choices (f : Fsm) :
    (s.goto f).choices = s.choices := rfl

@[simp] theorem State.raiseFault_block (c : FaultCode) :
    (s.raiseFault c).block = { s.block with fault := c, fsm := .fault } := rfl
@[simp] theorem State.raiseFault_port (c : FaultCode) :
    (s.raiseFault c).port = s.port := rfl
@[simp] theorem State.raiseFault_out (c : FaultCode) :
    (s.raiseFault c).out = s.out := rfl
@[simp] theorem State.raiseFault_env (c : FaultCode) :
    (s.raiseFault c).env = s.env := rfl
@[simp] theorem State.raiseFault_choices (c : FaultCode) :
    (s.raiseFault c).choices = s.choices := rfl

@[simp] theorem State.applyReset_block :
    s.applyReset.block = Block.reset := rfl
@[simp] theorem State.applyReset_port :
    s.applyReset.port = { s.port with stream := [], ended := false } := rfl
@[simp] theorem State.applyReset_out :
    s.applyReset.out = s.out := rfl
@[simp] theorem State.applyReset_env :
    s.applyReset.env = s.env := rfl
@[simp] theorem State.applyReset_choices :
    s.applyReset.choices = s.choices := rfl

@[simp] theorem State.sendWord_block (w : Word) :
    (s.sendWord w).block = s.block := rfl
@[simp] theorem State.sendWord_port (w : Word) :
    (s.sendWord w).port = { s.port with stream := s.port.stream ++ [w] } := rfl
@[simp] theorem State.sendWord_out (w : Word) :
    (s.sendWord w).out = s.out := rfl
@[simp] theorem State.sendWord_env (w : Word) :
    (s.sendWord w).env = s.env := rfl
@[simp] theorem State.sendWord_choices (w : Word) :
    (s.sendWord w).choices = s.choices := rfl

@[simp] theorem State.startPass_block (l : Bool) :
    (s.startPass l).block = { s.block with idx := 0#9, loop := l, stopReq := false, fsm := .fetch } := rfl
@[simp] theorem State.startPass_port (l : Bool) :
    (s.startPass l).port = s.port := rfl
@[simp] theorem State.startPass_out (l : Bool) :
    (s.startPass l).out = s.out := rfl
@[simp] theorem State.startPass_env (l : Bool) :
    (s.startPass l).env = s.env := rfl
@[simp] theorem State.startPass_choices (l : Bool) :
    (s.startPass l).choices = s.choices := rfl

@[simp] theorem State.endPass_block :
    s.endPass.block = { s.block with idx := 0#9, loop := false, stopReq := false, fsm := .idle } := rfl
@[simp] theorem State.endPass_port :
    s.endPass.port = s.port := rfl
@[simp] theorem State.endPass_out :
    s.endPass.out = s.out := rfl
@[simp] theorem State.endPass_env :
    s.endPass.env = s.env := rfl
@[simp] theorem State.endPass_choices :
    s.endPass.choices = s.choices := rfl

@[simp] theorem State.loadEntry_block (e : NoteEntry) :
    (s.loadEntry e).block = { s.block with curFreq := e.freq, curDur := e.dur, fsm := if e.freq ≠ 0#32 then .setfreq else .sleep } := rfl
@[simp] theorem State.loadEntry_port (e : NoteEntry) :
    (s.loadEntry e).port = s.port := rfl
@[simp] theorem State.loadEntry_out (e : NoteEntry) :
    (s.loadEntry e).out = s.out := rfl
@[simp] theorem State.loadEntry_env (e : NoteEntry) :
    (s.loadEntry e).env = s.env := rfl
@[simp] theorem State.loadEntry_choices (e : NoteEntry) :
    (s.loadEntry e).choices = s.choices := rfl

@[simp] theorem State.passEnd_block :
    s.passEnd.block = if s.block.loop then { s.block with idx := 0#9 } else { s.block with idx := 0#9, stopReq := false, fsm := .idle } := by
  unfold State.passEnd
  split <;> rfl
@[simp] theorem State.passEnd_port :
    s.passEnd.port = s.port := by
  unfold State.passEnd
  split <;> rfl
@[simp] theorem State.passEnd_out :
    s.passEnd.out = s.out := by
  unfold State.passEnd
  split <;> rfl
@[simp] theorem State.passEnd_env :
    s.passEnd.env = s.env := by
  unfold State.passEnd
  split <;> rfl
@[simp] theorem State.passEnd_choices :
    s.passEnd.choices = s.choices := by
  unfold State.passEnd
  split <;> rfl

@[simp] theorem State.latchMaxd_block (m : Duty) :
    (s.latchMaxd m).block = { s.block with maxd := m } := rfl
@[simp] theorem State.latchMaxd_port (m : Duty) :
    (s.latchMaxd m).port = s.port := rfl
@[simp] theorem State.latchMaxd_out (m : Duty) :
    (s.latchMaxd m).out = s.out := rfl
@[simp] theorem State.latchMaxd_env (m : Duty) :
    (s.latchMaxd m).env = s.env := rfl
@[simp] theorem State.latchMaxd_choices (m : Duty) :
    (s.latchMaxd m).choices = s.choices := rfl

@[simp] theorem State.setOutEn_block (b : Bool) :
    (s.setOutEn b).block = { s.block with outEn := b } := rfl
@[simp] theorem State.setOutEn_port (b : Bool) :
    (s.setOutEn b).port = s.port := rfl
@[simp] theorem State.setOutEn_out (b : Bool) :
    (s.setOutEn b).out = s.out := rfl
@[simp] theorem State.setOutEn_env (b : Bool) :
    (s.setOutEn b).env = s.env := rfl
@[simp] theorem State.setOutEn_choices (b : Bool) :
    (s.setOutEn b).choices = s.choices := rfl

@[simp] theorem State.setDeadline_block :
    s.setDeadline.block = { s.block with deadline := s.env.now + s.block.curDur.toNat } := rfl
@[simp] theorem State.setDeadline_port :
    s.setDeadline.port = s.port := rfl
@[simp] theorem State.setDeadline_out :
    s.setDeadline.out = s.out := rfl
@[simp] theorem State.setDeadline_env :
    s.setDeadline.env = s.env := rfl
@[simp] theorem State.setDeadline_choices :
    s.setDeadline.choices = s.choices := rfl

@[simp] theorem State.advance_block :
    s.advance.block = { s.block with idx := s.block.idx + 1#9, fsm := .fetch } := rfl
@[simp] theorem State.advance_port :
    s.advance.port = s.port := rfl
@[simp] theorem State.advance_out :
    s.advance.out = s.out := rfl
@[simp] theorem State.advance_env :
    s.advance.env = s.env := rfl
@[simp] theorem State.advance_choices :
    s.advance.choices = s.choices := rfl

@[simp] theorem State.withEvent_block (e : Event) :
    (s.withEvent e).block = s.block := rfl
@[simp] theorem State.withEvent_port (e : Event) :
    (s.withEvent e).port = s.port := rfl
@[simp] theorem State.withEvent_out (e : Event) :
    (s.withEvent e).out = s.out := rfl
@[simp] theorem State.withEvent_env (e : Event) :
    (s.withEvent e).env = s.env := rfl
@[simp] theorem State.withEvent_choices (e : Event) :
    (s.withEvent e).choices = { s.choices with events := e :: s.choices.events } := rfl

@[simp] theorem State.afterEvent_block : s.afterEvent.block = s.block := by
  unfold State.afterEvent
  split <;> rfl
@[simp] theorem State.afterEvent_port : s.afterEvent.port = s.port := by
  unfold State.afterEvent
  split <;> rfl
@[simp] theorem State.afterEvent_out : s.afterEvent.out = s.out := by
  unfold State.afterEvent
  split <;> rfl
@[simp] theorem State.afterEvent_env : s.afterEvent.env = s.env := by
  unfold State.afterEvent
  split <;> rfl

@[simp] theorem State.afterDraw_block : s.afterDraw.block = s.block := by
  unfold State.afterDraw
  split <;> rfl
@[simp] theorem State.afterDraw_port : s.afterDraw.port = s.port := by
  unfold State.afterDraw
  split <;> rfl
@[simp] theorem State.afterDraw_out : s.afterDraw.out = s.out := by
  unfold State.afterDraw
  split <;> rfl
@[simp] theorem State.afterDraw_env : s.afterDraw.env = s.env := by
  unfold State.afterDraw
  split <;> rfl

/-- With a choice listed, that is the next one. -/
@[simp] theorem State.nextEvent_withEvent (e : Event) : (s.withEvent e).nextEvent = e := rfl

@[simp] theorem State.afterEvent_withEvent (e : Event) : (s.withEvent e).afterEvent = s := rfl

end Sys2Proof.Machine
end

