-- ==== Sys2Proof/Laws/Exec.lean ====
section
/-! SUPPORT. When exec gives an instruction's effect and when it is held, and what the next step runs. -/

namespace Sys2Proof.Machine

variable {s t : State}

/-- Where HOST steps, a command has its effect. -/
theorem hostStep_enabled (hf : s.block.fsm.hostEnabled = true) : hostStep s t = .next t := by
  rw [hostStep, if_pos hf]

/-- Where HOST is held, a command does nothing (R77). -/
theorem hostStep_held (hf : s.block.fsm.hostEnabled = false) : hostStep s t = .next s := by
  rw [hostStep, if_neg (by simp [hf])]

/-- In its own state, a micro-step has its effect. -/
theorem seqStep_enabled {f : Fsm} {o : Host.Outcome State Fault Refusal} (hf : s.block.fsm = f) : seqStep f s o = o := by
  rw [seqStep, if_pos hf]

/-- In another state it does nothing (R180). -/
theorem seqStep_held {f : Fsm} {o : Host.Outcome State Fault Refusal} (hf : s.block.fsm ≠ f) :
    seqStep f s o = .next s := by
  rw [seqStep, if_neg hf]

/-! What each choice of the outside world makes of a step -/

theorem step_of_fetch {e : Event} (he : s.nextEvent = e) : step s = runFetched (fetchFor e s.afterEvent) := by
  rw [step, fetch, he]

theorem fetchHost_command {i : Instr} {rest : List Word} (hf : s.block.fsm.hostEnabled = true)
    (hd : decodeCommand s.port.ended s.port.stream = .ok (i, rest)) :
    fetchHost s = (some i, { s with port := { s.port with stream := rest } }) := by
  rw [fetchHost, if_pos hf, hd]

theorem fetchHost_held (hf : s.block.fsm.hostEnabled = false) : fetchHost s = (none, s) := by
  rw [fetchHost, if_neg (by simp [hf])]

theorem fetchHost_waiting {e : DecodeReject} (hd : decodeCommand s.port.ended s.port.stream = .error e) :
    fetchHost s = (none, s) := by
  rw [fetchHost, hd]
  split <;> rfl

theorem fetchSeq_microStep {i : Instr} (hd : decodeUstep s.block.fsm.code = .ok i) : fetchSeq s = (some i, s) := by
  rw [fetchSeq, hd]

theorem fetchSeq_none {e : DecodeReject} (hd : decodeUstep s.block.fsm.code = .error e) : fetchSeq s = (none, s) := by
  rw [fetchSeq, hd]

/-- The micro-step of each state that has one (R32, R180). -/
theorem decodeUstep_code (f : Fsm) :
    decodeUstep f.code =
      match f with
      | .fetch => .ok .ustepFetch
      | .setfreq => .ok .ustepSetfreq
      | .getmax => .ok .ustepGetmax
      | .setduty => .ok .ustepSetduty
      | .enable => .ok .ustepEnable
      | .sleep => .ok .ustepSleep
      | .wait => .ok .ustepWait
      | .disable => .ok .ustepDisable
      | .next => .ok .ustepNext
      | .unset => .error .noMicroStep
      | .idle => .error .noMicroStep
      | .fault => .error .noMicroStep := by
  cases f <;> rfl

/-- The states where HOST steps (R77). -/
theorem Fsm.hostEnabled_iff (f : Fsm) :
    f.hostEnabled = true ↔ f = .unset ∨ f = .idle ∨ f = .wait ∨ f = .fault := by
  cases f <;> simp [Fsm.hostEnabled]

/-! Which agent runs an instruction of which kind -/

theorem commandOf_isCommand (h : Word) (ws : List Word) : (commandOf h ws).isCommand = true := by
  unfold commandOf; split <;> rfl

/-- A command is no micro-step. -/
theorem Instr.isMicroStep_of_isCommand {i : Instr} (h : i.isCommand = true) : i.isMicroStep = false := by
  cases i <;> first | rfl | cases h

/-- What HOST's choice runs is a command. -/
theorem fetchHost_some {i : Instr} (h : (fetchHost s).1 = some i) : i.isCommand = true := by
  unfold fetchHost at h
  split at h
  · split at h
    · rename_i hd
      cases h
      cases hs : s.port.stream with
      | nil => rw [hs] at hd; cases hd
      | cons w ws =>
        rw [hs, decodeCommand] at hd
        split at hd <;> cases hd
        exact commandOf_isCommand _ _
    · cases h
  · cases h

/-- What SEQ's choice runs is a micro-step. -/
theorem fetchSeq_some {i : Instr} (h : (fetchSeq s).1 = some i) : i.isMicroStep = true := by
  unfold fetchSeq at h
  split at h
  · rename_i hd
    cases h
    unfold decodeUstep at hd
    split at hd <;> cases hd <;> rfl
  · cases h

/-- What a sent word runs is an operand word. -/
theorem fetchSend_some {w : Word} {i : Instr} (h : (fetchSend w s).1 = some i) :
    (∃ n d, i = .entry n d) ∨ ∃ x r g b, i = .pixel x r g b := by
  unfold fetchSend at h
  split at h
  · cases h
  · split at h
    · rename_i hd
      cases h
      unfold decodeOperand at hd
      split at hd <;> cases hd
      · exact .inl ⟨_, _, rfl⟩
      · exact .inr ⟨_, _, _, _, rfl⟩
    · cases h

theorem decodeRecord_kind {w : RecordWord} {p : List Duty} {i : Instr} (h : decodeRecord w p = .ok i) :
    i.isCommand = false ∧ i.isMicroStep = false := by
  have tone : ∀ {j : Instr}, j.isCommand = false ∧ j.isMicroStep = false →
      decodeToneRecord j p = .ok i → i.isCommand = false ∧ i.isMicroStep = false := by
    intro j hj e
    cases p with
    | nil => cases e; exact hj
    | cons _ _ => cases e
  unfold decodeRecord at h
  split at h
  · cases h
  · split at h <;> first
      | exact tone ⟨rfl, rfl⟩ h
      | (cases h; done)
      | (cases h; exact ⟨rfl, rfl⟩)

/-- Only HOST's choice runs a command, and only SEQ's a micro-step (R8). -/
theorem fetchFor_kind {e : Event} {i : Instr} (h : (fetchFor e s).1 = some i) :
    (i.isCommand = true → e = .host) ∧ (i.isMicroStep = true → e = .seq) := by
  cases e with
  | host => exact ⟨fun _ => rfl, fun hm => by simp [Instr.isMicroStep_of_isCommand (fetchHost_some h)] at hm⟩
  | seq => exact ⟨fun hc => absurd (fetchSeq_some h) (by simp [Instr.isMicroStep_of_isCommand hc]), fun _ => rfl⟩
  | send w =>
    rcases fetchSend_some h with ⟨_, _, rfl⟩ | ⟨_, _, _, _, rfl⟩ <;> exact ⟨nofun, nofun⟩
  | applyTone =>
    suffices i.isCommand = false ∧ i.isMicroStep = false by simp [this]
    simp only [fetchFor, fetchTone] at h
    split at h
    · cases h
    · split at h
      · rename_i hd
        cases h
        exact decodeRecord_kind hd
      · cases h
  | takeBuffer =>
    suffices i.isCommand = false ∧ i.isMicroStep = false by simp [this]
    simp only [fetchFor, fetchLed] at h
    split at h
    · cases h
    · split at h
      · rename_i hd
        cases h
        exact decodeRecord_kind hd
      · cases h
  | _ => cases h

end Sys2Proof.Machine
end

