-- ==== Sys2Proof/Laws/Melody.lean ====
section
/-! SUPPORT. The melody store: what a read gives after a write, and that every write keeps the canonical form. Also the
Note Table and the resolved prefix. -/

namespace Sys2Proof.Machine

namespace MelStore

variable {m : MelStore}

/-- A store that is canonical from `lo` on lists no index below `lo`. -/
theorem read_below_wfFrom {lo i : Nat} (h : wfFrom lo m = true) (hi : i < lo) : read m i = unwritten := by
  induction m generalizing lo with
  | nil => rfl
  | cons c rest ih =>
    obtain ⟨k, e⟩ := c
    simp only [wfFrom, Bool.and_eq_true, decide_eq_true_eq] at h
    rw [read, if_neg (by omega)]
    exact ih h.2 (by omega)

/-- Canonical from `lo` on is canonical from a lower index on. -/
theorem wfFrom_mono {lo lo' : Nat} (h : wfFrom lo m = true) (hle : lo' ≤ lo) : wfFrom lo' m = true := by
  cases m with
  | nil => rfl
  | cons c rest =>
    obtain ⟨k, e⟩ := c
    simp only [wfFrom, Bool.and_eq_true, decide_eq_true_eq] at h ⊢
    exact ⟨⟨⟨by omega, h.1.1.2⟩, h.1.2⟩, h.2⟩

/-- A write leaves every other index as it was. -/
theorem read_write_other {i j : Nat} (e : NoteEntry) (hij : j ≠ i) : read (write m i e) j = read m j := by
  induction m with
  | nil =>
    simp only [write]
    split
    · rfl
    · simp only [read, if_neg (Ne.symm hij)]
  | cons c rest ih =>
    obtain ⟨k, x⟩ := c
    rw [write]
    split
    · split
      · rfl
      · simp only [read, if_neg (Ne.symm hij)]
    · split
      · rename_i h
        subst h
        split
        · simp only [read, if_neg (Ne.symm hij)]
        · simp only [read, if_neg (Ne.symm hij)]
      · simp only [read, ih]

/-- A read gives what was last written there. -/
theorem read_write_same {lo i : Nat} (e : NoteEntry) (h : wfFrom lo m = true) : read (write m i e) i = e := by
  induction m generalizing lo with
  | nil =>
    simp only [write]
    split
    · rename_i he
      exact he.symm
    · simp only [read, if_pos]
  | cons c rest ih =>
    obtain ⟨k, x⟩ := c
    have hw := h
    simp only [wfFrom, Bool.and_eq_true, decide_eq_true_eq] at h
    rw [write]
    split
    · rename_i hik
      split
      · rename_i he
        rw [read, if_neg (by omega), read_below_wfFrom h.2 (by omega), he]
      · simp only [read, if_pos]
    · split
      · rename_i hik
        split
        · rename_i he
          rw [read_below_wfFrom h.2 (by omega), he]
        · simp only [read, if_pos]
      · rename_i hik
        rw [read, if_neg (fun hk => hik hk.symm)]
        exact ih h.2

/-- A write of an index of the store keeps the canonical form. -/
theorem wfFrom_write {lo i : Nat} (e : NoteEntry) (h : wfFrom lo m = true) (hlo : lo ≤ i) (hi : i < Config.capacity) :
    wfFrom lo (write m i e) = true := by
  induction m generalizing lo with
  | nil =>
    simp only [write]
    split
    · rfl
    · rename_i he
      simp only [wfFrom, Bool.and_eq_true, decide_eq_true_eq]
      exact ⟨⟨⟨hlo, hi⟩, he⟩, trivial⟩
  | cons c rest ih =>
    obtain ⟨k, x⟩ := c
    have hw := h
    simp only [wfFrom, Bool.and_eq_true, decide_eq_true_eq] at h
    obtain ⟨⟨⟨h1, h2⟩, h3⟩, h4⟩ := h
    rw [write]
    split
    · rename_i hik
      split
      · exact hw
      · rename_i he
        simp only [wfFrom, Bool.and_eq_true, decide_eq_true_eq]
        exact ⟨⟨⟨hlo, hi⟩, he⟩, ⟨⟨⟨by omega, h2⟩, h3⟩, h4⟩⟩
    · split
      · rename_i hik
        split
        · exact wfFrom_mono h4 (by omega)
        · rename_i he
          simp only [wfFrom, Bool.and_eq_true, decide_eq_true_eq]
          exact ⟨⟨⟨hlo, hi⟩, he⟩, hik ▸ h4⟩
      · simp only [wfFrom, Bool.and_eq_true, decide_eq_true_eq]
        exact ⟨⟨⟨h1, h2⟩, h3⟩, ih h4 (by omega)⟩

theorem wf_write {i : Nat} (e : NoteEntry) (h : wf m = true) (hi : i < Config.capacity) : wf (write m i e) = true :=
  wfFrom_write e h (Nat.zero_le i) hi

/-- A run of writes leaves every index outside it as it was. -/
theorem read_writeFrom_outside {i j : Nat} (es : List NoteEntry) (h : j < i ∨ i + es.length ≤ j) :
    read (writeFrom m i es) j = read m j := by
  induction es generalizing m i with
  | nil => rfl
  | cons e rest ih =>
    simp only [List.length_cons] at h
    rw [writeFrom, ih (by omega), read_write_other e (by omega)]

/-- A run of writes keeps the canonical form. -/
theorem wf_writeFrom {i : Nat} (es : List NoteEntry) (h : wf m = true) (hi : i + es.length ≤ Config.capacity) :
    wf (writeFrom m i es) = true := by
  induction es generalizing m i with
  | nil => exact h
  | cons e rest ih =>
    simp only [List.length_cons] at hi
    exact ih (wf_write e h (by omega)) (by omega)

/-- A run of writes stores its entries in order. -/
theorem read_writeFrom_inside {i : Nat} (es : List NoteEntry) (h : wf m = true)
    (hi : i + es.length ≤ Config.capacity) {k : Nat} (hk : k < es.length) :
    read (writeFrom m i es) (i + k) = es[k] := by
  induction es generalizing m i k with
  | nil => exact absurd hk (Nat.not_lt_zero k)
  | cons e rest ih =>
    simp only [List.length_cons] at hi hk
    rw [writeFrom]
    cases k with
    | zero =>
      rw [read_writeFrom_outside rest (Or.inl (by omega)), Nat.add_zero, read_write_same e h]
      rfl
    | succ k =>
      have := ih (m := write m i e) (i := i + 1) (k := k) (wf_write e h (by omega)) (by omega) (by omega)
      rw [show i + (k + 1) = i + 1 + k by omega, this]
      rfl

/-- Two canonical stores that read alike are the same data. -/
theorem ext_of_wfFrom {m' : MelStore} {lo : Nat} (h : wfFrom lo m = true) (h' : wfFrom lo m' = true)
    (hr : ∀ i, read m i = read m' i) : m = m' := by
  induction m generalizing m' lo with
  | nil =>
    cases m' with
    | nil => rfl
    | cons c rest =>
      obtain ⟨k, e⟩ := c
      simp only [wfFrom, Bool.and_eq_true, decide_eq_true_eq] at h'
      have := hr k
      rw [read, read, if_pos rfl] at this
      exact absurd this.symm h'.1.2
  | cons c rest ih =>
    obtain ⟨k, e⟩ := c
    have hw := h
    simp only [wfFrom, Bool.and_eq_true, decide_eq_true_eq] at h
    cases m' with
    | nil =>
      have := hr k
      rw [read, read, if_pos rfl] at this
      exact absurd this h.1.2
    | cons c' rest' =>
      obtain ⟨k', e'⟩ := c'
      have hw' := h'
      simp only [wfFrom, Bool.and_eq_true, decide_eq_true_eq] at h'
      rcases Nat.lt_trichotomy k k' with hlt | heq | hlt
      · have := hr k
        rw [read, if_pos rfl, read, if_neg (by omega), read_below_wfFrom h'.2 (by omega)] at this
        exact absurd this h.1.2
      · subst heq
        have he := hr k
        rw [read, if_pos rfl, read, if_pos rfl] at he
        subst he
        congr 1
        refine ih h.2 h'.2 fun i => ?_
        have := hr i
        rw [read, read] at this
        split at this
        · rename_i hki
          rw [read_below_wfFrom h.2 (by omega), read_below_wfFrom h'.2 (by omega)]
        · exact this
      · have := hr k'
        rw [read, if_neg (by omega), read_below_wfFrom h.2 (by omega), read, if_pos rfl] at this
        exact absurd this.symm h'.1.2

end MelStore

/-! The Note Table and the resolved prefix -/

/-- The rest token resolves to frequency 0 (R141). -/
@[simp] theorem rom_rest : rom 0#8 = some 0#32 := rfl

/-- NOTE_FREQ is never 0 (R143). -/
theorem noteFreq_ne_zero (c : NoteCode) : Config.noteFreq c ≠ 0#32 := by
  unfold Config.noteFreq
  intro h
  have := congrArg BitVec.toNat h
  have hlt := (Config.noteFreqLessOne c).isLt
  simp only [BitVec.toNat_ofNat] at this
  omega

/-- CHANNEL is one of 1 to 4 (R9, R45). -/
theorem channel_range : 1 ≤ Config.channel.toNat ∧ Config.channel.toNat ≤ 4 := by
  have hlt := Config.channelLessOne.isLt
  simp only [Config.channel, BitVec.toNat_ofNat]
  omega

/-- The prefix is no longer than the list. -/
theorem length_resolvePrefix_le (es : List EntryWord) : (resolvePrefix es).length ≤ es.length := by
  induction es with
  | nil => exact Nat.le_refl _
  | cons e es ih =>
    rw [resolvePrefix]
    split
    · simpa using ih
    · simp

/-- Every entry of the prefix is the resolved entry of its index. -/
theorem getElem_resolvePrefix (es : List EntryWord) {k : Nat} (hk : k < (resolvePrefix es).length)
    (hk' : k < es.length) :
    rom es[k].note = some (resolvePrefix es)[k].freq ∧ (resolvePrefix es)[k].dur = es[k].dur := by
  induction es generalizing k with
  | nil => exact absurd hk' (Nat.not_lt_zero k)
  | cons e es ih =>
    cases hrom : rom e.note with
    | none =>
      simp only [resolvePrefix, hrom, List.length_nil] at hk
      exact absurd hk (Nat.not_lt_zero k)
    | some f =>
      simp only [resolvePrefix, hrom, List.length_cons] at hk ⊢
      cases k with
      | zero => simp only [List.getElem_cons_zero, hrom, and_self]
      | succ k =>
        simp only [List.getElem_cons_succ]
        exact ih (by omega) (by simpa using hk')

/-- Where the prefix ends before the list does, the entry there is unresolved. -/
theorem rom_after_resolvePrefix (es : List EntryWord) (h : (resolvePrefix es).length < es.length) :
    rom es[(resolvePrefix es).length].note = none := by
  induction es with
  | nil => exact absurd h (Nat.not_lt_zero _)
  | cons e es ih =>
    cases hrom : rom e.note with
    | none => simp only [resolvePrefix, hrom, List.length_nil, List.getElem_cons_zero]
    | some f =>
      simp only [resolvePrefix, hrom, List.length_cons] at h ⊢
      simp only [List.getElem_cons_succ]
      exact ih (by omega)

end Sys2Proof.Machine
end

