-- ==== Sys2Proof/Laws/Moves.lean ====
section
/-! SUPPORT. What a step can do to the block, once and for all: every next state is one of the moves of `BlockMove`, each
with the condition under which it happens. Invariants of the block are proved over the moves. -/

namespace Sys2Proof.Machine

/-- The block's moves at time `now`, each under its condition, with the records it adds to the tone trace. -/
inductive BlockMove (now : Nat) : Block → Block → List ToneRecord → Prop
  | stay (b) : BlockMove now b b []
  | install (b : Block) (es : List EntryWord) (hf : b.fsm = .unset ∨ b.fsm = .idle)
      (hl : es.length ≤ Config.capacity) : BlockMove now b (b.install es) []
  | start (b : Block) (l : Bool) (hf : b.fsm = .idle) (hl : l = true → b.melLen ≠ 0#9) :
      BlockMove now b { b with idx := 0#9, loop := l, stopReq := false, fsm := .fetch } []
  | faultUnset (b : Block) (hf : b.fsm = .unset) :
      BlockMove now b { b with fault := .emptyMelodyPlayback, fsm := .fault } []
  | faultLoop (b : Block) (hf : b.fsm = .idle) (hl : b.melLen = 0#9) :
      BlockMove now b { b with fault := .emptyLoop, fsm := .fault } []
  | stop (b : Block) (hf : b.fsm = .wait) : BlockMove now b { b with stopReq := true } []
  | load (b : Block) (hf : b.fsm = .fetch) (hi : b.idx.toNat < b.melLen.toNat) (hc : b.idx.toNat < Config.capacity) :
      BlockMove now b
        { b with
          curFreq := (MelStore.read b.mel b.idx.toNat).freq
          curDur := (MelStore.read b.mel b.idx.toNat).dur
          fsm := if (MelStore.read b.mel b.idx.toNat).freq ≠ 0#32 then .setfreq else .sleep }
        []
  | wrap (b : Block) (hf : b.fsm = .fetch) (hi : b.melLen.toNat ≤ b.idx.toNat) (hl : b.loop = true) :
      BlockMove now b { b with idx := 0#9 } []
  | done (b : Block) (hf : b.fsm = .fetch) (hi : b.melLen.toNat ≤ b.idx.toNat) (hl : b.loop = false) :
      BlockMove now b { b with idx := 0#9, stopReq := false, fsm := .idle } []
  | setfreq (b : Block) (hf : b.fsm = .setfreq) :
      BlockMove now b { b with fsm := .getmax } [⟨now, recordWord .setFreq b.curFreq⟩]
  | getmax (b : Block) (m : Duty) (hf : b.fsm = .getmax) :
      BlockMove now b { b with maxd := m, fsm := .setduty } [⟨now, recordWord .getMaxDuty (m.setWidth 32)⟩]
  | setduty (b : Block) (hf : b.fsm = .setduty) :
      BlockMove now b { b with fsm := .enable } [⟨now, recordWord .setDuty ((halfDuty b.maxd).setWidth 32)⟩]
  | enable (b : Block) (hf : b.fsm = .enable) :
      BlockMove now b { b with outEn := true, fsm := .sleep } [⟨now, recordWord .enable 0#32⟩]
  | sleep (b : Block) (hf : b.fsm = .sleep) :
      BlockMove now b { b with deadline := now + b.curDur.toNat, fsm := .wait }
        [⟨now, recordWord .sleep (b.curDur.setWidth 32)⟩]
  | wake (b : Block) (hf : b.fsm = .wait) (hd : b.deadline ≤ now) :
      BlockMove now b { b with fsm := if b.curFreq ≠ 0#32 then .disable else .next } [⟨now, recordWord .wake 0#32⟩]
  | disable (b : Block) (hf : b.fsm = .disable) :
      BlockMove now b { b with outEn := false, fsm := .next } [⟨now, recordWord .disable 0#32⟩]
  | honour (b : Block) (hf : b.fsm = .next) (hs : b.stopReq = true) :
      BlockMove now b { b with idx := 0#9, loop := false, stopReq := false, fsm := .idle } []
  | advance (b : Block) (hf : b.fsm = .next) (hs : b.stopReq = false) :
      BlockMove now b { b with idx := b.idx + 1#9, fsm := .fetch } []

/-- `t` comes from `s` by one move of the block: its records join the tone trace, and NOW is as before. -/
def Moved (s t : State) : Prop :=
  ∃ rs, BlockMove s.env.now s.block t.block rs ∧ t.out.tone = s.out.tone ++ rs ∧ t.env.now = s.env.now

/-- A change that touches neither the block nor the tone trace nor NOW. -/
theorem Moved.still {s t : State} (hb : t.block = s.block) (ht : t.out.tone = s.out.tone)
    (hn : t.env.now = s.env.now) : Moved s t :=
  ⟨[], by rw [hb]; exact .stay _, by rw [ht, List.append_nil], hn⟩

/-- A move that emits nothing. -/
theorem Moved.quiet {s t : State} (hb : BlockMove s.env.now s.block t.block []) (ht : t.out.tone = s.out.tone)
    (hn : t.env.now = s.env.now) : Moved s t :=
  ⟨[], hb, by rw [ht, List.append_nil], hn⟩

/-- A HOST step answers its result where HOST steps, and otherwise leaves the state as it is. -/
theorem hostStep_next {s u t : State} (h : hostStep s u = .next t) :
    (s.block.fsm.hostEnabled = true ∧ t = u) ∨ (s.block.fsm.hostEnabled = false ∧ t = s) := by
  unfold hostStep at h
  split at h
  · rename_i hf
    exact .inl ⟨hf, by cases h; rfl⟩
  · rename_i hf
    exact .inr ⟨by simpa using hf, by cases h; rfl⟩

/-- A micro-step gives its outcome in its own state, and otherwise leaves the state as it is. -/
theorem seqStep_next {f : Fsm} {s t : State} {o : Host.Outcome State Fault Refusal} (h : seqStep f s o = .next t) :
    (s.block.fsm = f ∧ o = .next t) ∨ (s.block.fsm ≠ f ∧ t = s) := by
  unfold seqStep at h
  split at h
  · rename_i hf
    exact .inl ⟨hf, h⟩
  · rename_i hf
    exact .inr ⟨hf, by cases h; rfl⟩

/-! What a HOST step's result can be, command by command -/

theorem resolveBody_block (rsv : BitVec 20) (note : NoteCode) (s : State) :
    (resolveBody rsv note s).block = s.block := by
  unfold resolveBody
  split
  · rfl
  · split <;> rfl

theorem rdregBody_block (rsv : BitVec 24) (reg : BitVec 4) (s : State) : (rdregBody rsv reg s).block = s.block := by
  unfold rdregBody
  split
  · rfl
  · split <;> rfl

theorem rdmelBody_block (rsv : BitVec 20) (index : BitVec 8) (s : State) :
    (rdmelBody rsv index s).block = s.block := by
  unfold rdmelBody
  split
  · rfl
  · split <;> rfl

theorem encodeBody_block (rsv : BitVec 12) (maxd : Duty) (ps : List PixelWord) (s : State) :
    (encodeBody rsv maxd ps s).block = s.block := by
  unfold encodeBody
  split
  · rfl
  · split <;> rfl

theorem setmelBody_move (rsv : BitVec 12) (n : BitVec 16) (es : List EntryWord) (s : State) :
    BlockMove s.env.now s.block (setmelBody rsv n es s).block [] := by
  unfold setmelBody
  split
  · exact .stay _
  split
  · exact .stay _
  split
  · exact .stay _
  split
  · exact .stay _
  split
  · exact .stay _
  · rename_i hf hc
    refine .install _ _ ?_ ?_
    · rcases hx : s.block.fsm <;> simp_all
    · have := List.length_take_le n.toNat es
      omega

theorem playBody_move (rsv : BitVec 28) (s : State) (he : s.block.fsm.hostEnabled = true) :
    BlockMove s.env.now s.block (playBody rsv s).block [] := by
  unfold playBody
  split
  · exact .stay _
  split
  · exact .stay _
  split
  · exact .stay _
  split
  · rename_i h
    exact .faultUnset _ h
  · refine .start _ _ ?_ (fun h => absurd h (by decide))
    rcases hx : s.block.fsm <;> simp_all [Fsm.hostEnabled]

theorem runBody_move (rsv : BitVec 28) (s : State) (he : s.block.fsm.hostEnabled = true) :
    BlockMove s.env.now s.block (runBody rsv s).block [] := by
  unfold runBody
  split
  · exact .stay _
  split
  · exact .stay _
  split
  · exact .stay _
  split
  · rename_i h
    exact .faultUnset _ h
  split
  · rename_i h1 h2 h3 h
    refine .faultLoop _ ?_ h
    rcases hx : s.block.fsm <;> simp_all [Fsm.hostEnabled]
  · rename_i h
    refine .start _ _ ?_ (fun _ => h)
    rcases hx : s.block.fsm <;> simp_all [Fsm.hostEnabled]

theorem stopBody_move (rsv : BitVec 28) (s : State) : BlockMove s.env.now s.block (stopBody rsv s).block [] := by
  unfold stopBody
  split
  · exact .stay _
  split
  · exact .stay _
  split
  · rename_i h
    exact .stop _ h
  · exact .stay _

/-! What exec can do -/

theorem setmelBody_rest (rsv : BitVec 12) (n : BitVec 16) (es : List EntryWord) (s : State) :
    (setmelBody rsv n es s).out.tone = s.out.tone ∧ (setmelBody rsv n es s).env = s.env := by
  unfold setmelBody installMelody
  repeat' split
  all_goals exact ⟨rfl, rfl⟩

theorem playBody_rest (rsv : BitVec 28) (s : State) :
    (playBody rsv s).out.tone = s.out.tone ∧ (playBody rsv s).env = s.env := by
  unfold playBody
  repeat' split
  all_goals exact ⟨rfl, rfl⟩

theorem runBody_rest (rsv : BitVec 28) (s : State) :
    (runBody rsv s).out.tone = s.out.tone ∧ (runBody rsv s).env = s.env := by
  unfold runBody
  repeat' split
  all_goals exact ⟨rfl, rfl⟩

theorem stopBody_rest (rsv : BitVec 28) (s : State) :
    (stopBody rsv s).out.tone = s.out.tone ∧ (stopBody rsv s).env = s.env := by
  unfold stopBody
  repeat' split
  all_goals exact ⟨rfl, rfl⟩

theorem resolveBody_rest (rsv : BitVec 20) (note : NoteCode) (s : State) :
    (resolveBody rsv note s).out.tone = s.out.tone ∧ (resolveBody rsv note s).env = s.env := by
  unfold resolveBody
  repeat' split
  all_goals exact ⟨rfl, rfl⟩

theorem rdregBody_rest (rsv : BitVec 24) (reg : BitVec 4) (s : State) :
    (rdregBody rsv reg s).out.tone = s.out.tone ∧ (rdregBody rsv reg s).env = s.env := by
  unfold rdregBody
  repeat' split
  all_goals exact ⟨rfl, rfl⟩

theorem rdmelBody_rest (rsv : BitVec 20) (index : BitVec 8) (s : State) :
    (rdmelBody rsv index s).out.tone = s.out.tone ∧ (rdmelBody rsv index s).env = s.env := by
  unfold rdmelBody
  repeat' split
  all_goals exact ⟨rfl, rfl⟩

theorem encodeBody_rest (rsv : BitVec 12) (maxd : Duty) (ps : List PixelWord) (s : State) :
    (encodeBody rsv maxd ps s).out.tone = s.out.tone ∧ (encodeBody rsv maxd ps s).env = s.env := by
  unfold encodeBody
  repeat' split
  all_goals exact ⟨rfl, rfl⟩

/-- A HOST step whose result is a move from where HOST steps is a move. -/
theorem hostStep_move {s u t : State} (hm : s.block.fsm.hostEnabled = true → BlockMove s.env.now s.block u.block [])
    (hr : u.out.tone = s.out.tone ∧ u.env = s.env) (h : hostStep s u = .next t) : Moved s t := by
  rcases hostStep_next h with ⟨hf, rfl⟩ | ⟨_, rfl⟩
  · exact .quiet (hm hf) hr.1 (by rw [hr.2])
  · exact .still rfl rfl rfl

/-- A micro-step whose outcome is a move from its own state is a move. -/
theorem seqStep_move {f : Fsm} {s t : State} {o : Host.Outcome State Fault Refusal}
    (hm : s.block.fsm = f → o = .next t → Moved s t) (h : seqStep f s o = .next t) : Moved s t := by
  rcases seqStep_next h with ⟨hf, ho⟩ | ⟨_, rfl⟩
  · exact hm hf ho
  · exact .still rfl rfl rfl

/-- An illegal header leaves the block alone. -/
theorem illegalHeader_move {op : BitVec 4} {s t : State} (h : illegalHeader op s = .next t) : Moved s t :=
  hostStep_move (u := s.answer op .errIllegal) (fun _ => .stay _) ⟨rfl, rfl⟩ h

theorem execUstepFetch_move {s t : State} (h : execUstepFetch s = .next t) : Moved s t := by
  refine seqStep_move (fun hf ho => ?_) h
  split at ho
  · rename_i hi
    split at ho
    · rename_i hc
      cases ho
      exact .quiet (.load _ hf hi hc) rfl rfl
    · cases ho
  · rename_i hi
    cases ho
    refine .quiet ?_ (by simp) (by simp)
    rw [State.passEnd_block]
    split
    · rename_i hl
      exact .wrap _ hf (by omega) hl
    · rename_i hl
      exact .done _ hf (by omega) (by simpa using hl)

theorem execUstepWait_move {s t : State} (h : execUstepWait s = .next t) : Moved s t := by
  refine seqStep_move (fun hf ho => ?_) h
  split at ho
  · cases ho
    exact .still rfl rfl rfl
  · rename_i hd
    cases ho
    exact ⟨_, .wake _ hf (by omega), rfl, rfl⟩

theorem execUstepNext_move {s t : State} (h : execUstepNext s = .next t) : Moved s t := by
  refine seqStep_move (fun hf ho => ?_) h
  split at ho
  · rename_i hs
    cases ho
    exact .quiet (.honour _ hf hs) rfl rfl
  · rename_i hs
    cases ho
    exact .quiet (.advance _ hf (by simpa using hs)) rfl rfl

theorem execUstepGetmax_move {s t : State} (h : execUstepGetmax s = .next t) : Moved s t := by
  refine seqStep_move (fun hf ho => ?_) h
  cases ho
  refine ⟨[⟨s.env.now, recordWord .getMaxDuty (s.drawMaxd.setWidth 32)⟩], ?_, by simp, by simp⟩
  simp only [State.goto_block, State.latchMaxd_block, State.emit_block, State.afterDraw_block]
  exact .getmax _ _ hf

/-- Every next state of exec is a move of the block with its records, and exec leaves NOW alone. -/
theorem exec_move (i : Instr) {s t : State} (h : exec i s = .next t) : Moved s t := by
  cases i with
  | setmel rsv n es => exact hostStep_move (fun _ => setmelBody_move rsv n es s) (setmelBody_rest rsv n es s) h
  | play rsv => exact hostStep_move (playBody_move rsv s) (playBody_rest rsv s) h
  | run rsv => exact hostStep_move (runBody_move rsv s) (runBody_rest rsv s) h
  | stop rsv => exact hostStep_move (fun _ => stopBody_move rsv s) (stopBody_rest rsv s) h
  | encode rsv m ps =>
    exact hostStep_move (fun _ => by rw [encodeBody_block]; exact .stay _) (encodeBody_rest rsv m ps s) h
  | resolve rsv note =>
    exact hostStep_move (fun _ => by rw [resolveBody_block]; exact .stay _) (resolveBody_rest rsv note s) h
  | rdreg rsv reg =>
    exact hostStep_move (fun _ => by rw [rdregBody_block]; exact .stay _) (rdregBody_rest rsv reg s) h
  | rdmel rsv index =>
    exact hostStep_move (fun _ => by rw [rdmelBody_block]; exact .stay _) (rdmelBody_rest rsv index s) h
  | illegalOp0 _ => exact illegalHeader_move h
  | illegalOp9 _ => exact illegalHeader_move h
  | illegalOpA _ => exact illegalHeader_move h
  | illegalOpB _ => exact illegalHeader_move h
  | illegalOpC _ => exact illegalHeader_move h
  | illegalOpD _ => exact illegalHeader_move h
  | illegalOpE _ => exact illegalHeader_move h
  | illegalOpF _ => exact illegalHeader_move h
  | ustepFetch => exact execUstepFetch_move h
  | ustepSetfreq =>
    refine seqStep_move (fun hf ho => ?_) h
    cases ho
    exact ⟨_, .setfreq _ hf, rfl, rfl⟩
  | ustepGetmax => exact execUstepGetmax_move h
  | ustepSetduty =>
    refine seqStep_move (fun hf ho => ?_) h
    cases ho
    exact ⟨_, .setduty _ hf, rfl, rfl⟩
  | ustepEnable =>
    refine seqStep_move (fun hf ho => ?_) h
    cases ho
    exact ⟨_, .enable _ hf, rfl, rfl⟩
  | ustepSleep =>
    refine seqStep_move (fun hf ho => ?_) h
    cases ho
    exact ⟨_, .sleep _ hf, rfl, rfl⟩
  | ustepWait => exact execUstepWait_move h
  | ustepDisable =>
    refine seqStep_move (fun hf ho => ?_) h
    cases ho
    exact ⟨_, .disable _ hf, rfl, rfl⟩
  | ustepNext => exact execUstepNext_move h
  | entry note dur =>
    cases h
    exact .still rfl rfl rfl
  | pixel rsv r g b =>
    cases h
    exact .still rfl rfl rfl
  | actSetFreq _ =>
    cases h
    exact .still rfl rfl rfl
  | actGetMaxDuty _ =>
    cases h
    exact .still rfl rfl rfl
  | actSetDuty _ =>
    cases h
    exact .still rfl rfl rfl
  | actEnable _ =>
    cases h
    exact .still rfl rfl rfl
  | actDisable _ =>
    cases h
    exact .still rfl rfl rfl
  | actSleep _ =>
    cases h
    exact .still rfl rfl rfl
  | actWake _ =>
    cases h
    exact .still rfl rfl rfl
  | actDutyOut _ _ =>
    cases h
    exact .still rfl rfl rfl

/-! What fetching can do -/

/-- Fetching an instruction leaves the block, the tone trace and NOW as they are; a choice that is none may be a reset
or time. -/
theorem fetchFor_still (e : Event) (s : State) :
    (fetchFor e s).2.out = s.out ∧ s.env.now ≤ (fetchFor e s).2.env.now ∧
      ((fetchFor e s).2.block = s.block ∧ ((fetchFor e s).1 ≠ none → (fetchFor e s).2.env.now = s.env.now) ∨
        e = .reset ∧ (fetchFor e s).1 = none ∧ (fetchFor e s).2.block = Block.reset) := by
  cases e with
  | send w =>
    simp only [fetchFor, fetchSend]
    split
    · simp
    · split <;> simp
  | endStream => simp [fetchFor]
  | host =>
    simp only [fetchFor, fetchHost]
    split
    · split <;> simp
    · simp
  | seq =>
    simp only [fetchFor, fetchSeq]
    split <;> simp
  | tick d => simp [fetchFor]
  | applyTone =>
    simp only [fetchFor, fetchTone]
    split
    · simp
    · split <;> simp
  | takeBuffer =>
    simp only [fetchFor, fetchLed]
    split
    · simp
    · split <;> simp
  | reset => simp [fetchFor]

/-- Every next state of a step is a reset of the block or a move of it with its records, and NOW does not decrease. -/
theorem step_move {s t : State} (h : step s = .next t) :
    (s.nextEvent = .reset ∧ t.block = Block.reset ∧ t.out.tone = s.out.tone ∨
        ∃ rs, BlockMove s.env.now s.block t.block rs ∧ t.out.tone = s.out.tone ++ rs) ∧
      s.env.now ≤ t.env.now := by
  have hf := fetchFor_still s.nextEvent s.afterEvent
  unfold step fetch at h
  generalize fetchFor s.nextEvent s.afterEvent = p at h hf
  obtain ⟨oi, u⟩ := p
  simp only [State.afterEvent_block, State.afterEvent_env, State.afterEvent_out] at hf
  obtain ⟨ho, hle, hf⟩ := hf
  cases oi with
  | none =>
    simp only [runFetched, Host.Outcome.next.injEq] at h
    subst h
    refine ⟨?_, hle⟩
    rcases hf with ⟨hb, _⟩ | ⟨he, _, hb⟩
    · exact .inr ⟨[], by rw [hb]; exact .stay _, by simp [ho]⟩
    · exact .inl ⟨he, hb, by rw [ho]⟩
  | some i =>
    rcases hf with ⟨hb, heq⟩ | ⟨_, hn, _⟩
    · obtain ⟨rs, hm, ht, hn⟩ := exec_move i h
      rw [hb, heq (by simp)] at hm
      exact ⟨.inr ⟨rs, hm, by rw [ht, ho]⟩, by rw [hn]; exact hle⟩
    · cases hn

end Sys2Proof.Machine
end

