-- ==== Sys2Proof/Laws/Channel.lean ====
section
/-! SUPPORT. What a step can do to the tone channel's output and to ENV's place in the tone trace (spec/44_pwm_interface.md
R254, R255, R257): nothing, or one record takes effect. -/

namespace Sys2Proof.Machine

variable {s t u : State}

theorem outputAfter_append (on : Bool) (xs ys : List ToneRecord) :
    outputAfter on (xs ++ ys) = outputAfter (outputAfter on xs) ys := by
  induction xs generalizing on with
  | nil => rfl
  | cons x xs ih => exact ih _

/-- A HOST step whose result leaves ENV alone leaves ENV alone. -/
theorem hostStep_env (hu : u.env = s.env) (h : hostStep s u = .next t) : t.env = s.env := by
  rcases hostStep_next h with ⟨_, rfl⟩ | ⟨_, rfl⟩
  · exact hu
  · rfl

/-- A micro-step whose outcome leaves ENV alone leaves ENV alone. -/
theorem seqStep_env {f : Fsm} {o : Host.Outcome State Fault Refusal} (ho : o = .next t → t.env = s.env)
    (h : seqStep f s o = .next t) : t.env = s.env := by
  rcases seqStep_next h with ⟨_, h⟩ | ⟨_, rfl⟩
  · exact ho h
  · rfl

/-- Every instruction leaves ENV's place in the trace, and all but the records ENABLE and DISABLE leave the output. -/
theorem exec_env (i : Instr) (h : exec i s = .next t) :
    t.env.toneApplied = s.env.toneApplied ∧
      ((∀ x, i ≠ .actEnable x) → (∀ x, i ≠ .actDisable x) → t.env.chanOn = s.env.chanOn) := by
  have same : ∀ {p q : Prop}, t.env = s.env →
      t.env.toneApplied = s.env.toneApplied ∧ (p → q → t.env.chanOn = s.env.chanOn) :=
    fun h => by rw [h]; exact ⟨rfl, fun _ _ => rfl⟩
  cases i with
  | setmel rsv n es => exact same (hostStep_env (setmelBody_rest rsv n es s).2 h)
  | play rsv => exact same (hostStep_env (playBody_rest rsv s).2 h)
  | run rsv => exact same (hostStep_env (runBody_rest rsv s).2 h)
  | stop rsv => exact same (hostStep_env (stopBody_rest rsv s).2 h)
  | encode rsv m ps => exact same (hostStep_env (encodeBody_rest rsv m ps s).2 h)
  | resolve rsv note => exact same (hostStep_env (resolveBody_rest rsv note s).2 h)
  | rdreg rsv reg => exact same (hostStep_env (rdregBody_rest rsv reg s).2 h)
  | rdmel rsv index => exact same (hostStep_env (rdmelBody_rest rsv index s).2 h)
  | illegalOp0 _ => exact same (hostStep_env (u := s.answer 0x0#4 .errIllegal) rfl h)
  | illegalOp9 _ => exact same (hostStep_env (u := s.answer 0x9#4 .errIllegal) rfl h)
  | illegalOpA _ => exact same (hostStep_env (u := s.answer 0xA#4 .errIllegal) rfl h)
  | illegalOpB _ => exact same (hostStep_env (u := s.answer 0xB#4 .errIllegal) rfl h)
  | illegalOpC _ => exact same (hostStep_env (u := s.answer 0xC#4 .errIllegal) rfl h)
  | illegalOpD _ => exact same (hostStep_env (u := s.answer 0xD#4 .errIllegal) rfl h)
  | illegalOpE _ => exact same (hostStep_env (u := s.answer 0xE#4 .errIllegal) rfl h)
  | illegalOpF _ => exact same (hostStep_env (u := s.answer 0xF#4 .errIllegal) rfl h)
  | ustepFetch =>
    refine same (seqStep_env (fun ho => ?_) h)
    split at ho
    · split at ho <;> cases ho
      rfl
    · cases ho
      simp
  | ustepGetmax =>
    refine same (seqStep_env (fun ho => ?_) h)
    cases ho
    simp
  | ustepWait =>
    refine same (seqStep_env (fun ho => ?_) h)
    split at ho <;> cases ho <;> rfl
  | ustepNext =>
    refine same (seqStep_env (fun ho => ?_) h)
    split at ho <;> cases ho <;> rfl
  | ustepSetfreq => exact same (seqStep_env (fun ho => by cases ho; rfl) h)
  | ustepSetduty => exact same (seqStep_env (fun ho => by cases ho; rfl) h)
  | ustepEnable => exact same (seqStep_env (fun ho => by cases ho; rfl) h)
  | ustepSleep => exact same (seqStep_env (fun ho => by cases ho; rfl) h)
  | ustepDisable => exact same (seqStep_env (fun ho => by cases ho; rfl) h)
  | actEnable x => cases h; exact ⟨rfl, fun hn _ => absurd rfl (hn x)⟩
  | actDisable x => cases h; exact ⟨rfl, fun _ hn => absurd rfl (hn x)⟩
  | _ => cases h; exact ⟨rfl, fun _ _ => rfl⟩

/-- A record that decodes turns the output on or off by its ACT, and leaves the traces. -/
theorem exec_record {r : ToneRecord} {i : Instr} (hd : decodeRecord r.word [] = .ok i) (h : exec i s = .next t) :
    t.out = s.out ∧ t.env.toneApplied = s.env.toneApplied ∧ t.env.chanOn = outputAfter s.env.chanOn [r] := by
  have hn : ∀ k : Nat, (r.word.extractLsb' 56 8).toNat = k → r.act.toNat = k := fun _ h => h
  simp only [decodeRecord, decodeToneRecord] at hd
  split at hd
  · cases hd
  · split at hd <;> cases hd <;> rename_i hk <;> have := hn _ hk <;> cases h <;>
      exact ⟨rfl, rfl, by simp [outputAfter, Act.code, ← BitVec.toNat_inj, this]⟩

/-- A LED record that decodes is a buffer. -/
theorem decodeRecord_dutyOut {w : RecordWord} {p : List Duty} {i : Instr}
    (hw : w.extractLsb' 56 8 = Act.dutyOut.code) (hd : decodeRecord w p = .ok i) : ∃ x, i = .actDutyOut x p := by
  rw [decodeRecord, hw] at hd
  split at hd
  · cases hd
  · exact ⟨_, by cases hd; rfl⟩

/-- A choice but applyTone leaves the output and ENV's place in the trace, and finds nothing that turns the output. -/
theorem fetchFor_env {e : Event} (hl : s.LedHoldsBuffers) (he : e ≠ .applyTone) :
    (fetchFor e s).2.env.toneApplied = s.env.toneApplied ∧ (fetchFor e s).2.env.chanOn = s.env.chanOn ∧
      ∀ i, (fetchFor e s).1 = some i → (∀ x, i ≠ .actEnable x) ∧ ∀ x, i ≠ .actDisable x := by
  cases e with
  | applyTone => exact absurd rfl he
  | takeBuffer =>
    simp only [fetchFor, fetchLed]
    split
    · simp
    · rename_i r hr
      split
      · rename_i i hd
        obtain ⟨x, rfl⟩ := decodeRecord_dutyOut (hl r (List.mem_of_getElem? hr)) hd
        exact ⟨rfl, rfl, fun j hj => by cases hj; exact ⟨nofun, nofun⟩⟩
      · simp
  | host =>
    have hk : (fetchHost s).2.env = s.env := by
      unfold fetchHost
      split <;> [split; skip] <;> rfl
    refine ⟨by rw [fetchFor, hk], by rw [fetchFor, hk], fun i hi => ?_⟩
    have hc := fetchHost_some hi
    exact ⟨fun x hx => (by subst hx; cases hc), fun x hx => (by subst hx; cases hc)⟩
  | seq =>
    have hk : (fetchSeq s).2 = s := by
      unfold fetchSeq
      split <;> rfl
    refine ⟨by rw [fetchFor, hk], by rw [fetchFor, hk], fun i hi => ?_⟩
    have hc := fetchSeq_some hi
    exact ⟨fun x hx => (by subst hx; cases hc), fun x hx => (by subst hx; cases hc)⟩
  | send w =>
    have hk : (fetchSend w s).2.env = s.env := by
      unfold fetchSend
      split <;> [skip; split] <;> rfl
    refine ⟨by rw [fetchFor, hk], by rw [fetchFor, hk], fun i hi => ?_⟩
    rcases fetchSend_some hi with ⟨_, _, rfl⟩ | ⟨_, _, _, _, rfl⟩ <;> exact ⟨nofun, nofun⟩
  | _ => simp [fetchFor]

/-- Taking a record of the tone trace adds none. -/
theorem step_applyTone_out (he : s.nextEvent = .applyTone) (h : step s = .next t) : t.out = s.out := by
  rw [step_of_fetch he, fetchFor, fetchTone] at h
  split at h
  · cases h; simp
  · split at h
    · rename_i hd
      simpa using (exec_record hd h).1
    · cases h; simp

/-- Every next state of a step has the output and ENV's place in the trace as before, or one more record of the trace has
taken effect and the trace is as before (R257). -/
theorem step_channel (hl : s.LedHoldsBuffers) (h : step s = .next t) :
    (t.env.toneApplied = s.env.toneApplied ∧ t.env.chanOn = s.env.chanOn) ∨
      ∃ r, s.out.tone[s.env.toneApplied]? = some r ∧ t.out = s.out ∧ t.env.toneApplied = s.env.toneApplied + 1 ∧
        t.env.chanOn = outputAfter s.env.chanOn [r] := by
  by_cases he : s.nextEvent = .applyTone
  · rw [step_of_fetch he, fetchFor, fetchTone] at h
    cases hr : s.afterEvent.out.tone[s.afterEvent.env.toneApplied]? with
    | none =>
      rw [hr] at h
      cases h
      simp
    | some r =>
      rw [hr] at h
      cases hd : decodeRecord r.word [] with
      | error e =>
        simp only [hd] at h
        cases h
        simp
      | ok i =>
        simp only [hd] at h
        obtain ⟨ho, ha, hc⟩ := exec_record hd h
        exact .inr ⟨r, by simpa using hr, by simpa using ho, by simpa using ha, by simpa using hc⟩
  · have hf := fetchFor_env (s := s.afterEvent) (by simpa [State.LedHoldsBuffers] using hl) he
    rw [step_of_fetch rfl] at h
    generalize fetchFor s.nextEvent s.afterEvent = p at h hf
    obtain ⟨oi, u⟩ := p
    cases oi with
    | none =>
      cases h
      exact .inl ⟨by simpa using hf.1, by simpa using hf.2.1⟩
    | some i =>
      obtain ⟨ha, hc⟩ := exec_env i h
      obtain ⟨h1, h2⟩ := hf.2.2 i rfl
      refine .inl ⟨by simpa using ha.trans hf.1, ?_⟩
      simpa using (hc h1 h2).trans hf.2.1

end Sys2Proof.Machine
end

