-- ==== Sys2Proof/Laws/PerInstr.lean ====
section
/-! SUPPORT. One law for every instruction: its encoding has the length and the fixed fields its space gives it. -/

namespace Sys2Proof.Laws.Length

open Sys2Proof

/-- What an encoding's space fixes (R100 to R107, R120, R180): a command has exactly the operand words its header
announces; an operand word is its fields put together; a micro-step's code is one of 2 to 10; a record has 0 in bits
55:32, and DUTY_OUT alone has a payload, of 192 values. -/
def Fixed : Code → Prop
  | .stream [] => False
  | .stream (h :: ws) => ws.length = operandCount h
  | .entryWord w => encodeEntryWord (decodeEntryWord w) = w
  | .pixelWord w => encodePixelWord (decodePixelWord w) = w
  | .fsmState c => 2 ≤ c.toNat ∧ c.toNat ≤ 10
  | .record w payload =>
    w.extractLsb' 32 24 = 0#24 ∧
      payload.length = if w.extractLsb' 56 8 = Act.dutyOut.code then Config.dutyLen else 0

/-- The encoding of a complete well-formed instruction keeps what its space fixes. -/
def Statement (i : Instr) : Prop := i.wellFormed = true → i.complete = true → Fixed (encode i)

/-- A header whose OP announces no operand word stands alone. -/
theorem fixed_single {h : Word} (h1 : opOf h ≠ 0x1#4) (h5 : opOf h ≠ 0x5#4) : Fixed (.stream [h]) :=
  (operandCount_other h1 h5).symm

/-- A record of the tone channel. -/
theorem fixed_tone (a : Act) (x : Word) (ha : a.code ≠ Act.dutyOut.code) : Fixed (.record (recordWord a x) []) :=
  ⟨recordWord_zero a x, by rw [recordWord_act, if_neg ha]; rfl⟩

theorem setmel (rsv : BitVec 12) (n : BitVec 16) (entries : List EntryWord) : Statement (.setmel rsv n entries) := by
  intro _ hc
  show (entries.map encodeEntryWord).length = operandCount _
  rw [operandCount_setmel (opOf_header16 _ _ _), low16_header16, List.length_map]
  simpa [Instr.complete] using hc

theorem play (rsv : BitVec 28) : Statement (.play rsv) :=
  fun _ _ => fixed_single (by rw [opOf_header28]; decide) (by rw [opOf_header28]; decide)

theorem run (rsv : BitVec 28) : Statement (.run rsv) :=
  fun _ _ => fixed_single (by rw [opOf_header28]; decide) (by rw [opOf_header28]; decide)

theorem stop (rsv : BitVec 28) : Statement (.stop rsv) :=
  fun _ _ => fixed_single (by rw [opOf_header28]; decide) (by rw [opOf_header28]; decide)

theorem encode (rsv : BitVec 12) (maxd : Duty) (pixels : List PixelWord) : Statement (.encode rsv maxd pixels) := by
  intro _ hc
  show (pixels.map encodePixelWord).length = operandCount _
  rw [operandCount_encode (opOf_header16 _ _ _), List.length_map]
  simpa [Instr.complete] using hc

theorem resolve (rsv : BitVec 20) (note : NoteCode) : Statement (.resolve rsv note) :=
  fun _ _ => fixed_single (by rw [opOf_header8]; decide) (by rw [opOf_header8]; decide)

theorem rdreg (rsv : BitVec 24) (reg : BitVec 4) : Statement (.rdreg rsv reg) :=
  fun _ _ => fixed_single (by rw [opOf_header4]; decide) (by rw [opOf_header4]; decide)

theorem rdmel (rsv : BitVec 20) (index : BitVec 8) : Statement (.rdmel rsv index) :=
  fun _ _ => fixed_single (by rw [opOf_header8]; decide) (by rw [opOf_header8]; decide)

theorem illegalOp0 (bits : BitVec 28) : Statement (.illegalOp0 bits) :=
  fun _ _ => fixed_single (by rw [opOf_header28]; decide) (by rw [opOf_header28]; decide)

theorem illegalOp9 (bits : BitVec 28) : Statement (.illegalOp9 bits) :=
  fun _ _ => fixed_single (by rw [opOf_header28]; decide) (by rw [opOf_header28]; decide)

theorem illegalOpA (bits : BitVec 28) : Statement (.illegalOpA bits) :=
  fun _ _ => fixed_single (by rw [opOf_header28]; decide) (by rw [opOf_header28]; decide)

theorem illegalOpB (bits : BitVec 28) : Statement (.illegalOpB bits) :=
  fun _ _ => fixed_single (by rw [opOf_header28]; decide) (by rw [opOf_header28]; decide)

theorem illegalOpC (bits : BitVec 28) : Statement (.illegalOpC bits) :=
  fun _ _ => fixed_single (by rw [opOf_header28]; decide) (by rw [opOf_header28]; decide)

theorem illegalOpD (bits : BitVec 28) : Statement (.illegalOpD bits) :=
  fun _ _ => fixed_single (by rw [opOf_header28]; decide) (by rw [opOf_header28]; decide)

theorem illegalOpE (bits : BitVec 28) : Statement (.illegalOpE bits) :=
  fun _ _ => fixed_single (by rw [opOf_header28]; decide) (by rw [opOf_header28]; decide)

theorem illegalOpF (bits : BitVec 28) : Statement (.illegalOpF bits) :=
  fun _ _ => fixed_single (by rw [opOf_header28]; decide) (by rw [opOf_header28]; decide)

theorem entry (note : NoteCode) (dur : Millis) : Statement (.entry note dur) :=
  fun _ _ => encodeEntryWord_decodeEntryWord _

theorem pixel (rsv r g b : BitVec 8) : Statement (.pixel rsv r g b) :=
  fun _ _ => encodePixelWord_decodePixelWord _

theorem ustepFetch : Statement .ustepFetch := fun _ _ => ⟨by decide, by decide⟩

theorem ustepSetfreq : Statement .ustepSetfreq := fun _ _ => ⟨by decide, by decide⟩

theorem ustepGetmax : Statement .ustepGetmax := fun _ _ => ⟨by decide, by decide⟩

theorem ustepSetduty : Statement .ustepSetduty := fun _ _ => ⟨by decide, by decide⟩

theorem ustepEnable : Statement .ustepEnable := fun _ _ => ⟨by decide, by decide⟩

theorem ustepSleep : Statement .ustepSleep := fun _ _ => ⟨by decide, by decide⟩

theorem ustepWait : Statement .ustepWait := fun _ _ => ⟨by decide, by decide⟩

theorem ustepDisable : Statement .ustepDisable := fun _ _ => ⟨by decide, by decide⟩

theorem ustepNext : Statement .ustepNext := fun _ _ => ⟨by decide, by decide⟩

theorem actSetFreq (operand : Word) : Statement (.actSetFreq operand) := fun _ _ => fixed_tone _ _ (by decide)

theorem actGetMaxDuty (operand : Word) : Statement (.actGetMaxDuty operand) := fun _ _ => fixed_tone _ _ (by decide)

theorem actSetDuty (operand : Word) : Statement (.actSetDuty operand) := fun _ _ => fixed_tone _ _ (by decide)

theorem actEnable (operand : Word) : Statement (.actEnable operand) := fun _ _ => fixed_tone _ _ (by decide)

theorem actDisable (operand : Word) : Statement (.actDisable operand) := fun _ _ => fixed_tone _ _ (by decide)

theorem actSleep (operand : Word) : Statement (.actSleep operand) := fun _ _ => fixed_tone _ _ (by decide)

theorem actWake (operand : Word) : Statement (.actWake operand) := fun _ _ => fixed_tone _ _ (by decide)

theorem actDutyOut (operand : Word) (payload : List Duty) : Statement (.actDutyOut operand payload) := by
  intro hw _
  simp only [Instr.wellFormed, Bool.and_eq_true, decide_eq_true_eq] at hw
  exact ⟨recordWord_zero _ _, by rw [recordWord_act, if_pos rfl]; exact hw.2⟩

end Sys2Proof.Laws.Length
end

