-- ==== Sys2Proof/Tests/Slice0.lean ====
section
/-! SUPPORT. Tests of one instruction or one step each, with expected values from spec/95_test_vectors.md and the rules
named, and for every statement that has hypotheses a witness that meets them. -/

namespace Sys2Proof.Tests

open Sys2Proof Sys2Proof.Machine

/-! ## WellFormed: one ill-formed term for each check -/

theorem test_wf_setmel : (Instr.setmel 0#12 1#16 [⟨1#8, 2#24⟩, ⟨1#8, 2#24⟩]).wellFormed = false := by decide
theorem test_wf_encode : (Instr.encode 0#12 1#16 (List.replicate 9 ⟨0#8, 0#8, 0#8, 0#8⟩)).wellFormed = false := by decide
theorem test_wf_set_freq : (Instr.actSetFreq 0#32).wellFormed = false := by decide
theorem test_wf_get_max_duty : (Instr.actGetMaxDuty 0x10000#32).wellFormed = false := by decide
theorem test_wf_set_duty : (Instr.actSetDuty 0x8000#32).wellFormed = false := by decide
theorem test_wf_enable : (Instr.actEnable 1#32).wellFormed = false := by decide
theorem test_wf_disable : (Instr.actDisable 1#32).wellFormed = false := by decide
theorem test_wf_sleep : (Instr.actSleep 0x1000000#32).wellFormed = false := by decide
theorem test_wf_wake : (Instr.actWake 1#32).wellFormed = false := by decide
theorem test_wf_duty_out_operand : (Instr.actDutyOut 191#32 (List.replicate 192 0#16)).wellFormed = false := by decide
theorem test_wf_duty_out_payload : (Instr.actDutyOut 192#32 (List.replicate 191 0#16)).wellFormed = false := by decide +kernel
theorem test_wf_duty_out : (Instr.actDutyOut 192#32 (List.replicate 192 0#16)).wellFormed = true := by decide +kernel
theorem test_incomplete_setmel : (Instr.setmel 0#12 2#16 [⟨1#8, 2#24⟩]).complete = false := by decide
theorem test_incomplete_encode : (Instr.encode 0#12 1#16 []).complete = false := by decide

/-! ## Decoding: a word written out from the spec's encoding, for every constructor -/

/-- 95 E2. -/
theorem test_decode_setmel :
    decode (.stream [0x10000004#32, 0x01000064#32, 0x050000C8#32, 0xFF0003E7#32, 0x0800012C#32]) =
      .ok (.setmel 0#12 4#16 [⟨0x01#8, 100#24⟩, ⟨0x05#8, 200#24⟩, ⟨0xFF#8, 999#24⟩, ⟨0x08#8, 300#24⟩]) := by decide
theorem test_decode_play : decode (.stream [0x20000000#32]) = .ok (.play 0#28) := by decide
theorem test_decode_run : decode (.stream [0x30000000#32]) = .ok (.run 0#28) := by decide
theorem test_decode_stop : decode (.stream [0x40000001#32]) = .ok (.stop 1#28) := by decide
/-- 95 P3. -/
theorem test_decode_encode :
    decode (.stream [0x50000064#32, 0x0000FF00#32, 0x00FF0000#32, 0x000000FF#32, 0x00123456#32, 0#32, 0#32, 0#32,
        0x01000000#32]) =
      .ok (.encode 0#12 100#16 [⟨0#8, 0#8, 255#8, 0#8⟩, ⟨0#8, 255#8, 0#8, 0#8⟩, ⟨0#8, 0#8, 0#8, 255#8⟩,
        ⟨0#8, 0x12#8, 0x34#8, 0x56#8⟩, ⟨0#8, 0#8, 0#8, 0#8⟩, ⟨0#8, 0#8, 0#8, 0#8⟩, ⟨0#8, 0#8, 0#8, 0#8⟩,
        ⟨1#8, 0#8, 0#8, 0#8⟩]) := by decide
theorem test_decode_resolve : decode (.stream [0x60000019#32]) = .ok (.resolve 0#20 0x19#8) := by decide
theorem test_decode_resolve_reserved : decode (.stream [0x60000100#32]) = .ok (.resolve 1#20 0#8) := by decide
theorem test_decode_rdreg : decode (.stream [0x70000018#32]) = .ok (.rdreg 1#24 8#4) := by decide
theorem test_decode_rdmel : decode (.stream [0x80000102#32]) = .ok (.rdmel 1#20 2#8) := by decide
theorem test_decode_op0 : decode (.stream [0x00000000#32]) = .ok (.illegalOp0 0#28) := by decide
theorem test_decode_op9 : decode (.stream [0x90000001#32]) = .ok (.illegalOp9 1#28) := by decide
theorem test_decode_opA : decode (.stream [0xA0000002#32]) = .ok (.illegalOpA 2#28) := by decide
theorem test_decode_opB : decode (.stream [0xB0000003#32]) = .ok (.illegalOpB 3#28) := by decide
theorem test_decode_opC : decode (.stream [0xC0000004#32]) = .ok (.illegalOpC 4#28) := by decide
theorem test_decode_opD : decode (.stream [0xD0000005#32]) = .ok (.illegalOpD 5#28) := by decide
theorem test_decode_opE : decode (.stream [0xE0000006#32]) = .ok (.illegalOpE 6#28) := by decide
theorem test_decode_opF : decode (.stream [0xFFFFFFFF#32]) = .ok (.illegalOpF 0xFFFFFFF#28) := by decide
/-- 95 2.3: a rest of 16777215 ms. -/
theorem test_decode_entry : decode (.entryWord 0x0AFFFFFF#32) = .ok (.entry 0x0A#8 16777215#24) := by decide
theorem test_decode_pixel : decode (.pixelWord 0x01123456#32) = .ok (.pixel 1#8 0x12#8 0x34#8 0x56#8) := by decide
/-- R32: the codes of the micro-steps. -/
theorem test_decode_microsteps :
    [2#4, 3#4, 4#4, 5#4, 6#4, 7#4, 8#4, 9#4, 10#4].map (fun c => decode (.fsmState c)) =
      [.ok .ustepFetch, .ok .ustepSetfreq, .ok .ustepGetmax, .ok .ustepSetduty, .ok .ustepEnable, .ok .ustepSleep,
        .ok .ustepWait, .ok .ustepDisable, .ok .ustepNext] := by decide
/-- 95 P1 and 2.4: the records. -/
theorem test_decode_records :
    [0x01000000000001B8#64, 0x02000000000003E8#64, 0x03000000000001F4#64, 0x0400000000000000#64, 0x0500000000000000#64,
        0x0600000000000064#64, 0x0700000000000000#64].map (fun w => decode (.record w [])) =
      [.ok (.actSetFreq 440#32), .ok (.actGetMaxDuty 1000#32), .ok (.actSetDuty 500#32), .ok (.actEnable 0#32),
        .ok (.actDisable 0#32), .ok (.actSleep 100#32), .ok (.actWake 0#32)] := by decide
theorem test_decode_duty_out :
    decode (.record 0x08000000000000C0#64 [70#16, 30#16]) = .ok (.actDutyOut 192#32 [70#16, 30#16]) := by decide

/-! What the decoder rejects, by name -/

theorem test_reject_no_word : decode (.stream []) = .error .noWord := by decide
theorem test_reject_trailing : decode (.stream [0x20000000#32, 0x20000000#32]) = .error .trailingWords := by decide
theorem test_reject_incomplete : decodeCommand false [0x10000002#32, 0x01000064#32] = .error .incomplete := by decide
theorem test_reject_states :
    [0#4, 1#4, 11#4, 12#4, 13#4, 14#4, 15#4].map (fun c => decode (.fsmState c)) =
      List.replicate 7 (.error .noMicroStep) := by decide
theorem test_reject_act0 : decode (.record 0#64 []) = .error .unknownAct := by decide
theorem test_reject_act9 : decode (.record 0x0900000000000000#64 []) = .error .unknownAct := by decide
theorem test_reject_zero_field : decode (.record 0x0400000100000000#64 []) = .error .recordZeroField := by decide
theorem test_reject_payload : decode (.record 0x0400000000000000#64 [0#16]) = .error .payloadOnToneRecord := by decide

/-! Words encode back to themselves -/

theorem test_encode_setmel : encode (.setmel 0#12 1#16 [⟨0x0A#8, 100#24⟩]) = .stream [0x10000001#32, 0x0A000064#32] := by
  decide
theorem test_encode_record : encode (.actSetFreq 440#32) = .record 0x01000000000001B8#64 [] := by decide

/-! ## States -/

/-- The block in FSM state `f`, channel 1, with nothing else set. -/
def blk (f : Fsm) : Block := { Block.reset with fsm := f, chan := 1#3 }

/-- A melody of a tone and a rest, as P1's under the default NOTE_FREQ: (440, 100), (0, 50). -/
def song : MelStore := [(0, ⟨440#32, 100#24⟩), (1, ⟨0#32, 50#24⟩)]

/-- A block that holds `song`. -/
def sung (f : Fsm) : Block := { blk f with melSet := true, melLen := 2#9, mel := song }

/-- The machine with block `b`, at NOW = 1000 and with ENV about to answer 1000. -/
def mk (b : Block) : State where
  block := b
  port := { stream := [], ended := false, responses := [] }
  out := { tone := [], led := [] }
  env :=
    { now := 1000, chanFreq := 0#32, chanDuty := 0#16, chanOn := false, suspended := none, toneApplied := 0,
      ledApplied := 0, transmitted := [] }
  choices := { events := [], eventCount := 0, answers := [1000#16], answerCount := 0 }

/-- `s` with HOST's words `ws` in its stream. -/
def sent (ws : List Word) (s : State) : State := { s with port := { s.port with stream := ws } }

/-- `s` with its stream ended. -/
def ended (s : State) : State := { s with port := { s.port with ended := true } }

/-- The next state of an outcome. -/
def after : Host.Outcome State Fault Refusal → Option State
  | .next t => some t
  | .fault _ => none
  | .refused _ => none

/-- The responses and STATUS after an instruction. -/
def answers (i : Instr) (s : State) : Option (List Response × Word) :=
  (after (exec i s)).map fun t => (t.port.responses, t.block.statusWord)

/-- The responses, the words left, and STATUS after the HOST step of the words `ws`. -/
def host (ws : List Word) (s : State) : Option (List Response × List Word × Word) :=
  (after (step ((sent ws s).withEvent .host))).map fun t => (t.port.responses, t.port.stream, t.block.statusWord)

/-! ## SETMEL (95 2.3) -/

/-- N = 0 sets an empty melody. -/
theorem test_setmel_empty : answers (.setmel 0#12 0#16 []) (mk (blk .unset)) = some ([⟨0x10000000#32, []⟩], 0x11#32) := by
  decide

/-- E2: the third entry is unresolved, and the melody is the first two. -/
theorem test_setmel_truncates :
    (after (exec (.setmel 0#12 4#16 [⟨0x01#8, 100#24⟩, ⟨0x05#8, 200#24⟩, ⟨0xFF#8, 999#24⟩, ⟨0x08#8, 300#24⟩])
        (mk (blk .unset)))).map
      (fun t => (t.port.responses, t.block.statusWord, t.block.melLen, t.block.truncIdx)) =
      some ([⟨0x10000001#32, []⟩], 0x31#32, 2#9, 2#9) := by decide

/-- E2: the frequencies stored are those of C4 and E4. -/
theorem test_setmel_freqs :
    ((resolvePrefix [⟨0x01#8, 100#24⟩, ⟨0x05#8, 200#24⟩, ⟨0xFF#8, 999#24⟩]).map (·.freq)) =
      [Config.noteFreq 1#8, Config.noteFreq 5#8] := rfl

/-- R164: 257 entries are one too many. -/
theorem test_setmel_capacity :
    answers (.setmel 0#12 257#16 (List.replicate 257 ⟨0#8, 1#24⟩)) (mk (blk .idle)) =
      some ([⟨0x10000002#32, []⟩], 0x1#32) := by decide +kernel

/-! ## PLAY, RUN, STOP (95 2.4) -/

theorem test_play_unset : answers (.play 0#28) (mk (blk .unset)) = some ([⟨0x20000009#32, []⟩], 0x100F#32) := by decide
theorem test_play_idle :
    (after (exec (.play 0#28) (mk (sung .idle)))).map (fun t => (t.block.fsm, t.block.idx, t.block.loop)) =
      some (.fetch, 0#9, false) := by decide
/-- P6: a set melody of no entries, truncated at entry 0. -/
theorem test_run_empty :
    answers (.run 0#28) (mk { blk .idle with melSet := true, trunc := true }) =
      some ([⟨0x3000000A#32, []⟩], 0x203F#32) := by decide
theorem test_run_idle :
    (after (exec (.run 0#28) (mk (sung .idle)))).map (fun t => (t.block.fsm, t.block.idx, t.block.loop)) =
      some (.fetch, 0#9, true) := by decide
/-- A STOP in the WAIT of a rest: STATUS 0x18 becomes 0x98. -/
theorem test_stop_wait : answers (.stop 0#28) (mk (sung .wait)) = some ([⟨0x40000000#32, []⟩], 0x98#32) := by decide
theorem test_stop_fault :
    answers (.stop 0#28) (mk { blk .fault with fault := .emptyMelodyPlayback }) =
      some ([⟨0x40000004#32, []⟩], 0x100F#32) := by decide

/-! ## ENCODE (95 2.5) -/

/-- P3: the four bit patterns, at M = 100. -/
theorem test_encode_patterns :
    dutyBuffer 100#16 [⟨0#8, 0#8, 255#8, 0#8⟩, ⟨0#8, 0x12#8, 0x34#8, 0x56#8⟩] =
      List.replicate 8 70#16 ++ List.replicate 16 30#16 ++
        [30#16, 30#16, 70#16, 70#16, 30#16, 70#16, 30#16, 30#16, 30#16, 30#16, 30#16, 70#16, 30#16, 30#16, 70#16, 30#16,
          30#16, 70#16, 30#16, 70#16, 30#16, 70#16, 70#16, 30#16] := by decide

/-- M = 65535 with pixel 0 white: 45874 and 19660, and one record of operand 192; also in FAULT. -/
theorem test_encode_extremes :
    (after (exec (.encode 0#12 65535#16 (⟨0#8, 255#8, 255#8, 255#8⟩ :: List.replicate 7 ⟨0#8, 0#8, 0#8, 0#8⟩))
        (mk (blk .fault)))).map (fun t => (t.out.led, t.port.responses, t.out.tone)) =
      some ([⟨1000, 0x08000000000000C0#64, List.replicate 24 45874#16 ++ List.replicate 168 19660#16⟩],
        [⟨0x50000000#32, []⟩], []) := by decide +kernel

/-! ## RESOLVE (95 2.2), RDREG, RDMEL (95 2.6) -/

theorem test_resolve_rest :
    answers (.resolve 0#20 0x00#8) (mk (blk .idle)) = some ([⟨0x60000100#32, [0#32]⟩], 1#32) := by decide
theorem test_resolve_unknown :
    answers (.resolve 0#20 0x1A#8) (mk (blk .idle)) = some ([⟨0x60000000#32, [0#32]⟩], 1#32) := by decide
/-- R144's table, which the vectors assume: C4, A4 and C6. -/
theorem test_default_note_freq :
    [0x01#8, 0x0A#8, 0x19#8].map Config.defaultNoteFreq = [0x106#32, 0x1B8#32, 0x417#32] := by decide
/-- 95 2.4: DEADLINE = 0x1_0000_0010. -/
theorem test_rdreg_deadline :
    [8#4, 9#4].map (fun r => (answers (.rdreg 0#24 r) (mk { sung .wait with deadline := 0x100000010 })).map (·.1)) =
      [some [⟨0x70000000#32, [0x10#32]⟩], some [⟨0x70000000#32, [1#32]⟩]] := by decide
/-- P1 in the WAIT of entry 0: WAIT, MEL_SET, OUT_EN. -/
theorem test_rdreg_status :
    (answers (.rdreg 0#24 0#4) (mk { sung .wait with outEn := true, curFreq := 440#32 })).map (·.1) =
      some [⟨0x70000000#32, [0x118#32]⟩] := by decide
theorem test_rdmel_last :
    (answers (.rdmel 0#20 1#8) (mk (sung .idle))).map (·.1) = some [⟨0x80000000#32, [0#32, 50#32]⟩] := by decide
theorem test_rdmel_range :
    (answers (.rdmel 0#20 2#8) (mk (sung .idle))).map (·.1) = some [⟨0x80000008#32, []⟩] := by decide

/-! ## Reserved, illegal and malformed words (95 2.1), through step -/

/-- A reserved bit of SETMEL: both entry words are consumed, and the word after them stays. -/
theorem test_step_reserved :
    host [0x10010002#32, 0x01000064#32, 0x00000032#32, 0x20000000#32] (mk (blk .unset)) =
      some ([⟨0x10000006#32, []⟩], [0x20000000#32], 0#32) := by decide
/-- A pixel's reserved bits. -/
theorem test_step_reserved_pixel :
    host (0x50000064#32 :: 0x01000000#32 :: List.replicate 7 0#32) (mk (blk .unset)) =
      some ([⟨0x50000006#32, []⟩], [], 0#32) := by decide
/-- An all-zero word does nothing but answer. -/
theorem test_step_illegal0 : host [0#32] (mk (blk .unset)) = some ([⟨0x00000005#32, []⟩], [], 0#32) := by decide
theorem test_step_illegal9 : host [0x90000000#32] (mk (blk .unset)) = some ([⟨0x90000005#32, []⟩], [], 0#32) := by decide
theorem test_step_illegalA : host [0xA0000000#32] (mk (blk .unset)) = some ([⟨0xA0000005#32, []⟩], [], 0#32) := by decide
theorem test_step_illegalB : host [0xB0000000#32] (mk (blk .unset)) = some ([⟨0xB0000005#32, []⟩], [], 0#32) := by decide
theorem test_step_illegalC : host [0xC0000000#32] (mk (blk .unset)) = some ([⟨0xC0000005#32, []⟩], [], 0#32) := by decide
theorem test_step_illegalD : host [0xD0000000#32] (mk (blk .unset)) = some ([⟨0xD0000005#32, []⟩], [], 0#32) := by decide
theorem test_step_illegalE : host [0xE0000000#32] (mk (blk .unset)) = some ([⟨0xE0000005#32, []⟩], [], 0#32) := by decide
theorem test_step_illegalF :
    host [0xFFFFFFFF#32, 7#32] (mk (blk .unset)) = some ([⟨0xF0000005#32, []⟩], [7#32], 0#32) := by decide
/-- The stream ends inside a SETMEL. -/
theorem test_step_malformed :
    host [0x10000002#32, 0x01000064#32] (ended (mk (blk .unset))) = some ([⟨0x10000007#32, []⟩], [], 0#32) := by decide
/-- While it goes on, the HOST step waits. -/
theorem test_step_waits :
    host [0x10000002#32, 0x01000064#32] (mk (blk .unset)) = some ([], [0x10000002#32, 0x01000064#32], 0#32) := by decide
/-- HOST is held mid-segment. -/
theorem test_step_held : host [0x40000000#32] (mk (sung .sleep)) = some ([], [0x40000000#32], 0x17#32) := by decide

/-! ## ENTRY and PIXEL, through step -/

theorem test_step_entry :
    (after (step ((sent [0x10000002#32] (mk (blk .unset))).withEvent (.send 0x01000064#32)))).map (·.port.stream) =
      some [0x10000002#32, 0x01000064#32] := by decide
theorem test_fetch_entry :
    (fetch ((sent [0x10000002#32] (mk (blk .unset))).withEvent (.send 0x01000064#32))).1 =
      some (.entry 1#8 100#24) := by decide
theorem test_fetch_pixel :
    (fetch ((sent [0x50000064#32, 0#32] (mk (blk .unset))).withEvent (.send 0x00123456#32))).1 =
      some (.pixel 0#8 0x12#8 0x34#8 0x56#8) := by decide
theorem test_fetch_header :
    (fetch ((sent [0x10000001#32, 0#32] (mk (blk .unset))).withEvent (.send 0x20000000#32))).1 = none := by decide

/-! ## The micro-steps (95 2.4) -/

/-- What a micro-step leaves: the block's fields it may write, and the records it emitted. -/
def micro (i : Instr) (s : State) : Option (Fsm × BitVec 9 × Hz × Millis × List ToneRecord) :=
  (after (exec i s)).map fun t => (t.block.fsm, t.block.idx, t.block.curFreq, t.block.curDur, t.out.tone)

theorem test_fetch_tone :
    micro .ustepFetch (mk (sung .fetch)) = some (.setfreq, 0#9, 440#32, 100#24, []) := by decide
theorem test_fetch_wrap :
    micro .ustepFetch (mk { sung .fetch with idx := 2#9, loop := true }) = some (.fetch, 0#9, 0#32, 0#24, []) := by decide
theorem test_setfreq :
    micro .ustepSetfreq (mk { sung .setfreq with curFreq := 440#32 }) =
      some (.getmax, 0#9, 440#32, 0#24, [⟨1000, 0x01000000000001B8#64⟩]) := by decide
theorem test_getmax :
    (after (exec .ustepGetmax (mk (sung .getmax)))).map (fun t => (t.block.maxd, t.out.tone, t.choices.answers)) =
      some (1000#16, [⟨1000, 0x02000000000003E8#64⟩], []) := by decide
/-- An odd maximum rounds down. -/
theorem test_setduty_odd :
    (after (exec .ustepSetduty (mk { sung .setduty with maxd := 1001#16 }))).map (·.out.tone) =
      some [⟨1000, 0x03000000000001F4#64⟩] := by decide
theorem test_setduty_max :
    (after (exec .ustepSetduty (mk { sung .setduty with maxd := 65535#16 }))).map (·.out.tone) =
      some [⟨1000, 0x0300000000007FFF#64⟩] := by decide
theorem test_enable :
    (after (exec .ustepEnable (mk (sung .enable)))).map (fun t => (t.block.fsm, t.block.outEn, t.out.tone)) =
      some (.sleep, true, [⟨1000, 0x0400000000000000#64⟩]) := by decide
theorem test_sleep :
    (after (exec .ustepSleep (mk { sung .sleep with curDur := 100#24 }))).map
        (fun t => (t.block.fsm, t.block.deadline, t.out.tone)) =
      some (.wait, 1100, [⟨1000, 0x0600000000000064#64⟩]) := by decide
/-- SLEEP 0 still enters WAIT. -/
theorem test_sleep_zero :
    (after (exec .ustepSleep (mk (sung .sleep)))).map (fun t => (t.block.fsm, t.block.deadline)) =
      some (.wait, 1000) := by decide
theorem test_wait_holds :
    after (exec .ustepWait (mk { sung .wait with deadline := 1001 })) = some (mk { sung .wait with deadline := 1001 }) := by
  decide
theorem test_wait_wakes :
    micro .ustepWait (mk { sung .wait with deadline := 1000, curFreq := 440#32 }) =
      some (.disable, 0#9, 440#32, 0#24, [⟨1000, 0x0700000000000000#64⟩]) := by decide
theorem test_disable :
    (after (exec .ustepDisable (mk { sung .disable with outEn := true }))).map
        (fun t => (t.block.fsm, t.block.outEn, t.out.tone)) =
      some (.next, false, [⟨1000, 0x0500000000000000#64⟩]) := by decide
theorem test_next : micro .ustepNext (mk (sung .next)) = some (.fetch, 1#9, 0#32, 0#24, []) := by decide
theorem test_next_stop :
    (after (exec .ustepNext (mk { sung .next with idx := 1#9, loop := true, stopReq := true }))).map
        (fun t => (t.block.fsm, t.block.idx, t.block.loop, t.block.stopReq)) =
      some (.idle, 0#9, false, false) := by decide
/-- SEQ runs the micro-step of FSM_STATE. -/
theorem test_step_seq :
    (after (step ((mk { sung .setfreq with curFreq := 440#32 }).withEvent .seq))).map (·.out.tone) =
      some [⟨1000, 0x01000000000001B8#64⟩] := by decide

/-! ## The records, as ENV takes them (R251 to R258) -/

/-- What ENV holds of the tone channel after a record. -/
def chan (i : Instr) : Option (Hz × Duty × Bool × Option Word) :=
  (after (exec i (mk (blk .idle)))).map fun t => (t.env.chanFreq, t.env.chanDuty, t.env.chanOn, t.env.suspended)

theorem test_act_set_freq : chan (.actSetFreq 440#32) = some (440#32, 0#16, false, none) := by decide
theorem test_act_get_max_duty : chan (.actGetMaxDuty 1000#32) = some (0#32, 0#16, false, none) := by decide
theorem test_act_set_duty : chan (.actSetDuty 500#32) = some (0#32, 500#16, false, none) := by decide
theorem test_act_enable : chan (.actEnable 0#32) = some (0#32, 0#16, true, none) := by decide
theorem test_act_disable :
    (after (exec (.actDisable 0#32)
        { mk (blk .idle) with env := { (mk (blk .idle)).env with chanOn := true } })).map (·.env.chanOn) =
      some false := by decide
theorem test_act_sleep : chan (.actSleep 100#32) = some (0#32, 0#16, false, some 100#32) := by decide
theorem test_act_wake :
    (after (exec (.actWake 0#32)
        { mk (blk .idle) with env := { (mk (blk .idle)).env with suspended := some 1#32 } })).map (·.env.suspended) =
      some none := by decide
theorem test_act_duty_out :
    (after (exec (.actDutyOut 192#32 [70#16]) (mk (blk .idle)))).map (·.env.transmitted) = some [[70#16]] := by decide

/-! ## Reset (95 2.7) -/

/-- A reset in WAIT with OUT_EN = 1 emits nothing, and leaves the channel on. -/
theorem test_reset_in_wait :
    (after (step (({ mk { sung .wait with outEn := true, curFreq := 440#32 } with
          env := { (mk (blk .wait)).env with chanOn := true } } : State).withEvent .reset))).map
        (fun t => (t.block.statusWord, t.out.tone, t.env.chanOn, t.block.melLen)) =
      some (0#32, [], true, 0#9) := by decide
/-- R308, R342: the command that HOST could run before a reset, the partial one after it, and the end of the stream are
gone. -/
theorem test_reset_stream :
    (after (step ((ended (sent [0x20000000#32, 0x10000002#32, 0#32] (mk (sung .idle)))).withEvent .reset))).map (·.port) =
      some { stream := [], ended := false, responses := [] } := by decide
/-- R342: after a reset in the middle of a SETMEL, the first word sent is a header. -/
theorem test_reset_header :
    (after (step ((sent [0x10000002#32] (mk (blk .unset))).withEvent .reset))).map
        (fun t => ((fetch (t.withEvent (.send 0x20000000#32))).1, (fetch (t.withEvent (.send 0x20000000#32))).2.port.stream)) =
      some (none, [0x20000000#32]) := by decide

/-! ## Placing an instruction for the host -/

theorem test_place_play :
    (after (step ((mk (blk .unset)).withFetchWord 32 0x20000000))).map (·.block.statusWord) = some 0x100F#32 := by decide
theorem test_table_word_pixel_count :
    decodeTableWord 32 0x50000064 =
      some (.encode 0#12 100#16 (List.replicate 8 ⟨0#8, 0#8, 0#8, 0#8⟩)) := by decide

/-! ## The assembler (95 E2, P1, P3, P5) -/

/-- E2. -/
theorem test_asm_setmel :
    assemble "setmel C4:100, E4:200, B#4:999, G4:300" =
      .ok [0x10000004#32, 0x01000064#32, 0x050000C8#32, 0xFF0003E7#32, 0x0800012C#32] := by decide
/-- P1, with its comments. -/
theorem test_asm_program :
    assemble "setmel A4:100, _:50 ; two words\nplay\nrdstatus" =
      .ok [0x10000002#32, 0x0A000064#32, 0x00000032#32, 0x20000000#32, 0x70000000#32] := by decide
/-- P3. -/
theorem test_asm_encode :
    assemble "encode 100, (0,255,0), (255,0,0), (0,0,255), (0x12,0x34,0x56), (0,0,0), (0,0,0), (0,0,0), (0,0,0)" =
      .ok [0x50000064#32, 0x0000FF00#32, 0x00FF0000#32, 0x000000FF#32, 0x00123456#32, 0#32, 0#32, 0#32, 0#32] := by decide
/-- P2 and R117. -/
theorem test_asm_pseudo :
    assemble "rdlen\nrdreg TRUNC_IDX\nrdmel 2\nplayloop\nsetmel rest 50\nresolve c4\n.word 0x20000001" =
      .ok [0x70000001#32, 0x70000003#32, 0x80000002#32, 0x30000000#32, 0x10000001#32, 0x00000032#32, 0x600000FF#32,
        0x20000001#32] := by decide
/-- R115: what the assembler refuses. -/
theorem test_asm_refusals :
    ["encode 100, (0,0,0)", "encode 65536, (0,0,0), (0,0,0), (0,0,0), (0,0,0), (0,0,0), (0,0,0), (0,0,0), (0,0,0)",
        "setmel C4:16777216", "jump", "rdreg 16", "setmel C4"].map assemble =
      [.error .tripletCount, .error .maxdRange, .error .durationRange, .error .unknownCommand, .error .registerRange,
        .error .badSyntax] := by decide

/-! ## Witnesses: for every statement with hypotheses, a state and operands that meet them together -/

/-- The block of `sung f` while entry 0, the tone, is played. -/
def toned (f : Fsm) : Block := { sung f with curFreq := 440#32, curDur := 100#24 }

/-- Eight black pixels. -/
def black : List PixelWord := List.replicate 8 ⟨0#8, 0#8, 0#8, 0#8⟩

theorem fetch_inv : (sung .fetch).Inv :=
  ⟨⟨by decide, by decide, by decide, by decide, by decide, by decide, by decide, by decide⟩, by decide, by decide,
    by decide, by decide⟩

theorem idle_inv : (sung .idle).Inv :=
  ⟨⟨by decide, by decide, by decide, by decide, by decide, by decide, by decide, by decide⟩, by decide, by decide,
    by decide, by decide⟩

theorem wait_inv : ({ toned .wait with outEn := true, deadline := 1000 } : Block).Inv :=
  ⟨⟨by decide, by decide, by decide, by decide, by decide, by decide, by decide, by decide⟩, by decide, by decide,
    by decide, by decide⟩

theorem unset_inv : (blk .unset).Inv :=
  ⟨⟨by decide, by decide, by decide, by decide, by decide, by decide, by decide, by decide⟩, by decide, by decide,
    by decide, by decide⟩

theorem test_hyp_decodeOfEncode :
    (Instr.setmel 0xFFF#12 1#16 [⟨0#8, 0#24⟩]).wellFormed = true ∧ (Instr.encode 0#12 0#16 black).wellFormed = true ∧
      (Instr.actSleep 0xFFFFFF#32).wellFormed = true := by decide

theorem test_hyp_everyHeader :
    operandCount 0x10000001#32 ≤ [0#32].length ∧ operandCount 0x50000000#32 ≤ (List.replicate 8 0#32).length ∧
      operandCount 0x20000000#32 ≤ ([] : List Word).length := by decide

theorem test_hyp_stepRuns_host :
    ((sent [0x20000000#32] (mk (blk .idle))).withEvent .host).nextEvent = .host ∧
      ((sent [0x20000000#32] (mk (blk .idle))).withEvent .host).block.fsm.hostEnabled = true ∧
      decodeCommand false [0x20000000#32] = .ok (.play 0#28, []) := by decide

theorem test_hyp_stepRuns_seq :
    ((mk (blk .next)).withEvent .seq).nextEvent = .seq ∧
      decodeUstep ((mk (blk .next)).withEvent .seq).block.fsm.code = .ok .ustepNext := by decide

theorem test_hyp_stepRuns_send :
    ((sent [0x10000001#32] (mk (blk .idle))).withEvent (.send 7#32)).nextEvent = .send 7#32 ∧
      ((sent [0x10000001#32] (mk (blk .idle))).withEvent (.send 7#32)).port.ended = false ∧
      decodeOperand (nextPosition [0x10000001#32]) 7#32 = some (.entry 0#8 7#24) := by decide

/-- A state whose traces hold one record each. -/
def traced : State :=
  { mk (blk .idle) with
    out := { tone := [⟨1000, 0x0400000000000000#64⟩], led := [⟨1000, 0x08000000000000C0#64, [0#16]⟩] } }

theorem test_hyp_stepRuns_tone :
    (traced.withEvent .applyTone).nextEvent = .applyTone ∧
      (traced.withEvent .applyTone).out.tone[(traced.withEvent .applyTone).env.toneApplied]? =
        some ⟨1000, 0x0400000000000000#64⟩ ∧
      decodeRecord 0x0400000000000000#64 [] = .ok (.actEnable 0#32) := by decide

theorem test_hyp_stepRuns_led :
    (traced.withEvent .takeBuffer).nextEvent = .takeBuffer ∧
      (traced.withEvent .takeBuffer).out.led[(traced.withEvent .takeBuffer).env.ledApplied]? =
        some ⟨1000, 0x08000000000000C0#64, [0#16]⟩ ∧
      decodeRecord 0x08000000000000C0#64 [0#16] = .ok (.actDutyOut 192#32 [0#16]) := by decide

theorem test_hyp_noInstruction_tick : ((mk (blk .idle)).withEvent (.tick 0)).nextEvent = .tick 0 := by decide
theorem test_hyp_noInstruction_end : ((mk (blk .idle)).withEvent .endStream).nextEvent = .endStream := by decide
theorem test_hyp_noInstruction_header :
    ((mk (blk .idle)).withEvent (.send 7#32)).nextEvent = .send 7#32 ∧
      ((mk (blk .idle)).withEvent (.send 7#32)).port.ended = false ∧ nextPosition [] = .header := by decide
theorem test_hyp_noInstruction_ended :
    ((ended (mk (blk .idle))).withEvent (.send 7#32)).nextEvent = .send 7#32 ∧
      ((ended (mk (blk .idle))).withEvent (.send 7#32)).port.ended = true := by decide
theorem test_hyp_noInstruction_waits :
    ((sent [0x10000001#32] (mk (blk .idle))).withEvent .host).nextEvent = .host ∧
      ((sent [0x10000001#32] (mk (blk .idle))).withEvent .host).port.ended = false ∧
      ([] : List Word).length < operandCount 0x10000001#32 := by decide

theorem test_hyp_hostHeld :
    ((mk (blk .sleep)).withEvent .host).block.fsm.hostEnabled = false ∧ (Instr.illegalOp0 0#28).isCommand = true ∧
      ((mk (blk .sleep)).withEvent .host).nextEvent = .host := by decide

/-- A state in which the next step is HOST's, with the words `ws` in the stream. -/
def hostAt (ws : List Word) : State := (sent ws (mk (blk .wait))).withEvent .host

/-- A HOST step is next, and its header is `h`, followed by `ws`. -/
def HostNext (s : State) (h : Word) (ws : List Word) : Prop :=
  s.nextEvent = .host ∧ s.block.fsm.hostEnabled = true ∧ s.port.stream = h :: ws

theorem hostNext_hostAt (h : Word) (ws : List Word) : HostNext (hostAt (h :: ws)) h ws := ⟨rfl, rfl, rfl⟩

theorem test_hyp_consumes :
    HostNext (hostAt [0x10000001#32, 5#32]) 0x10000001#32 [5#32] ∧
      (if (0x10000001#32 : Word).extractLsb' 28 4 = 0x1#4 then ((0x10000001#32 : Word).extractLsb' 0 16).toNat
        else if (0x10000001#32 : Word).extractLsb' 28 4 = 0x5#4 then 8 else 0) ≤ [5#32].length :=
  ⟨hostNext_hostAt _ _, by decide⟩

theorem test_hyp_reserved_setmel :
    HostNext (hostAt [0x18000000#32]) 0x18000000#32 [] ∧ operandCount 0x18000000#32 ≤ 0 ∧
      opOf 0x18000000#32 = 0x1#4 ∧ (0x18000000#32 : Word).extractLsb' 16 12 ≠ 0#12 :=
  ⟨hostNext_hostAt _ _, by decide⟩
theorem test_hyp_reserved_play :
    HostNext (hostAt [0x28000000#32]) 0x28000000#32 [] ∧ operandCount 0x28000000#32 ≤ 0 ∧
      opOf 0x28000000#32 = 0x2#4 ∧ (0x28000000#32 : Word).extractLsb' 0 28 ≠ 0#28 :=
  ⟨hostNext_hostAt _ _, by decide⟩
theorem test_hyp_reserved_run :
    HostNext (hostAt [0x30000001#32]) 0x30000001#32 [] ∧ operandCount 0x30000001#32 ≤ 0 ∧
      opOf 0x30000001#32 = 0x3#4 ∧ (0x30000001#32 : Word).extractLsb' 0 28 ≠ 0#28 :=
  ⟨hostNext_hostAt _ _, by decide⟩
theorem test_hyp_reserved_stop :
    HostNext (hostAt [0x40000001#32]) 0x40000001#32 [] ∧ operandCount 0x40000001#32 ≤ 0 ∧
      opOf 0x40000001#32 = 0x4#4 ∧ (0x40000001#32 : Word).extractLsb' 0 28 ≠ 0#28 :=
  ⟨hostNext_hostAt _ _, by decide⟩
theorem test_hyp_reserved_encode :
    HostNext (hostAt (0x50010000#32 :: List.replicate 8 0#32)) 0x50010000#32 (List.replicate 8 0#32) ∧
      operandCount 0x50010000#32 ≤ (List.replicate 8 0#32).length ∧ opOf 0x50010000#32 = 0x5#4 ∧
      (0x50010000#32 : Word).extractLsb' 16 12 ≠ 0#12 :=
  ⟨hostNext_hostAt _ _, by decide⟩
/-- The reserved bit is in the last pixel word. -/
theorem test_hyp_reserved_pixel :
    HostNext (hostAt (0x50000000#32 :: (List.replicate 7 0#32 ++ [0x80000000#32]))) 0x50000000#32
        (List.replicate 7 0#32 ++ [0x80000000#32]) ∧
      operandCount 0x50000000#32 ≤ (List.replicate 7 0#32 ++ [0x80000000#32]).length ∧ opOf 0x50000000#32 = 0x5#4 ∧
      ∃ w ∈ (List.replicate 7 0#32 ++ [0x80000000#32]).take 8, w.extractLsb' 24 8 ≠ 0#8 :=
  ⟨hostNext_hostAt _ _, by decide, by decide, 0x80000000#32, by decide, by decide⟩
theorem test_hyp_reserved_resolve :
    HostNext (hostAt [0x60000100#32]) 0x60000100#32 [] ∧ operandCount 0x60000100#32 ≤ 0 ∧
      opOf 0x60000100#32 = 0x6#4 ∧ (0x60000100#32 : Word).extractLsb' 8 20 ≠ 0#20 :=
  ⟨hostNext_hostAt _ _, by decide⟩
theorem test_hyp_reserved_rdreg :
    HostNext (hostAt [0x70000010#32]) 0x70000010#32 [] ∧ operandCount 0x70000010#32 ≤ 0 ∧
      opOf 0x70000010#32 = 0x7#4 ∧ (0x70000010#32 : Word).extractLsb' 4 24 ≠ 0#24 :=
  ⟨hostNext_hostAt _ _, by decide⟩
theorem test_hyp_reserved_rdmel :
    HostNext (hostAt [0x88000000#32]) 0x88000000#32 [] ∧ operandCount 0x88000000#32 ≤ 0 ∧
      opOf 0x88000000#32 = 0x8#4 ∧ (0x88000000#32 : Word).extractLsb' 8 20 ≠ 0#20 :=
  ⟨hostNext_hostAt _ _, by decide⟩

theorem test_hyp_illegal_zero : HostNext (hostAt [0#32]) 0#32 [] ∧ opOf 0#32 = 0x0#4 := ⟨hostNext_hostAt _ _, by decide⟩
theorem test_hyp_illegal_nine :
    HostNext (hostAt [0x90000000#32]) 0x90000000#32 [] ∧ 9 ≤ (opOf 0x90000000#32).toNat :=
  ⟨hostNext_hostAt _ _, by decide⟩

/-- One operand word is missing. -/
theorem test_hyp_malformed :
    HostNext (ended (hostAt [0x10000002#32, 0#32])) 0x10000002#32 [0#32] ∧
      [0#32].length < operandCount 0x10000002#32 ∧ (ended (hostAt [0x10000002#32, 0#32])).port.ended = true :=
  ⟨⟨rfl, rfl, rfl⟩, by decide, rfl⟩
theorem test_hyp_malformed_encode :
    HostNext (ended (hostAt (0x50000000#32 :: List.replicate 7 0#32))) 0x50000000#32 (List.replicate 7 0#32) ∧
      (List.replicate 7 0#32).length < operandCount 0x50000000#32 :=
  ⟨⟨rfl, rfl, rfl⟩, by decide⟩

theorem test_hyp_resetPuts :
    ∃ s t : State, s.nextEvent = .reset ∧ step s = .next t ∧ t.block = t.block :=
  ⟨(mk (toned .wait)).withEvent .reset, _, rfl, rfl, rfl⟩

theorem test_hyp_resetActs :
    ((sent [0x10000001#32] (mk (blk .wait))).withEvent .reset).nextEvent = .reset ∧
      ((sent [0x10000001#32] (mk (blk .wait))).withEvent .reset).port.stream = [0x10000001#32] ∧
      ([] : List Word).length < operandCount 0x10000001#32 ∧
      ((sent [0x10000001#32] (mk (blk .wait))).withEvent .reset).block.fsm.hostEnabled = true := by decide

theorem test_hyp_afterReset :
    State.reset.block = Block.reset ∧ (List.replicate 256 (⟨0#8, 0#24⟩ : EntryWord)).length = (256#16).toNat ∧
      black.length = 8 ∧ (∀ p ∈ black, p.rsv = 0#8) ∧ (9#4).toNat < 10 := by
  exact ⟨rfl, List.length_replicate, by decide, by decide, by decide⟩

theorem test_hyp_setmelStores :
    ((mk (blk .unset)).block.fsm = .unset ∨ (mk (blk .unset)).block.fsm = .idle) ∧
      ((mk (blk .idle)).block.fsm = .unset ∨ (mk (blk .idle)).block.fsm = .idle) ∧
      (List.replicate 256 (⟨0#8, 0#24⟩ : EntryWord)).length = (256#16).toNat ∧ (256#16).toNat ≤ 256 ∧
      MelStore.wf (mk (sung .idle)).block.mel = true := by
  exact ⟨.inl rfl, .inr rfl, List.length_replicate, by decide, by decide⟩

theorem test_hyp_rejects_setmel :
    (mk (blk .wait)).block.fsm.hostEnabled = true ∧ (mk (blk .fault)).block.fsm.hostEnabled = true ∧
      ([] : List EntryWord).length < (1#16).toNat ∧ (0#16).toNat ≤ ([] : List EntryWord).length ∧ 1#12 ≠ 0#12 ∧
      256 < (257#16).toNat := by decide
theorem test_hyp_rejects_setmel_capacity :
    (257#16).toNat ≤ (List.replicate 257 (⟨0#8, 0#24⟩ : EntryWord)).length ∧ (mk (blk .idle)).block.fsm = .idle :=
  ⟨by rw [List.length_replicate]; decide, rfl⟩
theorem test_hyp_rejects_play :
    (mk (blk .unset)).block.fsm.hostEnabled = true ∧ 1#28 ≠ 0#28 ∧ (mk (blk .fault)).block.fsm = .fault ∧
      (mk (blk .wait)).block.fsm = .wait := by decide

theorem test_hyp_truncation_first :
    rom (0x1A#8) = none ∧ ∀ (k : Nat) (hk : k < [(⟨0#8, 0#24⟩ : EntryWord), ⟨0x1A#8, 0#24⟩].length), k < 1 →
      rom [(⟨0#8, 0#24⟩ : EntryWord), ⟨0x1A#8, 0#24⟩][k].note ≠ none := by
  refine ⟨by decide, fun k hk h => ?_⟩
  obtain rfl : k = 0 := by omega
  exact (nomatch ·)

theorem test_hyp_truncation_none : ∀ e ∈ [(⟨0#8, 0#24⟩ : EntryWord)], rom e.note ≠ none := by decide

theorem test_hyp_capacity :
    (List.replicate 256 (⟨0#8, 0#24⟩ : EntryWord)).length = 256 ∧
      (∀ e ∈ List.replicate 256 (⟨0#8, 0#24⟩ : EntryWord), rom e.note ≠ none) ∧
      (List.replicate 257 (⟨0#8, 0#24⟩ : EntryWord)).length = 257 := by
  refine ⟨List.length_replicate, fun e he => ?_, List.length_replicate⟩
  rw [List.eq_of_mem_replicate he]
  decide

theorem test_hyp_setmelFrame :
    ∃ t, exec (.setmel 0#12 1#16 [⟨0#8, 5#24⟩]) (mk (sung .idle)) = .next t ∧ t.block.mel ≠ song :=
  ⟨_, rfl, by decide⟩

theorem test_hyp_playback :
    (mk (sung .idle)).block.fsm = .idle ∧ (mk (sung .idle)).block.melLen ≠ 0#9 ∧ (mk (blk .wait)).block.fsm = .wait ∧
      (mk (blk .unset)).block.fsm = .unset := by decide

theorem test_hyp_raising :
    (mk (blk .unset)).block.fsm = .unset ∧ (mk (blk .idle)).block.fsm = .idle ∧ (mk (blk .idle)).block.melLen = 0#9 := by
  decide
theorem test_hyp_raising_inv :
    (mk (blk .unset)).block.Inv ∧ ∃ t, exec (.play 0#28) (mk (blk .unset)) = .next t ∧ t.block.fsm = .fault :=
  ⟨unset_inv, _, rfl, rfl⟩

theorem test_hyp_faultState :
    (mk { blk .fault with fault := .emptyLoop }).block.fsm = .fault ∧ ([] : List EntryWord).length = (0#16).toNat := by
  decide

theorem test_hyp_onlyReset :
    ∃ t, step (((mk (blk .fault)).withEvent (.tick 1))) = .next t ∧ t.block.fsm = .fault := ⟨_, rfl, rfl⟩

theorem test_hyp_everyPass_starts :
    (Instr.play 0#28).isCommand = true ∧
      ∃ t, exec (.play 0#28) (mk (sung .idle)) = .next t ∧ (mk (sung .idle)).block.fsm ≠ .fetch ∧ t.block.fsm = .fetch :=
  ⟨rfl, _, rfl, by decide, rfl⟩
theorem test_hyp_everyPass_ends :
    (mk (blk .fetch)).block.fsm = .fetch ∧ (mk (blk .fetch)).block.idx = (mk (blk .fetch)).block.melLen ∧
      (mk { blk .next with stopReq := true }).block.fsm = .next ∧
      (mk { blk .next with stopReq := true }).block.stopReq = true := by decide
theorem test_hyp_everyPass_idle :
    (mk (sung .idle)).block.Inv ∧ ∃ t, step ((mk (sung .idle)).withEvent .seq) = .next t ∧ t.block.fsm = .idle :=
  ⟨idle_inv, _, rfl, rfl⟩

theorem test_hyp_noteTable :
    0x01 ≤ (0x01#8).toNat ∧ (0x19#8).toNat ≤ 0x19 ∧ 0x1A ≤ (0x1A#8).toNat ∧ 0x1A ≤ (0xFF#8).toNat := by decide

theorem test_hyp_resolve : (mk (blk .fault)).block.fsm.hostEnabled = true ∧ 1#20 ≠ 0#20 := by decide
theorem test_hyp_rdreg : 10 ≤ (10#4).toNat ∧ 10 ≤ (15#4).toNat ∧ 1#24 ≠ 0#24 := by decide
theorem test_hyp_status : (mk (blk .wait)).block.fsm.hostEnabled = true ∧ State.reset.block = Block.reset :=
  ⟨rfl, rfl⟩
theorem test_hyp_rdmel :
    (1#8).toNat < (mk (sung .idle)).block.melLen.toNat ∧ ¬ (2#8).toNat < (mk (sung .idle)).block.melLen.toNat ∧
      1#20 ≠ 0#20 := by decide

theorem test_hyp_others :
    (∃ t, exec (.rdmel 0#20 0#8) (mk (sung .wait)) = .next t) ∧ (Instr.rdmel 0#20 0#8).isMicroStep = false ∧
      (∀ rsv n es, Instr.rdmel 0#20 0#8 ≠ .setmel rsv n es) ∧ (∀ rsv, Instr.rdmel 0#20 0#8 ≠ .play rsv) ∧
      (∀ rsv, Instr.rdmel 0#20 0#8 ≠ .run rsv) ∧ ∀ rsv, Instr.rdmel 0#20 0#8 ≠ .stop rsv :=
  ⟨⟨_, rfl⟩, rfl, fun _ _ _ h => (nomatch h), fun _ h => (nomatch h), fun _ h => (nomatch h), fun _ h => (nomatch h)⟩

theorem test_hyp_encode :
    (mk (blk .fault)).block.fsm.hostEnabled = true ∧ black.length = 8 ∧ (∀ p ∈ black, p.rsv = 0#8) ∧ 191 < 192 ∧
      black[7]? = some ⟨0#8, 0#8, 0#8, 0#8⟩ := by decide
theorem test_hyp_encode_twice :
    ∃ t t', exec (.encode 0#12 1#16 black) (mk (blk .fault)) = .next t ∧
      exec (.encode 0#12 1#16 black) (mk (sung .wait)) = .next t' := ⟨_, _, rfl, rfl⟩

theorem test_hyp_fetch_loads :
    (mk (sung .fetch)).block.fsm = .fetch ∧
      (mk (sung .fetch)).block.idx.toNat < (mk (sung .fetch)).block.melLen.toNat ∧
      (mk (sung .fetch)).block.melLen.toNat ≤ 256 ∧ MelStore.read (mk (sung .fetch)).block.mel 0 = ⟨440#32, 100#24⟩ := by
  decide
/-- Entry 255 of a melody of 256 is the last one that FETCH loads. -/
theorem test_hyp_fetch_last : (255#9).toNat < (256#9).toNat ∧ (256#9).toNat ≤ 256 := by decide
theorem test_hyp_fetch_ends :
    (mk { sung .fetch with idx := 2#9, loop := true }).block.idx = 2#9 ∧
      (mk { sung .fetch with idx := 2#9, loop := true }).block.melLen = 2#9 ∧
      (mk { sung .fetch with idx := 2#9 }).block.loop = false := by decide

theorem test_hyp_toneSteps :
    (mk (toned .setfreq)).block.fsm = .setfreq ∧ (mk (toned .getmax)).block.fsm = .getmax ∧
      (mk (toned .setduty)).block.fsm = .setduty ∧ (mk (toned .enable)).block.fsm = .enable := by decide
theorem test_hyp_sleepWait :
    (mk (toned .sleep)).block.fsm = .sleep ∧ (mk { toned .wait with deadline := 1001 }).block.fsm = .wait ∧
      (mk { toned .wait with deadline := 1001 }).env.now < (mk { toned .wait with deadline := 1001 }).block.deadline ∧
      (mk { toned .wait with deadline := 1000 }).block.deadline ≤ (mk { toned .wait with deadline := 1000 }).env.now := by
  decide
theorem test_hyp_disableNext :
    (mk (toned .disable)).block.fsm = .disable ∧ (mk (sung .next)).block.fsm = .next ∧
      (mk (sung .next)).block.stopReq = false ∧
      (mk (sung .next)).block.idx.toNat < (mk (sung .next)).block.melLen.toNat ∧
      (mk { sung .next with stopReq := true }).block.stopReq = true := by decide

theorem test_hyp_microStep :
    Instr.ustepFetch.isMicroStep = true ∧ (∃ t, exec .ustepFetch (mk (sung .fetch)) = .next t) ∧
      decodeUstep (mk (sung .idle)).block.fsm.code ≠ .ok .ustepFetch :=
  ⟨rfl, ⟨_, rfl⟩, by decide⟩
theorem test_hyp_writers :
    ∃ t, exec .ustepSleep (mk (toned .sleep)) = .next t ∧ t.block.deadline ≠ (mk (toned .sleep)).block.deadline :=
  ⟨_, rfl, by decide⟩

theorem test_hyp_entry_rest :
    MelStore.read (mk { sung .fetch with idx := 1#9 }).block.mel (1#9).toNat = ⟨0#32, 50#24⟩ ∧ 440#32 ≠ 0#32 := by decide

theorem test_hyp_segment :
    (mk (sung .fetch)).block.Inv ∧ (mk { toned .wait with outEn := true, deadline := 1000 }).block.Inv ∧
      (mk { toned .wait with outEn := true, deadline := 1000 }).block.deadline ≤ 1000 :=
  ⟨fetch_inv, wait_inv, by decide⟩

theorem test_hyp_waitEnds :
    (mk (toned .wait)).block.fsm = .wait ∧ ∃ t, step ((mk (toned .wait)).withEvent .seq) = .next t ∧
      t.block.fsm = .disable := ⟨rfl, _, rfl, rfl⟩

/-- SEQ emits the ENABLE, and then ENV takes each record before the next comes. -/
def inTurn (n : Nat) : Event := if n = 0 then .seq else .applyTone

theorem test_hyp_channel :
    (mk (toned .enable)).LedHoldsBuffers ∧ (mk (toned .enable)).ChannelUpToDate ∧
      AppliedInTurn inTurn (mk (toned .enable)) := by
  refine ⟨nofun, rfl, fun n hn => ?_⟩
  cases n with
  | zero => rfl
  | succ n =>
    refine absurd ?_ hn
    rw [trajectory]
    cases h : step ((trajectory inTurn (mk (toned .enable)) (n + 1)).withEvent (inTurn (n + 1))) with
    | next t => simpa using congrArg (·.tone) (step_applyTone_out (by simp [inTurn]) h)
    | fault r => rfl
    | refused r => rfl

/-- The channel is on once the ENABLE has taken effect. -/
theorem test_channel_on : (trajectory inTurn (mk (toned .enable)) 2).env.chanOn = true := by decide

theorem test_hyp_blockReads : ∃ t, step ((mk (toned .getmax)).withEvent .seq) = .next t := ⟨_, rfl⟩

theorem test_hyp_keepsInv :
    ((mk (sung .fetch)).withEvent .seq).block.Inv ∧ ∃ t, step ((mk (sung .fetch)).withEvent .seq) = .next t :=
  ⟨fetch_inv, _, rfl⟩

/-- A step that changes the melody: the HOST step of a SETMEL of one rest. -/
theorem test_hyp_keepsMelody :
    MelStore.wf ((sent [0x10000001#32, 5#32] (mk (sung .idle))).withEvent .host).block.mel = true ∧
      ∃ t, step ((sent [0x10000001#32, 5#32] (mk (sung .idle))).withEvent .host) = .next t ∧ t.block.mel ≠ song :=
  ⟨by decide, _, rfl, by decide⟩

/-- A melody of one rest, on the CHANNEL that Config leaves open. -/
def rested : State :=
  mk { blk .idle with melSet := true, melLen := 1#9, mel := [(0, ⟨0#32, 50#24⟩)], chan := Config.channel }

theorem test_hyp_keepsLegal :
    MelStore.wf (rested.withEvent .seq).block.mel = true ∧ (rested.withEvent .seq).block.Legal ∧
      ∃ t, step (rested.withEvent .seq) = .next t := by
  refine ⟨by decide, ⟨.inl rfl, fun i hi => ?_, rfl, channel_range, Nat.zero_le _⟩, _, rfl⟩
  have h1 : i < 1 := hi
  obtain rfl : i = 0 := by omega
  exact .inl rfl

theorem test_hyp_deadlines :
    ((mk (toned .sleep)).withEvent .seq).DeadlinePassed ∧ ∃ t, step ((mk (toned .sleep)).withEvent .seq) = .next t :=
  ⟨fun _ => Nat.zero_le _, _, rfl⟩

/-- In the WAIT of P1's entry 0, with its five records in the trace. -/
def waiting : State :=
  { mk { toned .wait with outEn := true, maxd := 1000#16, deadline := 1100 } with
    out :=
      { tone :=
          [⟨1000, 0x01000000000001B8#64⟩, ⟨1000, 0x02000000000003E8#64⟩, ⟨1000, 0x03000000000001F4#64⟩,
            ⟨1000, 0x0400000000000000#64⟩, ⟨1000, 0x0600000000000064#64⟩]
        led := [] } }

theorem test_hyp_wakes :
    (waiting.withEvent .seq).WakesOnTime ∧ ∃ t, step (waiting.withEvent .seq) = .next t :=
  ⟨⟨by decide, by decide, by decide, by decide⟩, _, rfl⟩

theorem test_hyp_entriesInOrder :
    (waiting.withEvent .seq).block.Inv ∧ (waiting.withEvent .seq).EntriesInOrder [] ∧
      ∃ t, step (waiting.withEvent .seq) = .next t :=
  ⟨⟨⟨by decide, by decide, by decide, by decide, by decide, by decide, by decide, by decide⟩, by decide, by decide,
      by decide, by decide⟩, ⟨_, rfl, by decide⟩, _, rfl⟩

/-- The same with an entry that a reset cut short before it: only the records after it are in order. -/
theorem test_hyp_entriesInOrder_before :
    ({ waiting with out := { waiting.out with tone := ⟨900, 0x01000000000001B8#64⟩ :: waiting.out.tone } } : State).EntriesInOrder
      [⟨900, 0x01000000000001B8#64⟩] := ⟨_, rfl, by decide⟩

/-- A WAKE at 1099, before the SLEEP's 1000 + 100, is early. -/
theorem test_early_wake :
    wakesNotEarly none [⟨1000, 0x0600000000000064#64⟩, ⟨1099, 0x0700000000000000#64⟩] = false := by decide

/-- A second ENABLE inside an entry is out of order. -/
theorem test_out_of_order :
    TonePhase.boundary.afterAll [⟨1000, 0x01000000000001B8#64⟩, ⟨1000, 0x0400000000000000#64⟩] = none := by decide

/-- A schedule that is fair: NOW grows by 1, then SEQ steps, and so on. -/
def turns (n : Nat) : Event := if n % 2 = 0 then .tick 1 else .seq

theorem trajectory_now_le (σ : Nat → Event) (s : State) (n : Nat) :
    (trajectory σ s n).env.now ≤ (trajectory σ s (n + 1)).env.now := by
  rw [trajectory]
  cases h : step ((trajectory σ s n).withEvent (σ n)) with
  | next t => simpa using (step_move h).2
  | fault r => exact Nat.le_refl _
  | refused r => exact Nat.le_refl _

theorem trajectory_turns_now (s : State) (k : Nat) : k ≤ (trajectory turns s (2 * k)).env.now := by
  induction k with
  | zero => exact Nat.zero_le _
  | succ k ih =>
    have h2 := trajectory_now_le turns s (2 * k + 1)
    have h1 : (trajectory turns s (2 * k + 1)).env.now = (trajectory turns s (2 * k)).env.now + 1 := by
      rw [trajectory, show turns (2 * k) = .tick 1 by simp [turns], step_of_fetch (State.nextEvent_withEvent _ _)]
      rfl
    rw [show 2 * (k + 1) = 2 * k + 1 + 1 by omega]
    omega

theorem test_hyp_fair : Fair turns waiting ∧ waiting.block.fsm = .wait :=
  ⟨⟨fun n _ => ⟨2 * n + 1, by omega, by simp [turns]⟩, fun t => ⟨2 * t, trajectory_turns_now waiting t⟩⟩, rfl⟩

theorem test_hyp_assembled :
    assembleLine (.rdreg 15) = .ok [0x7000000F#32] ∧ (∀ w, AsmLine.rdreg 15 ≠ .word w) ∧
      (List.replicate 8 (255, 255, 255)).length = 8 ∧ 65535 ≤ 65535 ∧ 2 ^ 24 - 1 < 2 ^ 24 :=
  ⟨by decide, fun _ h => (nomatch h), by decide, by decide, by decide⟩

end Sys2Proof.Tests
end

/-! No run stops (spec/00_scope.md R14): every agent's step has a next state, a hold included. FETCH's stop is the one
case that needs a premise, and the bound of R48 on MEL_LEN is enough for it. -/

section

namespace Sys2Proof.Machine

variable {s : State}

/-- A HOST step has a next state, done or held. -/
theorem hostStep_has_next (s u : State) : ∃ t, hostStep s u = .next t := by
  cases hf : s.block.fsm.hostEnabled with
  | true => exact ⟨u, hostStep_enabled hf⟩
  | false => exact ⟨s, hostStep_held hf⟩

/-- A micro-step has a next state where its outcome in its own state is one. -/
theorem seqStep_has_next {f : Fsm} {o : Host.Outcome State Fault Refusal} (ho : ∃ t, o = .next t) :
    ∃ t, seqStep f s o = .next t := by
  obtain ⟨t, rfl⟩ := ho
  by_cases hf : s.block.fsm = f
  · exact ⟨t, seqStep_enabled hf⟩
  · exact ⟨s, seqStep_held hf⟩

/-- While MEL_LEN is at most 256 (R48), an IDX below it is the index of an entry, so that FETCH does not stop. -/
theorem execUstepFetch_has_next (hl : s.block.melLen.toNat ≤ Config.capacity) : ∃ t, execUstepFetch s = .next t := by
  refine seqStep_has_next ?_
  by_cases hi : s.block.idx.toNat < s.block.melLen.toNat
  · have hc : s.block.idx.toNat < Config.capacity := Nat.lt_of_lt_of_le hi hl
    exact ⟨_, by rw [if_pos hi, if_pos hc]⟩
  · exact ⟨_, if_neg hi⟩

/-- WAIT is held until its deadline, and then wakes (R190). -/
theorem execUstepWait_has_next (s : State) : ∃ t, execUstepWait s = .next t := by
  refine seqStep_has_next ?_
  by_cases hd : s.env.now < s.block.deadline
  · exact ⟨_, if_pos hd⟩
  · exact ⟨_, if_neg hd⟩

/-- No instruction stops or is refused where MEL_LEN is at most 256. -/
theorem exec_has_next (i : Instr) (hl : s.block.melLen.toNat ≤ Config.capacity) : ∃ t, exec i s = .next t := by
  cases i with
  | setmel _ _ _ | play _ | run _ | stop _ | encode _ _ _ | resolve _ _ | rdreg _ _ | rdmel _ _
  | illegalOp0 _ | illegalOp9 _ | illegalOpA _ | illegalOpB _ | illegalOpC _ | illegalOpD _ | illegalOpE _
  | illegalOpF _ => exact hostStep_has_next s _
  | ustepFetch => exact execUstepFetch_has_next hl
  | ustepWait => exact execUstepWait_has_next s
  | ustepSetfreq | ustepGetmax | ustepSetduty | ustepEnable | ustepSleep | ustepDisable | ustepNext =>
    exact seqStep_has_next ⟨_, rfl⟩
  | entry _ _ | pixel _ _ _ _ | actSetFreq _ | actGetMaxDuty _ | actSetDuty _ | actEnable _ | actDisable _
  | actSleep _ | actWake _ | actDutyOut _ _ => exact ⟨_, rfl⟩

/-- A choice that runs an instruction runs it in the block as it was. -/
theorem fetchFor_some_block {e : Event} {i : Instr} (h : (fetchFor e s).1 = some i) :
    (fetchFor e s).2.block = s.block := by
  obtain ⟨_, _, ⟨hb, _⟩ | ⟨_, hn, _⟩⟩ := fetchFor_still e s
  · exact hb
  · rw [hn] at h
    cases h

/-- Whatever the next choice is, a step has a next state where MEL_LEN is at most 256. -/
theorem step_has_next (hl : s.block.melLen.toNat ≤ Config.capacity) : ∃ t, step s = .next t := by
  have hb : ∀ i, (fetch s).1 = some i → (fetch s).2.block = s.block :=
    fun i h => (fetchFor_some_block h).trans s.afterEvent_block
  unfold step
  generalize fetch s = p at hb
  obtain ⟨_ | i, u⟩ := p
  case none => exact ⟨u, rfl⟩
  case some =>
    have hu : u.block = s.block := hb i rfl
    exact exec_has_next (s := u) i (by rw [hu]; exact hl)

end Sys2Proof.Machine

namespace Sys2Proof

/-- Settles O58: the invariant bounds MEL_LEN by the capacity (R48), which is all that a step needs. -/
theorem noRunStops : Obligations.NoRunStops :=
  fun _ hinv => Machine.step_has_next hinv.melLen_le

end Sys2Proof

end

/-! The block's invariant (spec/10_state.md R48): the reset state meets it, and every move of the block keeps it. -/

section

namespace Sys2Proof.Machine

variable {b c : Block}

/-- The invariant as one proposition, for `simp` to work on. -/
theorem Block.inv_iff : b.Inv ↔
    b.melLen.toNat ≤ Config.capacity ∧ b.idx.toNat ≤ b.melLen.toNat ∧
      (b.melSet = false → b.melLen = 0#9 ∧ b.trunc = false ∧ (b.fsm = .unset ∨ b.fsm = .fault)) ∧
      (b.fsm = .unset ∨ b.fsm = .idle ∨ b.fsm = .fault →
        b.idx = 0#9 ∧ b.loop = false ∧ b.stopReq = false ∧ b.outEn = false) ∧
      (b.outEn = true ↔ (b.fsm = .sleep ∨ b.fsm = .wait ∨ b.fsm = .disable) ∧ b.curFreq ≠ 0#32) ∧
      (b.fault ≠ .none ↔ b.fsm = .fault) ∧ (b.trunc = true → b.truncIdx = b.melLen) ∧
      (b.trunc = false → b.truncIdx = 0#9) ∧ (b.fsm.playing = true → b.idx.toNat < b.melLen.toNat) ∧
      (b.fsm = .setfreq ∨ b.fsm = .getmax ∨ b.fsm = .setduty ∨ b.fsm = .enable ∨ b.fsm = .disable →
        b.curFreq ≠ 0#32) ∧
      (b.loop = true → b.melLen ≠ 0#9) ∧ (b.fsm = .unset → b.melSet = false) :=
  ⟨fun ⟨⟨h1, h2, h3, h4, h5, h6, h7, h8⟩, h9, h10, h11, h12⟩ => ⟨h1, h2, h3, h4, h5, h6, h7, h8, h9, h10, h11, h12⟩,
    fun ⟨h1, h2, h3, h4, h5, h6, h7, h8, h9, h10, h11, h12⟩ => ⟨⟨h1, h2, h3, h4, h5, h6, h7, h8⟩, h9, h10, h11, h12⟩⟩

theorem Block.reset_inv : Block.reset.Inv := by
  rw [Block.inv_iff]
  decide

/-- MEL_LEN of an accepted SETMEL is the number of entries that resolve: it fits the register (R35, R162). -/
theorem Block.install_melLen (b : Block) {es : List EntryWord} (hl : es.length ≤ Config.capacity) :
    (b.install es).melLen.toNat = (resolvePrefix es).length := by
  have hp : (resolvePrefix es).length ≤ 256 := (length_resolvePrefix_le es).trans hl
  simp only [Block.install, BitVec.toNat_ofNat]
  omega

/-- An accepted SETMEL, which needs UNSET or IDLE, leaves an IDLE block that meets the invariant (R162). -/
theorem Block.Inv.install (h : b.Inv) {es : List EntryWord} (hf : b.fsm = .unset ∨ b.fsm = .idle)
    (hl : es.length ≤ Config.capacity) : (b.install es).Inv := by
  obtain ⟨hidx, hloop, hstop, hout⟩ := h.at_rest (hf.imp_right .inl)
  have hfault : b.fault = .none := by
    have := h.fault_iff
    rcases hf with hf | hf <;> simpa [hf] using this
  have hlen : (b.install es).melLen.toNat ≤ Config.capacity :=
    b.install_melLen hl ▸ (length_resolvePrefix_le es).trans hl
  rw [Block.inv_iff]
  refine ⟨hlen, ?_⟩
  simp +contextual [Block.install, Fsm.playing, hidx, hloop, hstop, hout, hfault]

/-- While an entry is played, the next index is at most MEL_LEN (R192). -/
theorem Block.Inv.succ_idx_le (h : b.Inv) (hp : b.fsm.playing = true) : (b.idx + 1#9).toNat ≤ b.melLen.toNat := by
  have := h.playing_idx hp
  bv_omega

/-- Every move of the block keeps the invariant. -/
theorem BlockMove.inv {now : Nat} {rs : List ToneRecord} (m : BlockMove now b c rs) (h : b.Inv) : c.Inv := by
  cases m with
  | stay => exact h
  | install es hf hl => exact h.install hf hl
  | advance hf hs =>
    have hi := h.succ_idx_le (by rw [hf]; rfl)
    rw [Block.inv_iff] at h ⊢
    simp_all [Fsm.playing]
  | load hf hi hc =>
    rw [Block.inv_iff] at h ⊢
    by_cases hq : (MelStore.read b.mel b.idx.toNat).freq = 0#32 <;> simp_all [Fsm.playing]
  | wake hf hd =>
    rw [Block.inv_iff] at h ⊢
    by_cases hq : b.curFreq = 0#32 <;> simp_all [Fsm.playing]
  | start _ _ _ | faultUnset _ | faultLoop _ _ | stop _ | wrap _ _ _ | done _ _ _ | honour _ _ | setfreq _
  | getmax _ _ | setduty _ | enable _ | sleep _ | disable _ =>
    rw [Block.inv_iff] at h ⊢
    simp_all [Fsm.playing]

end Sys2Proof.Machine

namespace Sys2Proof

open Machine

/-- Settles O51: a step is a reset or a move of the block, and both give a block that meets the invariant. -/
theorem stepKeepsTheBlockInvariant : Obligations.StepKeepsTheBlockInvariant := by
  intro s t hinv h
  obtain ⟨⟨_, hb, _⟩ | ⟨rs, hm, _⟩, _⟩ := step_move h
  · rw [hb]
    exact Block.reset_inv
  · exact hm.inv hinv

end Sys2Proof

end

/-! The legal values of the block (spec/10_state.md R31, R41, R45): they hold at reset, and every move of the block
keeps them. -/

section

namespace Sys2Proof.Machine

variable {b c : Block}

/-- What the Note Table resolves a code to is 0 or a NOTE_FREQ (R141). -/
theorem isPitch_of_rom {n : NoteCode} {f : Hz} (h : rom n = some f) : isPitch f := by
  unfold rom at h
  split at h
  · cases h
    exact .inl rfl
  · rename_i hn
    split at h
    · rename_i hle
      cases h
      refine .inr ⟨n, Nat.pos_of_ne_zero fun h0 => hn ?_, hle, rfl⟩
      exact BitVec.eq_of_toNat_eq h0
    · cases h

/-- Every entry that SETMEL resolves has a frequency of the Note Table (R162). -/
theorem isPitch_resolvePrefix (es : List EntryWord) {k : Nat} (hk : k < (resolvePrefix es).length) :
    isPitch (resolvePrefix es)[k].freq :=
  isPitch_of_rom (getElem_resolvePrefix es hk (hk.trans_le (length_resolvePrefix_le es))).1

theorem Block.reset_legal : Block.reset.Legal :=
  ⟨.inl rfl, fun i hi => absurd hi (Nat.not_lt_zero i), rfl, channel_range, Nat.zero_le _⟩

/-- TRUNC_IDX of an accepted SETMEL is the index of an unresolved entry, and so below the capacity, or 0 (R162). -/
theorem Block.install_truncIdx_le (b : Block) {es : List EntryWord} (hl : es.length ≤ Config.capacity) :
    (b.install es).truncIdx.toNat ≤ 255 := by
  have hl : es.length ≤ 256 := hl
  simp only [Block.install]
  split
  · rw [BitVec.toNat_ofNat]
    omega
  · exact Nat.zero_le _

/-- An accepted SETMEL stores frequencies of the Note Table alone (R162). -/
theorem Block.Legal.install (h : b.Legal) (hw : MelStore.wf b.mel = true) {es : List EntryWord}
    (hl : es.length ≤ Config.capacity) : (b.install es).Legal where
  cur_freq := h.cur_freq
  entries i hi := by
    rw [b.install_melLen hl] at hi
    have hp : 0 + (resolvePrefix es).length ≤ Config.capacity := by
      rw [Nat.zero_add]
      exact (length_resolvePrefix_le es).trans hl
    have hread := MelStore.read_writeFrom_inside (resolvePrefix es) hw hp hi
    rw [Nat.zero_add] at hread
    change isPitch (MelStore.read (MelStore.writeFrom b.mel 0 (resolvePrefix es)) i).freq
    rw [hread]
    exact isPitch_resolvePrefix es hi
  chan := h.chan
  chan_range := h.chan_range
  trunc_idx_range := b.install_truncIdx_le hl

/-- Every move of the block keeps the legal values: SETMEL resolves what it stores, FETCH loads a valid entry, and no
other move writes one of these fields. -/
theorem BlockMove.legal {now : Nat} {rs : List ToneRecord} (m : BlockMove now b c rs) (hw : MelStore.wf b.mel = true)
    (h : b.Legal) : c.Legal := by
  have hl := h
  obtain ⟨hfreq, hmel, hchan, hrange, htrunc⟩ := h
  cases m with
  | install es _ hle => exact hl.install hw hle
  | load _ hi _ => exact ⟨hmel _ hi, hmel, hchan, hrange, htrunc⟩
  | stay | start _ _ _ | faultUnset _ | faultLoop _ _ | stop _ | wrap _ _ _ | done _ _ _ | honour _ _ | setfreq _
  | getmax _ _ | setduty _ | enable _ | sleep _ | wake _ _ | disable _ | advance _ _ =>
    exact ⟨hfreq, hmel, hchan, hrange, htrunc⟩

end Sys2Proof.Machine

namespace Sys2Proof

open Machine

/-- Settles O53: a step is a reset or a move of the block, and both give legal values. -/
theorem stepKeepsLegalValues : Obligations.StepKeepsLegalValues := by
  intro s t hw hl h
  obtain ⟨⟨_, hb, _⟩ | ⟨rs, hm, _⟩, _⟩ := step_move h
  · rw [hb]
    exact Block.reset_legal
  · exact hm.legal hw hl

end Sys2Proof

end

/-! Durations are lower bounds (spec/42_tone_sequencer.md R189, R190, R195): what one move adds to the tone trace, and
that no WAKE it adds is early. -/

section

namespace Sys2Proof.Machine

variable {b c : Block} {now : Nat} {rs : List ToneRecord}

@[simp] theorem ToneRecord.act_mk (t : Nat) (a : Act) (x : Word) : (ToneRecord.mk t (recordWord a x)).act = a.code :=
  recordWord_act a x

@[simp] theorem ToneRecord.operand_mk (t : Nat) (a : Act) (x : Word) :
    (ToneRecord.mk t (recordWord a x)).operand = x :=
  recordWord_operand a x

theorem dueAfter_append (due : Option Nat) (xs ys : List ToneRecord) :
    dueAfter due (xs ++ ys) = dueAfter (dueAfter due xs) ys := by
  induction xs generalizing due with
  | nil => rfl
  | cons x xs ih => exact ih _

theorem wakesNotEarly_append (due : Option Nat) (xs ys : List ToneRecord) :
    wakesNotEarly due (xs ++ ys) = (wakesNotEarly due xs && wakesNotEarly (dueAfter due xs) ys) := by
  induction xs generalizing due with
  | nil => rfl
  | cons x xs ih => simp only [List.cons_append, wakesNotEarly, ih, dueAfter, Bool.and_assoc]

/-- A move adds at most one record, stamped with NOW (R194). -/
theorem BlockMove.records (m : BlockMove now b c rs) : rs = [] ∨ ∃ r, rs = [r] ∧ r.time = now := by
  cases m with
  | stay | install _ _ _ | start _ _ _ | faultUnset _ | faultLoop _ _ | stop _ | load _ _ _ | wrap _ _ _ | done _ _ _
  | honour _ _ | advance _ _ => exact .inl rfl
  | setfreq _ | getmax _ _ | setduty _ | enable _ | sleep _ | wake _ _ | disable _ => exact .inr ⟨_, rfl, rfl⟩

/-- Where in WAIT the suspension is due at DEADLINE, a move adds no early WAKE and keeps that: SLEEP makes the
suspension due at the DEADLINE it sets (R189), and only the wake-up, at or after DEADLINE, adds a WAKE (R190). -/
theorem BlockMove.wakes (m : BlockMove now b c rs) {due : Option Nat} (h : b.fsm = .wait → due = some b.deadline) :
    wakesNotEarly due rs = true ∧ (c.fsm = .wait → dueAfter due rs = some c.deadline) := by
  cases m with
  | stay => exact ⟨rfl, h⟩
  | stop hf => exact ⟨rfl, h⟩
  | sleep hf =>
    have hd : (b.curDur.setWidth 32).toNat = b.curDur.toNat := BitVec.toNat_setWidth_of_le (by decide)
    simp [wakesNotEarly, dueAfter, Act.code, hd]
  | wake hf hd =>
    rw [h hf]
    by_cases hq : b.curFreq = 0#32 <;> simp [wakesNotEarly, Act.code, hq, hd]
  | load hf hi hc =>
    by_cases hq : (MelStore.read b.mel b.idx.toNat).freq = 0#32 <;> simp [wakesNotEarly, hq]
  | wrap hf hi hl => simp [wakesNotEarly, hf]
  | install _ _ _ | start _ _ _ | faultUnset _ | faultLoop _ _ | done _ _ _ | honour _ _ | advance _ _ =>
    exact ⟨rfl, nofun⟩
  | setfreq _ | getmax _ _ | setduty _ | enable _ | disable _ => simp [wakesNotEarly, Act.code]

/-- A trace in time order, none of whose records is after NOW, stays so with one move's records at NOW (R50). -/
theorem BlockMove.times (m : BlockMove now b c rs) {xs : List ToneRecord}
    (hord : (xs.map (·.time)).Pairwise (· ≤ ·)) (hnow : ∀ r ∈ xs, r.time ≤ now) :
    ((xs ++ rs).map (·.time)).Pairwise (· ≤ ·) ∧ ∀ r ∈ xs ++ rs, r.time ≤ now := by
  rcases m.records with rfl | ⟨r, rfl, rfl⟩
  · simpa using ⟨hord, hnow⟩
  · simp only [List.map_append, List.pairwise_append, List.mem_append, List.mem_map, List.map_cons, List.map_nil,
      List.pairwise_singleton, List.mem_singleton]
    refine ⟨⟨hord, trivial, ?_⟩, ?_⟩
    · rintro _ ⟨x, hx, rfl⟩ _ rfl
      exact hnow x hx
    · rintro x (hx | rfl)
      · exact hnow x hx
      · exact Nat.le_refl _

end Sys2Proof.Machine

namespace Sys2Proof

open Machine

/-- Settles O55: a reset leaves the trace and no WAIT, and a move adds its record at NOW, a WAKE only when it is due. -/
theorem wakesAreNeverEarly : Obligations.WakesAreNeverEarly := by
  rintro s t ⟨hord, hnow, hearly, hwait⟩ h
  obtain ⟨⟨_, hb, ht⟩ | ⟨rs, hm, ht⟩, hle⟩ := step_move h
  · refine ⟨by rwa [ht], fun r hr => (hnow r (ht ▸ hr)).trans hle, by rwa [ht], fun hw => ?_⟩
    rw [hb] at hw
    cases hw
  · obtain ⟨hord', hnow'⟩ := hm.times hord hnow
    obtain ⟨hearly', hwait'⟩ := hm.wakes hwait
    refine ⟨by rwa [ht], fun r hr => (hnow' r (ht ▸ hr)).trans hle, ?_, fun hw => ?_⟩
    · rw [ht, wakesNotEarly_append, hearly, hearly', Bool.and_self]
    · rw [ht, dueAfter_append, hwait' hw]

end Sys2Proof

end

/-! The STATUS word (spec/10_state.md R47): each field reads back from the word it is packed into. -/

section

namespace Sys2Proof.Machine

@[simp] theorem getElem_bit (x : Bool) : (bit x)[0] = x := by cases x <;> rfl

section fields
variable (b : Block)

theorem Block.statusWord_fsm : b.statusWord.extractLsb' 0 4 = b.fsm.code := by
  rw [Block.statusWord, field_of_low _ _ (by decide), field_whole]

/-- The five flags, from bit 4 to bit 8. -/
theorem Block.statusWord_flags :
    b.statusWord.getLsbD 4 = b.melSet ∧ b.statusWord.getLsbD 5 = b.trunc ∧ b.statusWord.getLsbD 6 = b.loop ∧
      b.statusWord.getLsbD 7 = b.stopReq ∧ b.statusWord.getLsbD 8 = b.outEn := by
  simp only [Block.statusWord, BitVec.getLsbD_append]
  simp

theorem Block.statusWord_zero_mid : b.statusWord.extractLsb' 9 3 = 0#3 := by
  rw [Block.statusWord]
  repeat rw [field_of_high _ _ (by decide)]
  rw [field_of_low _ _ (by decide), field_whole]

theorem Block.statusWord_fault : b.statusWord.extractLsb' 12 4 = b.fault.code := by
  rw [Block.statusWord]
  repeat rw [field_of_high _ _ (by decide)]
  rw [field_of_low _ _ (by decide), field_whole]

theorem Block.statusWord_zero_high : b.statusWord.extractLsb' 16 16 = 0#16 := by
  rw [Block.statusWord]
  repeat rw [field_of_high _ _ (by decide)]
  rw [field_whole]

end fields

/-- RDREG of register 0 answers the STATUS word, where HOST steps (R271). -/
theorem exec_rdreg_status {s : State} (hf : s.block.fsm.hostEnabled = true) :
    exec (.rdreg 0#24 0#4) s = .next (s.respond 0x7#4 false .ok [s.block.statusWord]) :=
  hostStep_enabled hf

end Sys2Proof.Machine

namespace Sys2Proof

open Machine

/-- Settles O28: RDREG 0 answers the STATUS word, whose fields are read one by one; at reset every field is 0. -/
theorem statusWordLayout : Obligations.StatusWordLayout := by
  refine ⟨fun s hf => ⟨s.block.statusWord, exec_rdreg_status hf, ?_⟩, fun s hb => ?_⟩
  · obtain ⟨h4, h5, h6, h7, h8⟩ := s.block.statusWord_flags
    exact ⟨s.block.statusWord_fsm, h4, h5, h6, h7, h8, s.block.statusWord_zero_mid, s.block.statusWord_fault,
      s.block.statusWord_zero_high⟩
  · have hzero : Block.reset.statusWord = 0x00000000#32 := by decide
    rw [exec_rdreg_status (by rw [hb]; rfl), hb, hzero]

end Sys2Proof

end

/-! Which instruction writes what of the block (spec/10_state.md R31): all but SETMEL, PLAY, RUN, STOP and the
micro-steps leave it alone (R49, R76, R79), and those write their own fields. -/

section

namespace Sys2Proof.Machine

variable {s t u : State}

/-- `t` has the block, the tone trace, the choices and NOW of `s`. -/
structure State.BlockKept (s t : State) : Prop where
  block : t.block = s.block
  tone : t.out.tone = s.out.tone
  choices : t.choices = s.choices
  now : t.env.now = s.env.now

/-- A HOST step, done or held, keeps what its result keeps. -/
theorem hostStep_blockKept (hu : s.BlockKept u) (h : hostStep s u = .next t) : s.BlockKept t := by
  rcases hostStep_next h with ⟨_, rfl⟩ | ⟨_, rfl⟩
  · exact hu
  · exact ⟨rfl, rfl, rfl, rfl⟩

theorem answer_blockKept (op : BitVec 4) (st : Status) (s : State) : s.BlockKept (s.answer op st) :=
  ⟨rfl, rfl, rfl, rfl⟩

theorem encodeBody_blockKept (rsv : BitVec 12) (m : Duty) (ps : List PixelWord) (s : State) :
    s.BlockKept (encodeBody rsv m ps s) := by
  unfold encodeBody
  repeat' split
  all_goals exact ⟨rfl, rfl, rfl, rfl⟩

theorem resolveBody_blockKept (rsv : BitVec 20) (note : NoteCode) (s : State) :
    s.BlockKept (resolveBody rsv note s) := by
  unfold resolveBody
  repeat' split
  all_goals exact ⟨rfl, rfl, rfl, rfl⟩

theorem rdregBody_blockKept (rsv : BitVec 24) (reg : BitVec 4) (s : State) : s.BlockKept (rdregBody rsv reg s) := by
  unfold rdregBody
  repeat' split
  all_goals exact ⟨rfl, rfl, rfl, rfl⟩

theorem rdmelBody_blockKept (rsv : BitVec 20) (index : BitVec 8) (s : State) :
    s.BlockKept (rdmelBody rsv index s) := by
  unfold rdmelBody
  repeat' split
  all_goals exact ⟨rfl, rfl, rfl, rfl⟩

/-- The instructions that may write the block: SETMEL, PLAY, RUN, STOP and the micro-steps (R31). -/
def writesBlock : Instr → Bool
  | .setmel _ _ _ => true
  | .play _ => true
  | .run _ => true
  | .stop _ => true
  | i => i.isMicroStep

/-- Every other instruction keeps the block, the tone trace, the choices and NOW. -/
theorem exec_blockKept {i : Instr} (hi : writesBlock i = false) (h : exec i s = .next t) : s.BlockKept t := by
  cases i with
  | setmel _ _ _ | play _ | run _ | stop _ | ustepFetch | ustepSetfreq | ustepGetmax | ustepSetduty | ustepEnable
  | ustepSleep | ustepWait | ustepDisable | ustepNext => cases hi
  | encode rsv m ps => exact hostStep_blockKept (encodeBody_blockKept rsv m ps s) h
  | resolve rsv note => exact hostStep_blockKept (resolveBody_blockKept rsv note s) h
  | rdreg rsv reg => exact hostStep_blockKept (rdregBody_blockKept rsv reg s) h
  | rdmel rsv index => exact hostStep_blockKept (rdmelBody_blockKept rsv index s) h
  | illegalOp0 _ | illegalOp9 _ | illegalOpA _ | illegalOpB _ | illegalOpC _ | illegalOpD _ | illegalOpE _
  | illegalOpF _ => exact hostStep_blockKept (answer_blockKept _ .errIllegal s) h
  | entry _ _ | pixel _ _ _ _ | actSetFreq _ | actGetMaxDuty _ | actSetDuty _ | actEnable _ | actDisable _
  | actSleep _ | actWake _ | actDutyOut _ _ =>
    cases h
    exact ⟨rfl, rfl, rfl, rfl⟩

/-! What the writers make of the block -/

/-- SETMEL leaves the block or installs a melody (R161, R162). -/
theorem execSetmel_block {rsv : BitVec 12} {n : BitVec 16} {es : List EntryWord} (h : execSetmel rsv n es s = .next t) :
    t.block = s.block ∨ ∃ es', t.block = s.block.install es' := by
  rcases hostStep_next h with ⟨_, rfl⟩ | ⟨_, rfl⟩
  · unfold setmelBody
    repeat' split
    case isFalse => exact .inr ⟨_, rfl⟩
    all_goals exact .inl rfl
  · exact .inl rfl

/-- What PLAY and RUN may do: leave the block, fault, or start a pass (R181, R182). -/
def Block.PlaybackWrites (b c : Block) : Prop :=
  c = b ∨ (∃ f, c = { b with fault := f, fsm := .fault }) ∨
    ∃ l, c = { b with idx := 0#9, loop := l, stopReq := false, fsm := .fetch }

theorem execPlay_block {rsv : BitVec 28} (h : execPlay rsv s = .next t) : s.block.PlaybackWrites t.block := by
  rcases hostStep_next h with ⟨_, rfl⟩ | ⟨_, rfl⟩
  · unfold playBody
    split
    · exact .inl rfl
    split
    · exact .inl rfl
    split
    · exact .inl rfl
    split
    · exact .inr (.inl ⟨_, rfl⟩)
    · exact .inr (.inr ⟨_, rfl⟩)
  · exact .inl rfl

theorem execRun_block {rsv : BitVec 28} (h : execRun rsv s = .next t) : s.block.PlaybackWrites t.block := by
  rcases hostStep_next h with ⟨_, rfl⟩ | ⟨_, rfl⟩
  · unfold runBody
    split
    · exact .inl rfl
    split
    · exact .inl rfl
    split
    · exact .inl rfl
    split
    · exact .inr (.inl ⟨_, rfl⟩)
    split
    · exact .inr (.inl ⟨_, rfl⟩)
    · exact .inr (.inr ⟨_, rfl⟩)
  · exact .inl rfl

theorem execStop_block {rsv : BitVec 28} (h : execStop rsv s = .next t) :
    t.block = s.block ∨ t.block = { s.block with stopReq := true } := by
  rcases hostStep_next h with ⟨_, rfl⟩ | ⟨_, rfl⟩
  · unfold stopBody
    split
    · exact .inl rfl
    split
    · exact .inl rfl
    split
    · exact .inr rfl
    · exact .inl rfl
  · exact .inl rfl

/-- A micro-step leaves the block where it is not enabled, and otherwise makes it what its outcome says. -/
theorem seqStep_block {f : Fsm} (h : seqStep f s (.next u) = .next t) : t.block = s.block ∨ t.block = u.block := by
  rcases seqStep_next h with ⟨_, ho⟩ | ⟨_, rfl⟩
  · cases ho
    exact .inr rfl
  · exact .inl rfl

/-- FETCH leaves the block, loads an entry, or ends or wraps a pass (R184). -/
theorem execUstepFetch_block (h : execUstepFetch s = .next t) :
    t.block = s.block ∨ (∃ e, t.block = (s.loadEntry e).block) ∨ t.block = s.passEnd.block := by
  rcases seqStep_next h with ⟨_, ho⟩ | ⟨_, rfl⟩
  · split at ho
    · split at ho
      · cases ho
        exact .inr (.inl ⟨_, rfl⟩)
      · cases ho
    · cases ho
      exact .inr (.inr rfl)
  · exact .inl rfl

/-- WAIT writes FSM_STATE at most (R190). -/
theorem execUstepWait_block (h : execUstepWait s = .next t) :
    t.block = s.block ∨ ∃ f, t.block = { s.block with fsm := f } := by
  rcases seqStep_next h with ⟨_, ho⟩ | ⟨_, rfl⟩
  · split at ho
    · cases ho
      exact .inl rfl
    · cases ho
      exact .inr ⟨_, rfl⟩
  · exact .inl rfl

/-- NEXT leaves the block, ends the pass or goes on to the next entry (R192). -/
theorem execUstepNext_block (h : execUstepNext s = .next t) :
    t.block = s.block ∨ t.block = s.endPass.block ∨ t.block = s.advance.block := by
  refine (seqStep_block h).imp_right fun hb => ?_
  rw [hb]
  split
  · exact .inl rfl
  · exact .inr rfl

end Sys2Proof.Machine

namespace Sys2Proof

open Machine

/-- Settles O30: such an instruction is none that may write the block, and so keeps it. -/
theorem otherInstructionsLeaveTheBlock : Obligations.OtherInstructionsLeaveTheBlock := by
  intro s t i h hmicro hset hplay hrun hstop
  have hi : writesBlock i = false := by
    cases i with
    | setmel _ _ _ => exact absurd rfl (hset _ _ _)
    | play _ => exact absurd rfl (hplay _)
    | run _ => exact absurd rfl (hrun _)
    | stop _ => exact absurd rfl (hstop _)
    | _ => exact hmicro
  obtain ⟨hb, ht, hc, hn⟩ := exec_blockKept hi h
  exact ⟨hb, ht, hc, hn, fun k => by rw [hb]⟩

/-- Settles O44, instruction by instruction: what each writer makes of the block, and that the others leave it. -/
theorem fieldsHaveOnlyTheirWriters : Obligations.FieldsHaveOnlyTheirWriters := by
  intro s t i h
  cases i with
  | setmel r n es =>
    rcases execSetmel_block h with hb | ⟨es', hb⟩
    · simp [hb]
    · simp [hb, Block.install]
  | play r =>
    rcases execPlay_block h with hb | ⟨f, hb⟩ | ⟨l, hb⟩ <;> simp [hb]
  | run r =>
    rcases execRun_block h with hb | ⟨f, hb⟩ | ⟨l, hb⟩ <;> simp [hb]
  | stop r =>
    rcases execStop_block h with hb | hb <;> simp [hb]
  | ustepFetch =>
    rcases execUstepFetch_block h with hb | ⟨e, hb⟩ | hb
    · simp [hb]
    · simp [hb, Instr.isMicroStep]
    · rw [hb, State.passEnd_block]
      split <;> simp [Instr.isMicroStep]
  | ustepWait =>
    rcases execUstepWait_block h with hb | ⟨f, hb⟩ <;> simp [hb, Instr.isMicroStep]
  | ustepNext =>
    rcases execUstepNext_block h with hb | hb | hb <;> simp [hb, Instr.isMicroStep]
  | ustepSetfreq | ustepGetmax | ustepSetduty | ustepEnable | ustepSleep | ustepDisable =>
    rcases seqStep_block h with hb | hb <;> simp [hb, Instr.isMicroStep]
  | encode _ _ _ | resolve _ _ | rdreg _ _ | rdmel _ _ | illegalOp0 _ | illegalOp9 _ | illegalOpA _ | illegalOpB _
  | illegalOpC _ | illegalOpD _ | illegalOpE _ | illegalOpF _ | entry _ _ | pixel _ _ _ _ | actSetFreq _
  | actGetMaxDuty _ | actSetDuty _ | actEnable _ | actDisable _ | actSleep _ | actWake _ | actDutyOut _ _ =>
    have hb := (exec_blockKept rfl h).block
    simp [hb]

end Sys2Proof

end

/-! Time and histories only grow (spec/10_state.md R50, spec/30_encoding.md R118, R120): what an instruction adds to the
LED trace and to the responses. -/

section

namespace Sys2Proof.Machine

variable {s t u : State}

/-- `t` has the LED trace of `s` and then DUTY_OUT records of operand 192, and the responses of `s` and then others. -/
structure State.HistoryGrows (s t : State) : Prop where
  led : ∃ xs, t.out.led = s.out.led ++ xs ∧ ∀ r ∈ xs, r.word = 0x08000000000000C0#64
  responses : ∃ xs, t.port.responses = s.port.responses ++ xs

theorem State.HistoryGrows.same (hl : t.out.led = s.out.led) (hr : t.port.responses = s.port.responses) :
    s.HistoryGrows t :=
  ⟨⟨[], by rw [hl, List.append_nil], nofun⟩, [], by rw [hr, List.append_nil]⟩

/-- A state with the LED trace and the responses of `s`, and one response more. -/
theorem State.HistoryGrows.answered {r : Response} (hl : t.out.led = s.out.led)
    (hr : t.port.responses = s.port.responses ++ [r]) : s.HistoryGrows t :=
  ⟨⟨[], by rw [hl, List.append_nil], nofun⟩, [r], hr⟩

theorem answer_historyGrows (op : BitVec 4) (st : Status) (s : State) : s.HistoryGrows (s.answer op st) :=
  .answered rfl rfl

/-- The record word of every buffer (R120). -/
theorem recordWord_buffer : recordWord .dutyOut (BitVec.ofNat 32 Config.dutyLen) = 0x08000000000000C0#64 := by decide

theorem setmelBody_historyGrows (rsv : BitVec 12) (n : BitVec 16) (es : List EntryWord) (s : State) :
    s.HistoryGrows (setmelBody rsv n es s) := by
  unfold setmelBody installMelody
  repeat' split
  all_goals exact .answered rfl rfl

theorem playBody_historyGrows (rsv : BitVec 28) (s : State) : s.HistoryGrows (playBody rsv s) := by
  unfold playBody
  repeat' split
  all_goals exact .answered rfl rfl

theorem runBody_historyGrows (rsv : BitVec 28) (s : State) : s.HistoryGrows (runBody rsv s) := by
  unfold runBody
  repeat' split
  all_goals exact .answered rfl rfl

theorem stopBody_historyGrows (rsv : BitVec 28) (s : State) : s.HistoryGrows (stopBody rsv s) := by
  unfold stopBody
  repeat' split
  all_goals exact .answered rfl rfl

theorem resolveBody_historyGrows (rsv : BitVec 20) (note : NoteCode) (s : State) :
    s.HistoryGrows (resolveBody rsv note s) := by
  unfold resolveBody
  repeat' split
  all_goals exact .answered rfl rfl

theorem rdregBody_historyGrows (rsv : BitVec 24) (reg : BitVec 4) (s : State) :
    s.HistoryGrows (rdregBody rsv reg s) := by
  unfold rdregBody
  repeat' split
  all_goals exact .answered rfl rfl

theorem rdmelBody_historyGrows (rsv : BitVec 20) (index : BitVec 8) (s : State) :
    s.HistoryGrows (rdmelBody rsv index s) := by
  unfold rdmelBody
  repeat' split
  all_goals exact .answered rfl rfl

/-- An accepted ENCODE adds one DUTY_OUT record of operand 192 and its response (R120, R231). -/
theorem encodeBody_historyGrows (rsv : BitVec 12) (m : Duty) (ps : List PixelWord) (s : State) :
    s.HistoryGrows (encodeBody rsv m ps s) := by
  unfold encodeBody
  split
  · exact .answered rfl rfl
  split
  · exact .answered rfl rfl
  · refine ⟨⟨_, rfl, fun r hr => ?_⟩, _, rfl⟩
    rw [List.mem_singleton.mp hr]
    exact recordWord_buffer

/-- A HOST step, done or held, lets the histories grow where its result does. -/
theorem hostStep_historyGrows (hu : s.HistoryGrows u) (h : hostStep s u = .next t) : s.HistoryGrows t := by
  rcases hostStep_next h with ⟨_, rfl⟩ | ⟨_, rfl⟩
  · exact hu
  · exact .same rfl rfl

/-- A micro-step lets the histories grow where its outcome does. -/
theorem seqStep_historyGrows {f : Fsm} {o : Host.Outcome State Fault Refusal} (ho : o = .next t → s.HistoryGrows t)
    (h : seqStep f s o = .next t) : s.HistoryGrows t := by
  rcases seqStep_next h with ⟨_, h⟩ | ⟨_, rfl⟩
  · exact ho h
  · exact .same rfl rfl

/-- No instruction takes back a response or a record of the LED trace. -/
theorem exec_historyGrows (i : Instr) (h : exec i s = .next t) : s.HistoryGrows t := by
  cases i with
  | setmel rsv n es => exact hostStep_historyGrows (setmelBody_historyGrows rsv n es s) h
  | play rsv => exact hostStep_historyGrows (playBody_historyGrows rsv s) h
  | run rsv => exact hostStep_historyGrows (runBody_historyGrows rsv s) h
  | stop rsv => exact hostStep_historyGrows (stopBody_historyGrows rsv s) h
  | encode rsv m ps => exact hostStep_historyGrows (encodeBody_historyGrows rsv m ps s) h
  | resolve rsv note => exact hostStep_historyGrows (resolveBody_historyGrows rsv note s) h
  | rdreg rsv reg => exact hostStep_historyGrows (rdregBody_historyGrows rsv reg s) h
  | rdmel rsv index => exact hostStep_historyGrows (rdmelBody_historyGrows rsv index s) h
  | illegalOp0 _ | illegalOp9 _ | illegalOpA _ | illegalOpB _ | illegalOpC _ | illegalOpD _ | illegalOpE _
  | illegalOpF _ => exact hostStep_historyGrows (answer_historyGrows _ .errIllegal s) h
  | ustepFetch =>
    refine seqStep_historyGrows (fun ho => ?_) h
    split at ho
    · split at ho
      · cases ho
        exact .same rfl rfl
      · cases ho
    · cases ho
      exact .same (by simp) (by simp)
  | ustepWait | ustepNext =>
    refine seqStep_historyGrows (fun ho => ?_) h
    split at ho <;> cases ho <;> exact .same rfl rfl
  | ustepGetmax =>
    refine seqStep_historyGrows (fun ho => ?_) h
    cases ho
    exact .same (by simp) (by simp)
  | ustepSetfreq | ustepSetduty | ustepEnable | ustepSleep | ustepDisable =>
    refine seqStep_historyGrows (fun ho => ?_) h
    cases ho
    exact .same rfl rfl
  | entry _ _ | pixel _ _ _ _ | actSetFreq _ | actGetMaxDuty _ | actSetDuty _ | actEnable _ | actDisable _
  | actSleep _ | actWake _ | actDutyOut _ _ =>
    cases h
    exact .same rfl rfl

/-- Fetching gives no response, a reset included (R342). -/
theorem fetchFor_responses (e : Event) (s : State) : (fetchFor e s).2.port.responses = s.port.responses := by
  cases e with
  | endStream | tick _ | reset => rfl
  | send w =>
    simp only [fetchFor, fetchSend]
    split
    · rfl
    · split <;> rfl
  | host =>
    simp only [fetchFor, fetchHost]
    split
    · split <;> rfl
    · rfl
  | seq =>
    simp only [fetchFor, fetchSeq]
    split <;> rfl
  | applyTone =>
    simp only [fetchFor, fetchTone]
    split
    · rfl
    · split <;> rfl
  | takeBuffer =>
    simp only [fetchFor, fetchLed]
    split
    · rfl
    · split <;> rfl

/-- No step takes back a response or a record of the LED trace. -/
theorem step_historyGrows (h : step s = .next t) : s.HistoryGrows t := by
  have hled : (fetch s).2.out.led = s.out.led := by
    rw [fetch, (fetchFor_still _ _).1, State.afterEvent_out]
  have hresp : (fetch s).2.port.responses = s.port.responses := by
    rw [fetch, fetchFor_responses, State.afterEvent_port]
  unfold step at h
  generalize fetch s = p at h hled hresp
  obtain ⟨_ | i, u⟩ := p
  case none =>
    cases h
    exact .same hled hresp
  case some =>
    obtain ⟨hl, hr⟩ := exec_historyGrows i h
    rw [hled] at hl
    rw [hresp] at hr
    exact ⟨hl, hr⟩

end Sys2Proof.Machine

namespace Sys2Proof

open Machine

/-- Settles O57: a reset leaves the tone trace and a move adds to it, NOW does not decrease, and the rest grows. -/
theorem timeAndTracesOnlyGrow : Obligations.TimeAndTracesOnlyGrow := by
  intro s t h
  obtain ⟨htone, hnow⟩ := step_move h
  obtain ⟨hled, hresp⟩ := step_historyGrows h
  refine ⟨hnow, ?_, hled, hresp⟩
  rcases htone with ⟨_, _, ht⟩ | ⟨rs, _, ht⟩
  · exact ⟨[], by rw [ht, List.append_nil]⟩
  · exact ⟨rs, ht⟩

end Sys2Proof

end

/-! The choices that are no instruction (spec/10_state.md R50, spec/30_encoding.md R100, R113), and the invariants at
the power-on reset (spec/70_reset_and_hazards.md R340). -/

section

namespace Sys2Proof.Machine

variable {s : State} {w : Word}

/-- A word in header position joins the stream (R100, R101). -/
theorem fetchSend_header (hend : s.port.ended = false) (hpos : nextPosition s.port.stream = .header) :
    fetchSend w s = (none, s.sendWord w) := by
  simp [fetchSend, hend, hpos, decodeOperand]

/-- After the end of the stream a sent word does nothing (R113). -/
theorem fetchSend_ended (hend : s.port.ended = true) : fetchSend w s = (none, s) := by
  rw [fetchSend, if_pos hend]

end Sys2Proof.Machine

namespace Sys2Proof

open Machine

/-- Settles O6, choice by choice: what each fetches is no instruction. -/
theorem stepsThatAreNoInstruction : Obligations.StepsThatAreNoInstruction := by
  refine ⟨fun s d he => ?_, fun s he => ?_, fun s w he hend hpos => ?_, fun s w he hend => ?_,
    fun s h ws he hend hs hlen => ?_⟩
  · rw [step_of_fetch he, ← s.afterEvent_env]
    rfl
  · rw [step_of_fetch he, ← s.afterEvent_port]
    rfl
  · rw [← s.afterEvent_port] at hend hpos ⊢
    rw [step_of_fetch he, fetchFor, fetchSend_header hend hpos]
    rfl
  · rw [← s.afterEvent_port] at hend
    rw [step_of_fetch he, fetchFor, fetchSend_ended hend]
    rfl
  · have hwait : decodeCommand s.afterEvent.port.ended s.afterEvent.port.stream = .error .incomplete := by
      rw [s.afterEvent_port, hend, hs, decodeCommand_incomplete hlen]
    rw [step_of_fetch he, fetchFor, fetchHost_waiting hwait]
    rfl

/-- Settles O50: the block is at R340's values, the melody store and the traces are empty, and it is not in WAIT. -/
theorem resetMeetsTheInvariants : Obligations.ResetMeetsTheInvariants :=
  ⟨Block.reset_inv, Block.reset_legal, rfl, fun _ => Nat.zero_le _, ⟨.nil, nofun, rfl, nofun⟩, [], rfl, rfl⟩

end Sys2Proof

end

/-! The block reads nothing of the channel (spec/10_state.md R49, spec/44_pwm_interface.md R257): a step of a state
with another channel is the same step, and the channel's output follows the records. -/

section

namespace Sys2Proof.Machine

/-- What ENV holds of the tone channel, the suspension and the transmitter (R251 to R258). -/
structure Channel where
  freq : Hz
  duty : Duty
  on : Bool
  suspended : Option Word
  transmitted : List (List Duty)

/-- `s` with ENV's channel, suspension and transmitter at the values of `c`. -/
def State.withChannel (s : State) (c : Channel) : State :=
  { s with env :=
      { s.env with
        chanFreq := c.freq, chanDuty := c.duty, chanOn := c.on, suspended := c.suspended
        transmitted := c.transmitted } }

variable {s t u u' : State} {c : Channel}

@[simp] theorem State.withChannel_block : (s.withChannel c).block = s.block := rfl
@[simp] theorem State.withChannel_port : (s.withChannel c).port = s.port := rfl
@[simp] theorem State.withChannel_out : (s.withChannel c).out = s.out := rfl
@[simp] theorem State.withChannel_choices : (s.withChannel c).choices = s.choices := rfl
@[simp] theorem State.withChannel_toneApplied : (s.withChannel c).env.toneApplied = s.env.toneApplied := rfl
@[simp] theorem State.withChannel_ledApplied : (s.withChannel c).env.ledApplied = s.env.ledApplied := rfl

/-! The operations do the same whatever the channel is -/

@[simp] theorem nextEvent_withChannel : (s.withChannel c).nextEvent = s.nextEvent := rfl

theorem afterEvent_withChannel : (s.withChannel c).afterEvent = s.afterEvent.withChannel c := by
  unfold State.afterEvent
  rw [State.withChannel_choices]
  split <;> rfl

theorem afterDraw_withChannel : (s.withChannel c).afterDraw = s.afterDraw.withChannel c := by
  unfold State.afterDraw
  rw [State.withChannel_choices]
  split <;> rfl

theorem passEnd_withChannel : (s.withChannel c).passEnd = s.passEnd.withChannel c := by
  unfold State.passEnd
  rw [State.withChannel_block]
  split <;> rfl

theorem setmelBody_withChannel (rsv : BitVec 12) (n : BitVec 16) (es : List EntryWord) :
    setmelBody rsv n es (s.withChannel c) = (setmelBody rsv n es s).withChannel c := by
  simp only [setmelBody, apply_ite (State.withChannel · c)]
  rfl

theorem playBody_withChannel (rsv : BitVec 28) :
    playBody rsv (s.withChannel c) = (playBody rsv s).withChannel c := by
  simp only [playBody, apply_ite (State.withChannel · c)]
  rfl

theorem runBody_withChannel (rsv : BitVec 28) : runBody rsv (s.withChannel c) = (runBody rsv s).withChannel c := by
  simp only [runBody, apply_ite (State.withChannel · c)]
  rfl

theorem stopBody_withChannel (rsv : BitVec 28) :
    stopBody rsv (s.withChannel c) = (stopBody rsv s).withChannel c := by
  simp only [stopBody, apply_ite (State.withChannel · c)]
  rfl

theorem encodeBody_withChannel (rsv : BitVec 12) (m : Duty) (ps : List PixelWord) :
    encodeBody rsv m ps (s.withChannel c) = (encodeBody rsv m ps s).withChannel c := by
  unfold encodeBody
  repeat' split
  all_goals rfl

theorem resolveBody_withChannel (rsv : BitVec 20) (note : NoteCode) :
    resolveBody rsv note (s.withChannel c) = (resolveBody rsv note s).withChannel c := by
  unfold resolveBody
  repeat' split
  all_goals rfl

theorem rdregBody_withChannel (rsv : BitVec 24) (reg : BitVec 4) :
    rdregBody rsv reg (s.withChannel c) = (rdregBody rsv reg s).withChannel c := by
  simp only [rdregBody, State.withChannel_block]
  repeat' split
  all_goals rfl

theorem rdmelBody_withChannel (rsv : BitVec 20) (index : BitVec 8) :
    rdmelBody rsv index (s.withChannel c) = (rdmelBody rsv index s).withChannel c := by
  simp only [rdmelBody, apply_ite (State.withChannel · c)]
  rfl

/-! Outcomes that differ in the channel alone -/

/-- Where `o` is a next state, `o'` is that state, but for the channel. -/
def SameButChannel (o o' : Host.Outcome State Fault Refusal) : Prop :=
  ∀ t, o = .next t → ∃ c, o' = .next (t.withChannel c)

theorem SameButChannel.next (c : Channel) (t : State) : SameButChannel (.next t) (.next (t.withChannel c)) := by
  intro t' h
  cases h
  exact ⟨c, rfl⟩

theorem SameButChannel.fault (f : Fault) (o : Host.Outcome State Fault Refusal) : SameButChannel (.fault f) o := by
  intro t h
  cases h

/-- One condition on both sides, which does not read the channel, and each branch differs in the channel alone. -/
theorem SameButChannel.ite {p : Prop} [Decidable p] {a a' b b' : Host.Outcome State Fault Refusal}
    (ha : SameButChannel a a') (hb : SameButChannel b b') :
    SameButChannel (if p then a else b) (if p then a' else b') := by
  split
  · exact ha
  · exact hb

theorem hostStep_sameButChannel (hu : u' = u.withChannel c) :
    SameButChannel (hostStep s u) (hostStep (s.withChannel c) u') := by
  rw [hu]
  exact .ite (.next _ _) (.next _ _)

theorem seqStep_sameButChannel {f : Fsm} {o o' : Host.Outcome State Fault Refusal} (ho : SameButChannel o o') :
    SameButChannel (seqStep f s o) (seqStep f (s.withChannel c) o') :=
  .ite ho (.next _ _)

/-- A micro-step whose next state is the same but for the channel. -/
theorem seqStep_next_sameButChannel {f : Fsm} (hu : u' = u.withChannel c) :
    SameButChannel (seqStep f s (.next u)) (seqStep f (s.withChannel c) (.next u')) := by
  rw [hu]
  exact seqStep_sameButChannel (.next _ _)

theorem execUstepFetch_sameButChannel : SameButChannel (execUstepFetch s) (execUstepFetch (s.withChannel c)) := by
  refine seqStep_sameButChannel (.ite (.ite (.next c _) (.fault _ _)) ?_)
  rw [passEnd_withChannel]
  exact .next _ _

theorem execUstepWait_sameButChannel : SameButChannel (execUstepWait s) (execUstepWait (s.withChannel c)) :=
  seqStep_sameButChannel (.ite (.next _ _) (.next c _))

theorem execUstepNext_sameButChannel : SameButChannel (execUstepNext s) (execUstepNext (s.withChannel c)) := by
  refine seqStep_next_sameButChannel (c := c) ?_
  rw [State.withChannel_block]
  split <;> rfl

/-- An instruction does the same whatever the channel is, but for what a record does to the channel. -/
theorem exec_sameButChannel (i : Instr) : SameButChannel (exec i s) (exec i (s.withChannel c)) := by
  cases i with
  | setmel rsv n es => exact hostStep_sameButChannel (setmelBody_withChannel rsv n es)
  | play rsv => exact hostStep_sameButChannel (playBody_withChannel rsv)
  | run rsv => exact hostStep_sameButChannel (runBody_withChannel rsv)
  | stop rsv => exact hostStep_sameButChannel (stopBody_withChannel rsv)
  | encode rsv m ps => exact hostStep_sameButChannel (encodeBody_withChannel rsv m ps)
  | resolve rsv note => exact hostStep_sameButChannel (resolveBody_withChannel rsv note)
  | rdreg rsv reg => exact hostStep_sameButChannel (rdregBody_withChannel rsv reg)
  | rdmel rsv index => exact hostStep_sameButChannel (rdmelBody_withChannel rsv index)
  | illegalOp0 _ => exact hostStep_sameButChannel (u := s.answer 0x0#4 .errIllegal) rfl
  | illegalOp9 _ => exact hostStep_sameButChannel (u := s.answer 0x9#4 .errIllegal) rfl
  | illegalOpA _ => exact hostStep_sameButChannel (u := s.answer 0xA#4 .errIllegal) rfl
  | illegalOpB _ => exact hostStep_sameButChannel (u := s.answer 0xB#4 .errIllegal) rfl
  | illegalOpC _ => exact hostStep_sameButChannel (u := s.answer 0xC#4 .errIllegal) rfl
  | illegalOpD _ => exact hostStep_sameButChannel (u := s.answer 0xD#4 .errIllegal) rfl
  | illegalOpE _ => exact hostStep_sameButChannel (u := s.answer 0xE#4 .errIllegal) rfl
  | illegalOpF _ => exact hostStep_sameButChannel (u := s.answer 0xF#4 .errIllegal) rfl
  | entry _ _ | pixel _ _ _ _ => exact .next c _
  | ustepFetch => exact execUstepFetch_sameButChannel
  | ustepWait => exact execUstepWait_sameButChannel
  | ustepNext => exact execUstepNext_sameButChannel
  | ustepGetmax => exact seqStep_next_sameButChannel (by rw [afterDraw_withChannel]; rfl)
  | ustepSetfreq | ustepSetduty | ustepEnable | ustepSleep | ustepDisable => exact seqStep_next_sameButChannel rfl
  | actGetMaxDuty _ => exact .next c _
  | actSetFreq x => exact .next { c with freq := x } _
  | actSetDuty x => exact .next { c with duty := x.setWidth 16 } _
  | actEnable _ => exact .next { c with on := true } _
  | actDisable _ => exact .next { c with on := false } _
  | actSleep x => exact .next { c with suspended := some x } _
  | actWake _ => exact .next { c with suspended := none } _
  | actDutyOut _ buf => exact .next { c with transmitted := c.transmitted ++ [buf] } _

/-- A choice fetches the same whatever the channel is. -/
theorem fetchFor_withChannel (e : Event) :
    fetchFor e (s.withChannel c) = ((fetchFor e s).1, (fetchFor e s).2.withChannel c) := by
  cases e with
  | endStream | tick _ | reset => rfl
  | send w =>
    rw [fetchFor, fetchFor, fetchSend, fetchSend, State.withChannel_port]
    split
    · rfl
    · split <;> rfl
  | host =>
    rw [fetchFor, fetchFor, fetchHost, fetchHost, State.withChannel_block, State.withChannel_port]
    split
    · split <;> rfl
    · rfl
  | seq =>
    rw [fetchFor, fetchFor, fetchSeq, fetchSeq, State.withChannel_block]
    split <;> rfl
  | applyTone =>
    rw [fetchFor, fetchFor, fetchTone, fetchTone, State.withChannel_out, State.withChannel_toneApplied]
    split
    · rfl
    · split <;> rfl
  | takeBuffer =>
    rw [fetchFor, fetchFor, fetchLed, fetchLed, State.withChannel_out, State.withChannel_ledApplied]
    split
    · rfl
    · split <;> rfl

/-- A step is the same whatever the channel is, but for what a record does to the channel. -/
theorem step_sameButChannel : SameButChannel (step s) (step (s.withChannel c)) := by
  rw [step_of_fetch rfl, step_of_fetch nextEvent_withChannel, afterEvent_withChannel, fetchFor_withChannel]
  generalize fetchFor s.nextEvent s.afterEvent = p
  obtain ⟨_ | i, u⟩ := p
  case none => exact .next _ _
  case some => exact exec_sameButChannel i

/-! The output follows the records -/

/-- After the records `base`, with the output at `on`, came the records `since`, and the output is what they leave it at,
but for the last one while it has not yet taken effect. -/
inductive State.OutputFollows (base : List ToneRecord) (on : Bool) (s : State) : List ToneRecord → Prop
  | upToDate {since} (ht : s.out.tone = base ++ since) (ha : s.ChannelUpToDate)
      (ho : s.env.chanOn = outputAfter on since) : s.OutputFollows base on since
  | lastPending {since r} (ht : s.out.tone = base ++ (since ++ [r])) (ha : s.env.toneApplied + 1 = s.out.tone.length)
      (ho : s.env.chanOn = outputAfter on since) : s.OutputFollows base on (since ++ [r])

variable {base since : List ToneRecord} {on : Bool}

/-- No step brings a record into the LED trace that is no buffer (R120). -/
theorem step_ledHoldsBuffers (hl : s.LedHoldsBuffers) (h : step s = .next t) : t.LedHoldsBuffers := by
  obtain ⟨xs, hled, hxs⟩ := (step_historyGrows h).led
  intro r hr
  rw [hled, List.mem_append] at hr
  rcases hr with hr | hr
  · exact hl r hr
  · rw [hxs r hr]
    decide

/-- A step adds no record to the tone trace, or one. -/
theorem step_tone (h : step s = .next t) : t.out.tone = s.out.tone ∨ ∃ r, t.out.tone = s.out.tone ++ [r] := by
  obtain ⟨⟨_, _, ht⟩ | ⟨rs, hm, ht⟩, _⟩ := step_move h
  · exact .inl ht
  · rcases hm.records with rfl | ⟨r, rfl, _⟩
    · exact .inl (ht.trans (List.append_nil _))
    · exact .inr ⟨r, ht⟩

/-- A step that takes no record keeps that the output follows the records, if one joins the trace only when all before
it have taken effect. -/
theorem State.OutputFollows.of_untaken (hf : s.OutputFollows base on since)
    (htone : t.out.tone = s.out.tone ∨ ∃ r, t.out.tone = s.out.tone ++ [r])
    (hturn : t.out.tone ≠ s.out.tone → s.ChannelUpToDate) (happ : t.env.toneApplied = s.env.toneApplied)
    (hon : t.env.chanOn = s.env.chanOn) : ∃ since', t.OutputFollows base on since' := by
  rcases htone with hsame | ⟨r, hnew⟩
  · refine ⟨since, ?_⟩
    cases hf with
    | upToDate ht ha ho => exact .upToDate (hsame.trans ht) (by rw [ChannelUpToDate, happ, hsame, ha]) (hon.trans ho)
    | lastPending ht ha ho => exact .lastPending (hsame.trans ht) (by rw [happ, hsame, ha]) (hon.trans ho)
  · have hall : s.env.toneApplied = s.out.tone.length := hturn (by rw [hnew]; simp)
    cases hf with
    | upToDate ht ha ho =>
      refine ⟨since ++ [r], .lastPending (by rw [hnew, ht, List.append_assoc]) ?_ (hon.trans ho)⟩
      rw [happ, hnew, List.length_append, hall]
      rfl
    | lastPending ht ha ho => omega

/-- A step that takes a record takes the one that was pending, and then the output is up to date. -/
theorem State.OutputFollows.of_taken {r : ToneRecord} (hf : s.OutputFollows base on since)
    (hr : s.out.tone[s.env.toneApplied]? = some r) (hout : t.out = s.out)
    (happ : t.env.toneApplied = s.env.toneApplied + 1) (hon : t.env.chanOn = outputAfter s.env.chanOn [r]) :
    t.OutputFollows base on since := by
  cases hf with
  | upToDate ht ha ho =>
    rw [ha, List.getElem?_eq_none (Nat.le_refl _)] at hr
    cases hr
  | @lastPending before r' ht ha ho =>
    have hlast : s.env.toneApplied = (base ++ before).length := by
      rw [ht] at ha
      simp only [List.length_append, List.length_singleton] at ha ⊢
      omega
    rw [ht, hlast, ← List.append_assoc, List.getElem?_concat_length] at hr
    cases hr
    refine .upToDate (by rw [hout, ht]) (by rw [ChannelUpToDate, happ, hout, ha]) ?_
    rw [hon, ho, outputAfter_append]

/-- The next state of an execution is that of its step, or the same where the step stops. -/
theorem trajectory_succ (σ : Nat → Event) (s : State) (n : Nat) :
    step ((trajectory σ s n).withEvent (σ n)) = .next (trajectory σ s (n + 1)) ∨
      trajectory σ s (n + 1) = trajectory σ s n := by
  rw [trajectory]
  split
  · rename_i h
    exact .inl h
  · exact .inr rfl
  · exact .inr rfl

/-- Along an execution on which each record takes effect before the next comes, the output follows the records (R257). -/
theorem trajectory_outputFollows {σ : Nat → Event} (hl : s.LedHoldsBuffers) (hu : s.ChannelUpToDate)
    (hturn : AppliedInTurn σ s) (n : Nat) :
    (trajectory σ s n).LedHoldsBuffers ∧
      ∃ since, (trajectory σ s n).OutputFollows s.out.tone s.env.chanOn since := by
  induction n with
  | zero => exact ⟨hl, [], .upToDate (List.append_nil _).symm hu rfl⟩
  | succ n ih =>
    rcases trajectory_succ σ s n with h | h
    · obtain ⟨hled, since, hf⟩ := ih
      have hled : ((trajectory σ s n).withEvent (σ n)).LedHoldsBuffers := hled
      refine ⟨step_ledHoldsBuffers hled h, ?_⟩
      rcases step_channel hled h with ⟨happ, hon⟩ | ⟨r, hr, hout, happ, hon⟩
      · have htone := step_tone h
        exact hf.of_untaken htone (hturn n) happ hon
      · exact ⟨since, hf.of_taken hr hout happ hon⟩
    · rw [h]
      exact ih

end Sys2Proof.Machine

namespace Sys2Proof

open Machine

/-- Settles O49: a step does the same with another channel, and along the execution the output follows the records. -/
theorem blockReadsNothingOfTheChannel : Obligations.BlockReadsNothingOfTheChannel := by
  refine ⟨fun s t f d on sus tx h => ?_, fun σ s hl hu hturn n => ?_⟩
  · obtain ⟨c, hc⟩ := step_sameButChannel (c := ⟨f, d, on, sus, tx⟩) t h
    exact ⟨t.withChannel c, hc, rfl, rfl, rfl, rfl, rfl⟩
  · obtain ⟨_, since, hf⟩ := trajectory_outputFollows hl hu hturn n
    cases hf with
    | upToDate ht ha ho => exact ⟨since, ht, .inl ⟨ha, ho⟩⟩
    | lastPending ht ha ho => exact ⟨_, ht, .inr ⟨ha, by rwa [List.dropLast_concat]⟩⟩

end Sys2Proof

end

/-! What a HOST step and a SEQ step run (spec/20_memory.md R77, spec/30_encoding.md R100, spec/42_tone_sequencer.md R180),
and that a command which is held does nothing. -/

section

namespace Sys2Proof.Machine

variable {s : State}

/-- A HOST step runs the command it decodes, in the state with the choice taken and the command's words consumed. -/
theorem step_host_command {i : Instr} {rest : List Word} (he : s.nextEvent = .host)
    (hf : s.block.fsm.hostEnabled = true) (hd : decodeCommand s.port.ended s.port.stream = .ok (i, rest)) :
    step s = exec i { s.afterEvent with port := { s.port with stream := rest } } := by
  rw [← s.afterEvent_block] at hf
  rw [← s.afterEvent_port] at hd ⊢
  rw [step_of_fetch he, fetchFor, fetchHost_command hf hd, runFetched]

/-- A SEQ step runs the micro-step of FSM_STATE, in the state with the choice taken. -/
theorem step_seq_microStep {i : Instr} (he : s.nextEvent = .seq) (hd : decodeUstep s.block.fsm.code = .ok i) :
    step s = exec i s.afterEvent := by
  rw [← s.afterEvent_block] at hd
  rw [step_of_fetch he, fetchFor, fetchSeq_microStep hd, runFetched]

/-- While SEQ is mid-segment a HOST step only uses up its choice. -/
theorem step_host_held (he : s.nextEvent = .host) (hf : s.block.fsm.hostEnabled = false) :
    step s = .next s.afterEvent := by
  rw [← s.afterEvent_block] at hf
  rw [step_of_fetch he, fetchFor, fetchHost_held hf, runFetched]

/-- Every command and every illegal header is a HOST step, and so does nothing while HOST is held. -/
theorem exec_command_held {i : Instr} (hi : i.isCommand = true) (hf : s.block.fsm.hostEnabled = false) :
    exec i s = .next s := by
  cases i with
  | setmel _ _ _ | play _ | run _ | stop _ | encode _ _ _ | resolve _ _ | rdreg _ _ | rdmel _ _
  | illegalOp0 _ | illegalOp9 _ | illegalOpA _ | illegalOpB _ | illegalOpC _ | illegalOpD _ | illegalOpE _
  | illegalOpF _ => exact hostStep_held hf
  | _ => cases hi

end Sys2Proof.Machine

namespace Sys2Proof

open Machine

/-- Settles O4: fetching takes the choice first, which touches neither the block nor the stream. -/
theorem stepRunsTheDecodedInstruction : Obligations.StepRunsTheDecodedInstruction :=
  ⟨fun _ _ _ he hf hd => step_host_command he hf hd, fun _ _ he hd => step_seq_microStep he hd⟩

/-- Settles O7: the enabled states are R77's four, and in the others neither a command nor a HOST step does anything. -/
theorem hostIsHeldMidSegment : Obligations.HostIsHeldMidSegment :=
  ⟨Fsm.hostEnabled_iff, fun _ hf => ⟨fun _ hi => exec_command_held hi hf, fun he => step_host_held he hf⟩⟩

end Sys2Proof

end

/-! The frame of the micro-steps (spec/20_memory.md R75, R78, spec/42_tone_sequencer.md R180): what SEQ leaves alone
outside the block. -/

section

namespace Sys2Proof.Machine

variable {s t : State}

/-- `t` has the command interface, the LED trace and ENV of `s`. -/
structure State.OutsideKept (s t : State) : Prop where
  port : t.port = s.port
  led : t.out.led = s.out.led
  env : t.env = s.env

/-- A micro-step keeps what its outcome keeps. -/
theorem seqStep_outsideKept {f : Fsm} {o : Host.Outcome State Fault Refusal} (ho : o = .next t → s.OutsideKept t)
    (h : seqStep f s o = .next t) : s.OutsideKept t := by
  rcases seqStep_next h with ⟨_, h⟩ | ⟨_, rfl⟩
  · exact ho h
  · exact ⟨rfl, rfl, rfl⟩

/-- Every micro-step keeps the command interface, the LED trace and ENV. -/
theorem exec_microStep_outsideKept {i : Instr} (hi : i.isMicroStep = true) (h : exec i s = .next t) :
    s.OutsideKept t := by
  cases i with
  | ustepFetch =>
    refine seqStep_outsideKept (fun ho => ?_) h
    split at ho
    · split at ho <;> cases ho
      exact ⟨rfl, rfl, rfl⟩
    · cases ho
      exact ⟨s.passEnd_port, by rw [s.passEnd_out], s.passEnd_env⟩
  | ustepGetmax =>
    refine seqStep_outsideKept (fun ho => ?_) h
    cases ho
    exact ⟨s.afterDraw_port, by simp, s.afterDraw_env⟩
  | ustepWait | ustepNext =>
    refine seqStep_outsideKept (fun ho => ?_) h
    split at ho <;> cases ho <;> exact ⟨rfl, rfl, rfl⟩
  | ustepSetfreq | ustepSetduty | ustepEnable | ustepSleep | ustepDisable =>
    refine seqStep_outsideKept (fun ho => ?_) h
    cases ho
    exact ⟨rfl, rfl, rfl⟩
  | _ => cases hi

/-- A micro-step writes neither CHAN nor FAULT nor the melody store: they are none of its fields (R31). -/
theorem exec_microStep_block {i : Instr} (hi : i.isMicroStep = true) (h : exec i s = .next t) :
    t.block.chan = s.block.chan ∧ t.block.fault = s.block.fault ∧ t.block.mel = s.block.mel := by
  obtain ⟨hchan, _, _, _, _, _, hfault, hmel, _, _⟩ := fieldsHaveOnlyTheirWriters s t i h
  refine ⟨hchan, by_contra fun hne => ?_, by_contra fun hne => ?_⟩
  · rcases hfault hne with ⟨r, rfl⟩ | ⟨r, rfl⟩ <;> cases hi
  · obtain ⟨r, n, es, rfl⟩ := hmel (.inl hne)
    cases hi

/-- An instruction adds at most one record to the tone trace. -/
theorem exec_tone {i : Instr} (h : exec i s = .next t) :
    ∃ rs : List ToneRecord, rs.length ≤ 1 ∧ t.out.tone = s.out.tone ++ rs := by
  obtain ⟨rs, hm, ht, _⟩ := exec_move i h
  refine ⟨rs, ?_, ht⟩
  rcases hm.records with rfl | ⟨r, rfl, _⟩
  · exact Nat.zero_le 1
  · exact Nat.le_refl 1

/-- A micro-step does nothing in a state whose FSM_STATE does not decode to it. -/
theorem exec_microStep_held {i : Instr} (hi : i.isMicroStep = true) (hd : decodeUstep s.block.fsm.code ≠ .ok i) :
    exec i s = .next s := by
  cases i with
  | ustepFetch | ustepSetfreq | ustepGetmax | ustepSetduty | ustepEnable | ustepSleep | ustepWait | ustepDisable
  | ustepNext => exact seqStep_held fun hf => hd (by rw [hf]; rfl)
  | _ => cases hi

end Sys2Proof.Machine

namespace Sys2Proof

open Machine

/-- Settles O43: the block's part is R31's table of writers, and the rest is what a micro-step's outcome keeps. -/
theorem microStepFrame : Obligations.MicroStepFrame := by
  refine ⟨fun s t i hi h => ?_, fun _ _ hi hd => exec_microStep_held hi hd⟩
  obtain ⟨hchan, hfault, hmel⟩ := exec_microStep_block hi h
  obtain ⟨hport, hled, henv⟩ := exec_microStep_outsideKept hi h
  exact ⟨hchan, hfault, hport, hled, henv, exec_tone h, fun k => by rw [hmel]⟩

end Sys2Proof

end

/-! The melody store along a step (spec/20_memory.md R85, spec/41_melody_builder.md R160): SETMEL alone writes it, from
UNSET or IDLE, and keeps its canonical form. -/

section

namespace Sys2Proof.Machine

variable {s t : State} {b c : Block} {now : Nat} {rs : List ToneRecord}

/-- A move leaves the melody store, or is SETMEL's, from UNSET or IDLE (R161). -/
theorem BlockMove.mel (m : BlockMove now b c rs) :
    c.mel = b.mel ∨ (b.fsm = .unset ∨ b.fsm = .idle) ∧
      ∃ es : List EntryWord, es.length ≤ Config.capacity ∧ c.mel = MelStore.writeFrom b.mel 0 (resolvePrefix es) := by
  cases m with
  | install es hf hl => exact .inr ⟨hf, es, hl, rfl⟩
  | stay | start _ _ _ | faultUnset _ | faultLoop _ _ | stop _ | load _ _ _ | wrap _ _ _ | done _ _ _ | honour _ _
  | setfreq _ | getmax _ _ | setduty _ | enable _ | sleep _ | wake _ _ | disable _ | advance _ _ => exact .inl rfl

/-- Every move keeps the canonical form: what SETMEL stores fits the capacity. -/
theorem BlockMove.mel_wf (m : BlockMove now b c rs) (hw : MelStore.wf b.mel = true) : MelStore.wf c.mel = true := by
  rcases m.mel with hm | ⟨_, es, hl, hm⟩
  · rwa [hm]
  · rw [hm]
    refine MelStore.wf_writeFrom _ hw ?_
    rw [Nat.zero_add]
    exact (length_resolvePrefix_le es).trans hl

/-- A next state of a step is what the choice made, or what the instruction it found made. -/
theorem step_next (h : step s = .next t) :
    fetchFor s.nextEvent s.afterEvent = (none, t) ∨
      ∃ i u, fetchFor s.nextEvent s.afterEvent = (some i, u) ∧ exec i u = .next t := by
  rw [step_of_fetch rfl] at h
  generalize fetchFor s.nextEvent s.afterEvent = p at h ⊢
  obtain ⟨_ | i, u⟩ := p
  case none =>
    cases h
    exact .inl rfl
  case some => exact .inr ⟨i, u, rfl, h⟩

/-- Only a HOST step or a reset changes the melody store: SETMEL alone writes it, and only HOST's choice runs a
command. -/
theorem step_mel_changed (h : step s = .next t) (hne : t.block.mel ≠ s.block.mel) :
    s.nextEvent = .host ∨ s.nextEvent = .reset := by
  rcases step_next h with hf | ⟨i, u, hf, hx⟩
  · obtain ⟨_, _, ⟨hb, _⟩ | ⟨he, _⟩⟩ := fetchFor_still s.nextEvent s.afterEvent
    · rw [hf, s.afterEvent_block] at hb
      exact absurd (congrArg Block.mel hb) hne
    · exact .inr he
  · have hi : (fetchFor s.nextEvent s.afterEvent).1 = some i := by rw [hf]
    have hu : u.block = s.block := by
      have hb := fetchFor_some_block hi
      rwa [hf, s.afterEvent_block] at hb
    obtain ⟨_, _, _, _, _, _, _, hmel, _, _⟩ := fieldsHaveOnlyTheirWriters u t i hx
    obtain ⟨r, n, es, rfl⟩ := hmel (.inl (by rwa [hu]))
    exact .inl ((fetchFor_kind hi).1 rfl)

end Sys2Proof.Machine

namespace Sys2Proof

open Machine

/-- Settles O52: a reset empties the store, a move keeps its form, and the move that changes it is SETMEL's. -/
theorem stepKeepsTheMelodyCanonical : Obligations.StepKeepsTheMelodyCanonical := by
  intro s t hw h
  obtain ⟨⟨he, hb, _⟩ | ⟨rs, hm, _⟩, _⟩ := step_move h
  · rw [hb]
    exact ⟨rfl, fun _ => .inr he⟩
  · refine ⟨hm.mel_wf hw, fun hne => (step_mel_changed h hne).imp_left fun he => ⟨he, ?_⟩⟩
    rcases hm.mel with hsame | ⟨hf, _⟩
    · exact absurd hsame hne
    · exact hf

end Sys2Proof

end

/-! The encodings are one to one (spec/30_encoding.md R100 to R107, R110, R120): an instruction comes back from its words,
and the words a header announces come back from its command. -/

section

namespace Sys2Proof

variable {h : Word} {ws : List Word}

/-- A header that stands alone. -/
theorem decode_single (h : Word) : decode (.stream [h]) = .ok (commandOf h []) := decode_stream (Nat.zero_le _)

/-- A record comes back from its word and its payload; only DUTY_OUT may have one (R120). -/
theorem decodeRecord_recordWord (a : Act) (x : Word) (payload : List Duty) :
    decodeRecord (recordWord a x) payload =
      match a with
      | .setFreq => decodeToneRecord (.actSetFreq x) payload
      | .getMaxDuty => decodeToneRecord (.actGetMaxDuty x) payload
      | .setDuty => decodeToneRecord (.actSetDuty x) payload
      | .enable => decodeToneRecord (.actEnable x) payload
      | .disable => decodeToneRecord (.actDisable x) payload
      | .sleep => decodeToneRecord (.actSleep x) payload
      | .wake => decodeToneRecord (.actWake x) payload
      | .dutyOut => .ok (.actDutyOut x payload) := by
  rw [decodeRecord, if_neg (not_not.mpr (recordWord_zero a x)), recordWord_act, recordWord_operand]
  cases a <;> rfl

/-- Only SETMEL and ENCODE have operand words, and they come back if the header announces no fewer. -/
theorem decode_encode {i : Instr} (hw : i.wellFormed = true) : decode (encode i) = .ok i := by
  cases i with
  | setmel rsv n es =>
    have hl : (es.map encodeEntryWord).length ≤ operandCount (header16 0x1#4 rsv n) := by
      rw [operandCount_setmel (opOf_header16 _ _ _), low16_header16, List.length_map]
      exact of_decide_eq_true hw
    rw [encode, decode_stream hl, commandOf_1 _ (opOf_header16 _ _ _), rsv12_header16, low16_header16,
      map_decode_encode_entries]
  | encode rsv maxd ps =>
    have hl : (ps.map encodePixelWord).length ≤ operandCount (header16 0x5#4 rsv maxd) := by
      rw [operandCount_encode (opOf_header16 _ _ _), List.length_map]
      exact of_decide_eq_true hw
    rw [encode, decode_stream hl, commandOf_5 _ (opOf_header16 _ _ _), rsv12_header16, low16_header16,
      map_decode_encode_pixels]
  | play _ | run _ | stop _ | resolve _ _ | rdreg _ _ | rdmel _ _ | illegalOp0 _ | illegalOp9 _ | illegalOpA _
  | illegalOpB _ | illegalOpC _ | illegalOpD _ | illegalOpE _ | illegalOpF _ =>
    simp [encode, decode_single, commandOf]
  | entry _ _ | pixel _ _ _ _ => simp [encode, decode]
  | ustepFetch | ustepSetfreq | ustepGetmax | ustepSetduty | ustepEnable | ustepSleep | ustepWait | ustepDisable
  | ustepNext => rfl
  | actSetFreq _ | actGetMaxDuty _ | actSetDuty _ | actEnable _ | actDisable _ | actSleep _ | actWake _
  | actDutyOut _ _ => exact decodeRecord_recordWord _ _ _

/-- The command of a header that announces no operand words is complete, and its encoding is the header (R107, R112). -/
theorem commandOf_single (h1 : opOf h ≠ 0x1#4) (h5 : opOf h ≠ 0x5#4) :
    (commandOf h []).complete = true ∧ encode (commandOf h []) = .stream [h] := by
  have h28 := header28_fields h
  have h8 := header8_fields h
  have h4 := header4_fields h
  rcases opOf_cases h with ho | ho | ho | ho | ho | ho | ho | ho | ho | ho | ho | ho | ho | ho | ho | ho <;>
    simp_all [commandOf, encode, Instr.complete]

/-- The command of a header and exactly the operand words it announces is complete, and its encoding is those words
(R101, R110). -/
theorem commandOf_whole (hl : ws.length = operandCount h) :
    (commandOf h ws).complete = true ∧ encode (commandOf h ws) = .stream (h :: ws) := by
  by_cases h1 : opOf h = 0x1#4
  · rw [commandOf_1 _ h1]
    refine ⟨decide_eq_true ?_, ?_⟩
    · rw [List.length_map, hl, operandCount_setmel h1]
    · rw [encode, ← h1, header16_fields, map_encode_decode_entries]
  by_cases h5 : opOf h = 0x5#4
  · rw [commandOf_5 _ h5]
    refine ⟨decide_eq_true ?_, ?_⟩
    · rw [List.length_map, hl, operandCount_encode h5]
    · rw [encode, ← h5, header16_fields, map_encode_decode_pixels]
  · obtain rfl : ws = [] := List.length_eq_zero_iff.mp (hl.trans (operandCount_other h1 h5))
    exact commandOf_single h1 h5

/-- A command with all its operand words holds no more than its header announces. -/
theorem Instr.wellFormed_of_complete {i : Instr} (hi : i.isCommand = true) (hc : i.complete = true) :
    i.wellFormed = true := by
  cases i with
  | setmel _ _ _ | encode _ _ _ => exact decide_eq_true (of_decide_eq_true hc).le
  | play _ | run _ | stop _ | resolve _ _ | rdreg _ _ | rdmel _ _ | illegalOp0 _ | illegalOp9 _ | illegalOpA _
  | illegalOpB _ | illegalOpC _ | illegalOpD _ | illegalOpE _ | illegalOpF _ => rfl
  | _ => cases hi

/-- A header and exactly the operand words it announces are one complete command's encoding (R100, R101). -/
theorem decode_whole (hl : ws.length = operandCount h) :
    ∃ i : Instr, decode (.stream (h :: ws)) = .ok i ∧ i.isCommand = true ∧ i.complete = true ∧
      encode i = .stream (h :: ws) :=
  ⟨commandOf h ws, decode_stream hl.le, Machine.commandOf_isCommand h ws, commandOf_whole hl⟩

/-- Settles O1, family by family: each field reads back from the word it was put into. -/
theorem decodeOfEncodeIsTheInstruction : Obligations.DecodeOfEncodeIsTheInstruction := fun _ hw => decode_encode hw

/-- Settles O2: the command of the header and of as many words as it announces. -/
theorem everyHeaderDecodesToOneCompleteCommand : Obligations.EveryHeaderDecodesToOneCompleteCommand := by
  intro h ws ended hl
  have hlen : (ws.take (operandCount h)).length = operandCount h := List.length_take_of_le hl
  have hi := Machine.commandOf_isCommand h (ws.take (operandCount h))
  obtain ⟨hc, he⟩ := commandOf_whole hlen
  exact ⟨_, hi, hc, Instr.wellFormed_of_complete hi hc, he, decodeCommand_whole hl⟩

/-- Settles O3: nine words, read by the decoder. -/
theorem wordsOfTheSpecDecode : Obligations.WordsOfTheSpecDecode := by
  unfold Obligations.WordsOfTheSpecDecode
  decide

/-- Settles O37: an operand word's meaning is to be sent, its fields put together (R104, R106). -/
theorem operandWordsJoinTheStream : Obligations.OperandWordsJoinTheStream :=
  ⟨fun _ _ _ => rfl, fun _ _ _ _ _ => rfl⟩

end Sys2Proof

end

/-! A HOST step on a header (spec/30_encoding.md R101, R111, R112, R113): which words it consumes, that it answers once,
and the commands it rejects. -/

section

namespace Sys2Proof.Machine

variable {s : State} {h : Word} {ws : List Word}

/-- `t` has the command interface of `s`, and one response more, which echoes `op` (R118). -/
def State.AnsweredOnce (s : State) (op : BitVec 4) (t : State) : Prop :=
  ∃ found st payload, t.port = { s.port with responses := s.port.responses ++ [⟨rspWord op found st, payload⟩] }

/-! Every command's effect answers once, whatever its operands and the state are -/

theorem setmelBody_answersOnce (rsv : BitVec 12) (n : BitVec 16) (es : List EntryWord) :
    s.AnsweredOnce 0x1#4 (setmelBody rsv n es s) := by
  unfold setmelBody installMelody
  repeat' split
  all_goals exact ⟨_, _, _, rfl⟩

theorem playBody_answersOnce (rsv : BitVec 28) : s.AnsweredOnce 0x2#4 (playBody rsv s) := by
  unfold playBody
  repeat' split
  all_goals exact ⟨_, _, _, rfl⟩

theorem runBody_answersOnce (rsv : BitVec 28) : s.AnsweredOnce 0x3#4 (runBody rsv s) := by
  unfold runBody
  repeat' split
  all_goals exact ⟨_, _, _, rfl⟩

theorem stopBody_answersOnce (rsv : BitVec 28) : s.AnsweredOnce 0x4#4 (stopBody rsv s) := by
  unfold stopBody
  repeat' split
  all_goals exact ⟨_, _, _, rfl⟩

theorem encodeBody_answersOnce (rsv : BitVec 12) (m : Duty) (ps : List PixelWord) :
    s.AnsweredOnce 0x5#4 (encodeBody rsv m ps s) := by
  unfold encodeBody
  repeat' split
  all_goals exact ⟨_, _, _, rfl⟩

theorem resolveBody_answersOnce (rsv : BitVec 20) (note : NoteCode) :
    s.AnsweredOnce 0x6#4 (resolveBody rsv note s) := by
  unfold resolveBody
  repeat' split
  all_goals exact ⟨_, _, _, rfl⟩

theorem rdregBody_answersOnce (rsv : BitVec 24) (reg : BitVec 4) :
    s.AnsweredOnce 0x7#4 (rdregBody rsv reg s) := by
  unfold rdregBody
  repeat' split
  all_goals exact ⟨_, _, _, rfl⟩

theorem rdmelBody_answersOnce (rsv : BitVec 20) (index : BitVec 8) :
    s.AnsweredOnce 0x8#4 (rdmelBody rsv index s) := by
  unfold rdmelBody
  repeat' split
  all_goals exact ⟨_, _, _, rfl⟩

/-! The command of a header, in a state where HOST steps -/

section enabled
variable (hf : s.block.fsm.hostEnabled = true)
include hf

/-- OP = 0x0 and OP in 0x9..0xF answer ERR_ILLEGAL, and that is all they do (R112). -/
theorem exec_commandOf_illegal (ho : opOf h = 0x0#4 ∨ 9 ≤ (opOf h).toNat) :
    exec (commandOf h ws) s = .next (s.answer (opOf h) .errIllegal) := by
  rcases opOf_cases h with hk | hk | hk | hk | hk | hk | hk | hk | hk | hk | hk | hk | hk | hk | hk | hk <;>
    rw [hk] at ho ⊢
  · rw [commandOf_0 _ hk]; exact hostStep_enabled hf
  iterate 8 exact absurd ho (by decide)
  · rw [commandOf_9 _ hk]; exact hostStep_enabled hf
  · rw [commandOf_A _ hk]; exact hostStep_enabled hf
  · rw [commandOf_B _ hk]; exact hostStep_enabled hf
  · rw [commandOf_C _ hk]; exact hostStep_enabled hf
  · rw [commandOf_D _ hk]; exact hostStep_enabled hf
  · rw [commandOf_E _ hk]; exact hostStep_enabled hf
  · rw [commandOf_F _ hk]; exact hostStep_enabled hf

/-- Whatever the header is, its command answers once and echoes OP (R101, R118). -/
theorem exec_commandOf_answersOnce (h : Word) (ws : List Word) :
    ∃ t, exec (commandOf h ws) s = .next t ∧ s.AnsweredOnce (opOf h) t := by
  by_cases hi : opOf h = 0x0#4 ∨ 9 ≤ (opOf h).toNat
  · exact ⟨_, exec_commandOf_illegal hf hi, _, _, _, rfl⟩
  rcases opOf_cases h with hk | hk | hk | hk | hk | hk | hk | hk | hk | hk | hk | hk | hk | hk | hk | hk <;>
    rw [hk] at hi ⊢
  · exact absurd hi (by decide)
  · rw [commandOf_1 _ hk]; exact ⟨_, hostStep_enabled hf, setmelBody_answersOnce _ _ _⟩
  · rw [commandOf_2 _ hk]; exact ⟨_, hostStep_enabled hf, playBody_answersOnce _⟩
  · rw [commandOf_3 _ hk]; exact ⟨_, hostStep_enabled hf, runBody_answersOnce _⟩
  · rw [commandOf_4 _ hk]; exact ⟨_, hostStep_enabled hf, stopBody_answersOnce _⟩
  · rw [commandOf_5 _ hk]; exact ⟨_, hostStep_enabled hf, encodeBody_answersOnce _ _ _⟩
  · rw [commandOf_6 _ hk]; exact ⟨_, hostStep_enabled hf, resolveBody_answersOnce _ _⟩
  · rw [commandOf_7 _ hk]; exact ⟨_, hostStep_enabled hf, rdregBody_answersOnce _ _⟩
  · rw [commandOf_8 _ hk]; exact ⟨_, hostStep_enabled hf, rdmelBody_answersOnce _ _⟩
  iterate 7 exact absurd hi (by decide)

/-- Fewer operand words than the header announces answer ERR_MALFORMED; only SETMEL and ENCODE announce any (R113). -/
theorem exec_commandOf_malformed (hl : ws.length < operandCount h) :
    exec (commandOf h ws) s = .next (s.answer (opOf h) .errMalformed) := by
  by_cases h1 : opOf h = 0x1#4
  · rw [operandCount_setmel h1, ← ws.length_map decodeEntryWord] at hl
    rw [commandOf_1 _ h1, h1]
    exact (hostStep_enabled hf).trans (congrArg _ (if_pos hl))
  by_cases h5 : opOf h = 0x5#4
  · rw [operandCount_encode h5, ← ws.length_map decodePixelWord] at hl
    rw [commandOf_5 _ h5, h5]
    exact (hostStep_enabled hf).trans (congrArg _ (if_pos hl))
  · rw [operandCount_other h1 h5] at hl
    exact absurd hl (Nat.not_lt_zero _)

/-- A whole SETMEL with a reserved bit that is not 0 answers ERR_RESERVED, before any other check (R111, R161). -/
theorem execSetmel_reserved {rsv : BitVec 12} {n : BitVec 16} {es : List EntryWord} (hl : es.length = n.toNat)
    (hr : rsv ≠ 0#12) : exec (.setmel rsv n es) s = .next (s.answer 0x1#4 .errReserved) := by
  refine (hostStep_enabled hf).trans (congrArg _ ?_)
  rw [setmelBody, if_neg hl.not_lt, if_pos hr]

/-- A whole ENCODE with a reserved bit that is not 0, in its header or in a pixel word, answers ERR_RESERVED (R111). -/
theorem execEncode_reserved {rsv : BitVec 12} {m : Duty} {ps : List PixelWord} (hl : ps.length = Config.pixels)
    (hr : rsv ≠ 0#12 ∨ ∃ p ∈ ps, p.rsv ≠ 0#8) :
    exec (.encode rsv m ps) s = .next (s.answer 0x5#4 .errReserved) := by
  refine (hostStep_enabled hf).trans (congrArg _ ?_)
  rw [encodeBody, if_neg hl.not_lt, ← hl, List.take_length, if_pos]
  simpa using hr

end enabled

/-! What a HOST step runs, and the state it runs it in -/

/-- The state in which a HOST step runs its command: the choice is taken and `rest` is left of the stream. -/
def State.consuming (s : State) (rest : List Word) : State :=
  { s.afterEvent with port := { s.port with stream := rest } }

theorem State.consuming_enabled (hf : s.block.fsm.hostEnabled = true) (rest : List Word) :
    (s.consuming rest).block.fsm.hostEnabled = true := by
  rwa [State.consuming, s.afterEvent_block]

section step
variable (he : s.nextEvent = .host) (hf : s.block.fsm.hostEnabled = true) (hs : s.port.stream = h :: ws)
include he hf hs

/-- Where the operand words are all there, a HOST step consumes the header and those (R101). -/
theorem step_host_whole (hl : operandCount h ≤ ws.length) :
    step s = exec (commandOf h (ws.take (operandCount h))) (s.consuming (ws.drop (operandCount h))) :=
  step_host_command he hf (by rw [hs, decodeCommand_whole hl])

/-- Where they are not and the stream has ended, it consumes what is there (R113). -/
theorem step_host_ended (hl : ws.length ≤ operandCount h) (hend : s.port.ended = true) :
    step s = exec (commandOf h ws) (s.consuming []) :=
  step_host_command he hf (by rw [hend, hs, decodeCommand_ended hl])

end step

/-! What the other choices run -/

/-- A word in operand position is an instruction (R101). -/
theorem fetchSend_operand {w : Word} {i : Instr} (hend : s.port.ended = false)
    (hd : decodeOperand (nextPosition s.port.stream) w = some i) : fetchSend w s = (some i, s) := by
  simp [fetchSend, hend, hd]

/-- ENV takes the oldest tone record that it has not applied (R257). -/
theorem fetchTone_record {r : ToneRecord} {i : Instr} (hr : s.out.tone[s.env.toneApplied]? = some r)
    (hd : decodeRecord r.word [] = .ok i) :
    fetchTone s = (some i, { s with env := { s.env with toneApplied := s.env.toneApplied + 1 } }) := by
  simp [fetchTone, hr, hd]

/-- The transmitter takes the oldest buffer that it has not consumed (R258). -/
theorem fetchLed_record {r : LedRecord} {i : Instr} (hr : s.out.led[s.env.ledApplied]? = some r)
    (hd : decodeRecord r.word r.payload = .ok i) :
    fetchLed s = (some i, { s with env := { s.env with ledApplied := s.env.ledApplied + 1 } }) := by
  simp [fetchLed, hr, hd]

end Sys2Proof.Machine

namespace Sys2Proof

open Machine

/-- Settles O8: the header alone says which words the step consumes, and every command of a header answers once. -/
theorem hostStepConsumesItsCommandAndAnswersOnce : Obligations.HostStepConsumesItsCommandAndAnswersOnce := by
  intro s h ws he hf hs hl
  obtain ⟨t, ht, found, st, payload, hp⟩ :=
    exec_commandOf_answersOnce (State.consuming_enabled hf (ws.drop (operandCount h))) h (ws.take (operandCount h))
  refine ⟨t, ⟨rspWord (opOf h) found st, payload⟩, (step_host_whole he hf hs hl).trans ht, ?_, ?_, rspWord_op _ _ _⟩
  · rw [hp]; rfl
  · rw [hp]; rfl

/-- Settles O9, format by format: the check of the reserved bits is the first that a whole command makes. -/
theorem reservedBitsAreRejected : Obligations.ReservedBitsAreRejected := by
  intro s h ws he hf hs hl hr
  have hen := State.consuming_enabled hf (ws.drop (operandCount h))
  have hlen : (ws.take (operandCount h)).length = operandCount h := List.length_take_of_le hl
  rw [step_host_whole he hf hs hl]
  rcases hr with ⟨ho, hr⟩ | ⟨ho | ho | ho, hr⟩ | ⟨ho, hr⟩ | ⟨ho | ho, hr⟩ | ⟨ho, hr⟩
  · rw [commandOf_1 _ ho, ho]
    refine execSetmel_reserved hen ?_ hr
    rw [List.length_map, hlen, operandCount_setmel ho]
  · rw [commandOf_2 _ ho, ho]; exact (hostStep_enabled hen).trans (congrArg _ (if_pos hr))
  · rw [commandOf_3 _ ho, ho]; exact (hostStep_enabled hen).trans (congrArg _ (if_pos hr))
  · rw [commandOf_4 _ ho, ho]; exact (hostStep_enabled hen).trans (congrArg _ (if_pos hr))
  · rw [operandCount_encode ho] at hlen hen ⊢
    rw [commandOf_5 _ ho, ho]
    refine execEncode_reserved hen (by rw [List.length_map, hlen]) (hr.imp_right ?_)
    rintro ⟨w, hw, hn⟩
    exact ⟨decodePixelWord w, List.mem_map_of_mem hw, hn⟩
  · rw [commandOf_6 _ ho, ho]; exact (hostStep_enabled hen).trans (congrArg _ (if_pos hr))
  · rw [commandOf_8 _ ho, ho]; exact (hostStep_enabled hen).trans (congrArg _ (if_pos hr))
  · rw [commandOf_7 _ ho, ho]; exact (hostStep_enabled hen).trans (congrArg _ (if_pos hr))

/-- Settles O10: an illegal header announces no operand words, and its command answers ERR_ILLEGAL. -/
theorem illegalHeadersAnswerErrIllegal : Obligations.IllegalHeadersAnswerErrIllegal := by
  refine ⟨fun s h ws he hf hs ho => ?_, fun s bits hf => ?_⟩
  · have hc : operandCount h = 0 := by
      refine operandCount_other ?_ ?_ <;> intro hk <;> rw [hk] at ho <;> exact absurd ho (by decide)
    rw [step_host_whole he hf hs (hc ▸ Nat.zero_le _), hc]
    exact exec_commandOf_illegal (State.consuming_enabled hf _) ho
  · have hx : ∀ op, hostStep s (s.answer op .errIllegal) = .next (s.answer op .errIllegal) :=
      fun _ => hostStep_enabled hf
    exact ⟨hx _, hx _, hx _, hx _, hx _, hx _, hx _, hx _⟩

/-- Settles O11: the step runs the command with the words that are there, which are too few. -/
theorem streamThatEndsInsideACommandIsMalformed : Obligations.StreamThatEndsInsideACommandIsMalformed := by
  intro s h ws he hf hs hl hend
  rw [step_host_ended he hf hs hl.le hend]
  exact exec_commandOf_malformed (State.consuming_enabled hf []) hl

/-- Settles O5, choice by choice: what each fetches, in the state with the choice taken. -/
theorem stepRunsOperandWordsAndRecords : Obligations.StepRunsOperandWordsAndRecords := by
  refine ⟨fun s w i he hend hd => ?_, fun s r i he hr hd => ?_, fun s r i he hr hd => ?_⟩
  · rw [← s.afterEvent_port] at hend hd
    rw [step_of_fetch he, fetchFor, fetchSend_operand hend hd, runFetched]
  · rw [← s.afterEvent_out, ← s.afterEvent_env] at hr
    rw [step_of_fetch he, fetchFor, fetchTone_record hr hd, runFetched, s.afterEvent_env]
  · rw [← s.afterEvent_out, ← s.afterEvent_env] at hr
    rw [step_of_fetch he, fetchFor, fetchLed_record hr hd, runFetched, s.afterEvent_env]

end Sys2Proof

end

/-! The assembler (spec/30_encoding.md R108, R115, R116, R117): the code of a token, the words of each line form, and that
the words of an accepted line are one command's encoding. -/

section

namespace Sys2Proof.Machine

/-! Tokens -/

/-- The code of `t` where the tokens of the codes `k`, `k + 1`, ... are those of a list; 0xFF where it is none of them
(R108, R116). -/
def codeFrom (t : List Char) (k : Nat) : List (List Char) → NoteCode
  | [] => 0xFF#8
  | x :: xs => if t = x then BitVec.ofNat 8 k else codeFrom t (k + 1) xs

theorem codeFrom_eq (t : List Char) (k : Nat) (xs : List (List Char)) :
    codeFrom t k xs = if xs.idxOf t < xs.length then BitVec.ofNat 8 (k + xs.idxOf t) else 0xFF#8 := by
  induction xs generalizing k with
  | nil => rfl
  | cons x xs ih =>
    by_cases hx : t = x
    · simp [codeFrom, hx]
    · simp [codeFrom, hx, ih, List.idxOf_cons_ne _ (Ne.symm hx), Nat.add_assoc, Nat.add_comm 1]

/-- The code of a token, token by token. -/
theorem tokenCode_eq_codeFrom (t : List Char) : tokenCode t = codeFrom t 0 noteTokens := by
  rw [codeFrom_eq, Nat.zero_add, tokenCode]

/-! Words from numbers -/

/-- A number below a field of its own is added to the fields above. -/
theorem append_ofNat {k m : Nat} (x : BitVec k) {n : Nat} (hn : n < 2 ^ m) :
    x ++ BitVec.ofNat m n = BitVec.ofNat (k + m) (x.toNat * 2 ^ m + n) := by
  apply BitVec.eq_of_toNat_eq
  have hx : x.toNat * 2 ^ m + n < 2 ^ (k + m) := by
    have := Nat.mul_le_mul_right (2 ^ m) (Nat.succ_le_of_lt x.isLt)
    rw [Nat.pow_add]
    rw [Nat.succ_mul] at this
    omega
  rw [BitVec.toNat_append, BitVec.toNat_ofNat, BitVec.toNat_ofNat, Nat.mod_eq_of_lt hn, Nat.mod_eq_of_lt hx,
    ← Nat.shiftLeft_add_eq_or_of_lt hn, Nat.shiftLeft_eq]

/-- A pixel word from the numbers of a triplet (R106, R115). -/
theorem encodePixelWord_ofNat {r g b : Nat} (hr : r ≤ 255) (hg : g ≤ 255) (hb : b ≤ 255) :
    encodePixelWord ⟨0#8, BitVec.ofNat 8 r, BitVec.ofNat 8 g, BitVec.ofNat 8 b⟩ =
      BitVec.ofNat 32 (r * 65536 + g * 256 + b) := by
  rw [encodePixelWord, append_ofNat _ (by omega), append_ofNat _ (by omega), append_ofNat _ (by omega)]
  refine congrArg (BitVec.ofNat 32) ?_
  simp only [BitVec.toNat_ofNat]
  omega

/-! The operand words of `setmel` and `encode` -/

section operands
variable {α : Type} {fits : α → Prop} [DecidablePred fits] {word : α → Word} {e : AsmError} {x : α} {xs : List α}
  {ws : List Word}

/-- One word for each operand if all of them fit, and otherwise the error `e`. -/
def wordsIf (fits : α → Prop) [DecidablePred fits] (word : α → Word) (e : AsmError) (xs : List α) :
    Except AsmError (List Word) :=
  if ∀ x ∈ xs, fits x then .ok (xs.map word) else .error e

theorem wordsIf_ok (h : ∀ x ∈ xs, fits x) : wordsIf fits word e xs = .ok (xs.map word) := if_pos h

theorem wordsIf_error (h : ∃ x ∈ xs, ¬ fits x) : wordsIf fits word e xs = .error e :=
  if_neg (by simpa using h)

theorem wordsIf_cons_fits (hx : fits x) :
    wordsIf fits word e (x :: xs) = (wordsIf fits word e xs).map (word x :: ·) := by
  by_cases hxs : ∀ y ∈ xs, fits y
  · rw [wordsIf_ok hxs, wordsIf_ok (List.forall_mem_cons.mpr ⟨hx, hxs⟩)]
    rfl
  · push Not at hxs
    obtain ⟨y, hy, hn⟩ := hxs
    rw [wordsIf_error ⟨y, hy, hn⟩, wordsIf_error ⟨y, List.mem_cons_of_mem x hy, hn⟩]
    rfl

theorem wordsIf_cons_not_fits (hx : ¬ fits x) : wordsIf fits word e (x :: xs) = .error e :=
  wordsIf_error ⟨x, List.mem_cons_self, hx⟩

/-- Words that are given stand behind the header, one for each operand. -/
theorem eq_cons_of_wordsIf {hd : Word} (h : (wordsIf fits word e xs).map (hd :: ·) = .ok ws) :
    ∃ ops, ws = hd :: ops ∧ ops.length = xs.length := by
  unfold wordsIf at h
  split at h <;> cases h
  exact ⟨_, rfl, List.length_map _⟩

end operands

/-- The duration of a pair fits its field (R115). -/
abbrev pairFits (p : AsmPair) : Prop := p.parts.2 < 2 ^ 24

/-- The entry word of a pair (R115, R117). -/
def pairWord (p : AsmPair) : Word := encodeEntryWord ⟨tokenCode p.parts.1, BitVec.ofNat 24 p.parts.2⟩

/-- The components of a triplet fit their lanes (R115). -/
abbrev tripletFits (p : Nat × Nat × Nat) : Prop := p.1 ≤ 255 ∧ p.2.1 ≤ 255 ∧ p.2.2 ≤ 255

/-- The pixel word of a triplet (R115). -/
def tripletWord (p : Nat × Nat × Nat) : Word := BitVec.ofNat 32 (p.1 * 65536 + p.2.1 * 256 + p.2.2)

theorem not_tripletFits_iff (p : Nat × Nat × Nat) : ¬ tripletFits p ↔ 255 < p.1 ∨ 255 < p.2.1 ∨ 255 < p.2.2 := by
  unfold tripletFits
  omega

theorem assemblePairs_eq (ps : List AsmPair) :
    assemblePairs ps = wordsIf pairFits pairWord .durationRange ps := by
  induction ps with
  | nil => rfl
  | cons p ps ih =>
    rw [assemblePairs, ih]
    by_cases hp : pairFits p
    · rw [if_neg hp.not_ge, wordsIf_cons_fits hp]
      cases wordsIf pairFits pairWord .durationRange ps <;> rfl
    · rw [if_pos (Nat.le_of_not_lt hp), wordsIf_cons_not_fits hp]

theorem assembleTriplets_eq (ts : List (Nat × Nat × Nat)) :
    assembleTriplets ts = wordsIf tripletFits tripletWord .componentRange ts := by
  induction ts with
  | nil => rfl
  | cons t ts ih =>
    rw [assembleTriplets, ih]
    by_cases ht : tripletFits t
    · rw [if_neg fun h => (not_tripletFits_iff t).mpr h ht, wordsIf_cons_fits ht, tripletWord,
        ← encodePixelWord_ofNat ht.1 ht.2.1 ht.2.2]
      cases wordsIf tripletFits tripletWord .componentRange ts <;> rfl
    · rw [if_pos ((not_tripletFits_iff t).mp ht), wordsIf_cons_not_fits ht]

/-! The words of a line -/

theorem assembleLine_setmel {ps : List AsmPair} (hl : ps.length ≤ 65535) :
    assembleLine (.setmel ps) = (wordsIf pairFits pairWord .durationRange ps).map
      (header16 0x1#4 0#12 (BitVec.ofNat 16 ps.length) :: ·) := by
  rw [assembleLine, if_neg hl.not_gt, assemblePairs_eq]
  cases wordsIf pairFits pairWord .durationRange ps <;> rfl

theorem assembleLine_encode {m : Nat} {ts : List (Nat × Nat × Nat)} (hm : m ≤ 65535) (hl : ts.length = 8) :
    assembleLine (.encode m ts) = (wordsIf tripletFits tripletWord .componentRange ts).map
      (header16 0x5#4 0#12 (BitVec.ofNat 16 m) :: ·) := by
  rw [assembleLine, if_neg hm.not_gt, if_neg (not_not.mpr hl), assembleTriplets_eq]
  cases wordsIf tripletFits tripletWord .componentRange ts <;> rfl

/-- A `setmel` gives its header and a word per pair, if there are at most 65535 pairs whose durations fit (R115). -/
theorem assembleLine_setmel_ok {ps : List AsmPair} (hl : ps.length ≤ 65535) (hd : ∀ p ∈ ps, pairFits p) :
    assembleLine (.setmel ps) = .ok (BitVec.ofNat 32 (0x10000000 + ps.length) :: ps.map pairWord) := by
  have hlt : ps.length < 2 ^ 16 := by omega
  rw [assembleLine_setmel hl, wordsIf_ok hd, header16, append_ofNat _ hlt]
  rfl

theorem assembleLine_setmel_error {ps : List AsmPair} (h : 65535 < ps.length ∨ ∃ p ∈ ps, ¬ pairFits p) :
    ∃ e, assembleLine (.setmel ps) = .error e := by
  by_cases hl : 65535 < ps.length
  · exact ⟨_, if_pos hl⟩
  · exact ⟨_, by rw [assembleLine_setmel (Nat.le_of_not_lt hl), wordsIf_error (h.resolve_left hl)]; rfl⟩

/-- An `encode` gives its header and a word per triplet, if M fits and there are eight triplets that fit (R115). -/
theorem assembleLine_encode_ok {m : Nat} {ts : List (Nat × Nat × Nat)} (hm : m ≤ 65535) (hl : ts.length = 8)
    (hc : ∀ t ∈ ts, tripletFits t) :
    assembleLine (.encode m ts) = .ok (BitVec.ofNat 32 (0x50000000 + m) :: ts.map tripletWord) := by
  have hlt : m < 2 ^ 16 := by omega
  rw [assembleLine_encode hm hl, wordsIf_ok hc, header16, append_ofNat _ hlt]
  rfl

theorem assembleLine_encode_error {m : Nat} {ts : List (Nat × Nat × Nat)}
    (h : 65535 < m ∨ ts.length ≠ 8 ∨ ∃ t ∈ ts, ¬ tripletFits t) : ∃ e, assembleLine (.encode m ts) = .error e := by
  by_cases hm : 65535 < m
  · exact ⟨_, if_pos hm⟩
  by_cases hl : ts.length = 8
  · have hc := (h.resolve_left hm).resolve_left (not_not.mpr hl)
    exact ⟨_, by rw [assembleLine_encode (Nat.le_of_not_lt hm) hl, wordsIf_error hc]; rfl⟩
  · exact ⟨_, (if_neg hm).trans (if_pos hl)⟩

theorem assembleLine_rdreg {r : Nat} (hr : r ≤ 15) :
    assembleLine (.rdreg r) = .ok [BitVec.ofNat 32 (0x70000000 + r)] := by
  have hlt : r < 2 ^ 4 := by omega
  rw [assembleLine, if_neg hr.not_gt, header4, append_ofNat _ hlt]
  rfl

theorem assembleLine_rdmel {k : Nat} (hk : k ≤ 255) :
    assembleLine (.rdmel k) = .ok [BitVec.ofNat 32 (0x80000000 + k)] := by
  have hlt : k < 2 ^ 8 := by omega
  rw [assembleLine, if_neg hk.not_gt, header8, append_ofNat _ hlt]
  rfl

/-- The words of an accepted line, but for a raw word, are a header and exactly the operand words it announces. -/
theorem assembleLine_whole {l : AsmLine} {ws : List Word} (h : assembleLine l = .ok ws) (hw : ∀ w, l ≠ .word w) :
    ∃ hd ops, ws = hd :: ops ∧ ops.length = operandCount hd := by
  cases l with
  | setmel ps =>
    by_cases hl : 65535 < ps.length
    · obtain ⟨e, he⟩ := assembleLine_setmel_error (.inl hl)
      rw [he] at h
      cases h
    · rw [assembleLine_setmel (Nat.le_of_not_lt hl)] at h
      obtain ⟨ops, rfl, hops⟩ := eq_cons_of_wordsIf h
      refine ⟨_, ops, rfl, ?_⟩
      rw [hops, operandCount_setmel (opOf_header16 _ _ _), low16_header16, BitVec.toNat_ofNat,
        Nat.mod_eq_of_lt (by omega)]
  | encode m ts =>
    by_cases hb : 65535 < m ∨ ts.length ≠ 8
    · obtain ⟨e, he⟩ := assembleLine_encode_error (or_assoc.mp (.inl hb))
      rw [he] at h
      cases h
    · push Not at hb
      obtain ⟨hm, hl⟩ := hb
      rw [assembleLine_encode hm hl] at h
      obtain ⟨ops, rfl, hops⟩ := eq_cons_of_wordsIf h
      exact ⟨_, ops, rfl, by rw [hops, operandCount_encode (opOf_header16 _ _ _), hl]⟩
  | play | run | playloop | stop | rdstatus | rdlen =>
    cases h
    exact ⟨_, _, rfl, by decide⟩
  | resolve t =>
    cases h
    exact ⟨_, _, rfl, Laws.Length.resolve _ _ rfl rfl⟩
  | rdreg r =>
    rw [assembleLine] at h
    split at h <;> cases h
    exact ⟨_, _, rfl, Laws.Length.rdreg _ _ rfl rfl⟩
  | rdmel k =>
    rw [assembleLine] at h
    split at h <;> cases h
    exact ⟨_, _, rfl, Laws.Length.rdmel _ _ rfl rfl⟩
  | word w => exact absurd rfl (hw w)

end Sys2Proof.Machine

namespace Sys2Proof

open Machine

/-- Settles O60: token by token, line form by line form, and by running the assembler on the three texts. -/
theorem tokensAndAssembledLines : Obligations.TokensAndAssembledLines := by
  refine ⟨tokenCode_eq_codeFrom, fun ps => ⟨fun hl hd => ?_, fun h => assembleLine_setmel_error ?_⟩,
    fun m ts => ⟨fun hm hl hc => assembleLine_encode_ok hm hl hc, fun h => assembleLine_encode_error ?_⟩, ?_, ?_,
    fun l ws h hw => ?_⟩
  · rw [assembleLine_setmel_ok hl hd]
    refine congrArg (fun ws => Except.ok (_ :: ws)) (List.map_congr_left fun p _ => ?_)
    cases p <;> rfl
  · simpa only [pairFits, Nat.not_lt] using h
  · simpa only [not_tripletFits_iff] using h
  · exact ⟨rfl, rfl, rfl, rfl, rfl, rfl, fun _ => rfl, fun _ hr => assembleLine_rdreg hr,
      fun _ hk => assembleLine_rdmel hk, fun _ hw => if_neg hw.not_ge⟩
  · decide
  · obtain ⟨hd, ops, rfl, hl⟩ := assembleLine_whole h hw
    exact decode_whole hl

end Sys2Proof

end

/-! The Note Table and RESOLVE (spec/40_note_table.md R141, R142): the cases of ROM beside `rom_rest`, and what RESOLVE
answers where its code is found and where it is not. -/

section

namespace Sys2Proof.Machine

variable {s : State} {c : NoteCode} {f : Hz}

/-- Only code 0 is the rest. -/
theorem ne_rest (h : 0x01 ≤ c.toNat) : c ≠ 0#8 := by
  rintro rfl
  exact absurd h (by decide)

/-- A pitched note resolves to its frequency (R141). -/
theorem rom_pitched (h1 : 0x01 ≤ c.toNat) (h25 : c.toNat ≤ 0x19) : rom c = some (Config.noteFreq c) := by
  rw [rom, if_neg (ne_rest h1), if_pos h25]

/-- A code past the table does not resolve (R141). -/
theorem rom_unknown (h : 0x1A ≤ c.toNat) : rom c = none := by
  rw [rom, if_neg (ne_rest (by omega)), if_neg (Nat.not_le_of_lt h)]

/-- A code is the rest, one of the pitched notes, or past the table (R141). -/
theorem noteCode_cases (c : NoteCode) : c = 0#8 ∨ (0x01 ≤ c.toNat ∧ c.toNat ≤ 0x19) ∨ 0x1A ≤ c.toNat := by
  bv_omega

section enabled
variable (hf : s.block.fsm.hostEnabled = true)
include hf

/-- RESOLVE of a code that the table holds answers FOUND = 1 and its frequency (R142). -/
theorem exec_resolve_found (hr : rom c = some f) :
    exec (.resolve 0#20 c) s = .next (s.respond 0x6#4 true .ok [f]) := by
  have hb : resolveBody 0#20 c s = s.respond 0x6#4 true .ok [f] := by rw [resolveBody, hr]; rfl
  exact (hostStep_enabled hf).trans (congrArg _ hb)

/-- RESOLVE of any other code answers FOUND = 0 and 0 (R142). -/
theorem exec_resolve_unknown (hr : rom c = none) :
    exec (.resolve 0#20 c) s = .next (s.respond 0x6#4 false .ok [0#32]) := by
  have hb : resolveBody 0#20 c s = s.respond 0x6#4 false .ok [0#32] := by rw [resolveBody, hr]; rfl
  exact (hostStep_enabled hf).trans (congrArg _ hb)

/-- RESOLVE with non-zero reserved bits answers ERR_RESERVED, whatever its code (R111). -/
theorem exec_resolve_reserved {rsv : BitVec 20} (hr : rsv ≠ 0#20) :
    exec (.resolve rsv c) s = .next (s.answer 0x6#4 .errReserved) :=
  (hostStep_enabled hf).trans (congrArg _ (if_pos hr))

end enabled

end Sys2Proof.Machine

namespace Sys2Proof

open Machine

/-- Settles O25: the three branches of ROM, and NOTE_FREQ's lower bound (R143). -/
theorem noteTableCases : Obligations.NoteTableCases := by
  refine fun c => ⟨?_, fun h1 h25 => ⟨rom_pitched h1 h25, noteFreq_ne_zero c⟩, rom_unknown⟩
  rintro rfl
  exact rom_rest

/-- Settles O26, case by case of the Note Table; with reserved bits the table is not read. -/
theorem resolveAnswers : Obligations.ResolveAnswers := by
  refine fun s hf => ⟨fun c => ?_, fun rsv c hr => exec_resolve_reserved hf hr⟩
  rcases noteCode_cases c with rfl | ⟨h1, h25⟩ | h26
  · exact exec_resolve_found hf rom_rest
  · rw [if_pos h25, if_neg (ne_rest h1), if_pos h25]
    exact exec_resolve_found hf (rom_pitched h1 h25)
  · have hle : ¬ c.toNat ≤ 0x19 := Nat.not_le_of_lt h26
    rw [if_neg hle, if_neg (ne_rest (by omega)), if_neg hle]
    exact exec_resolve_unknown hf (rom_unknown h26)

end Sys2Proof

end

/-! SETMEL, and the checks of PLAY, RUN and STOP (spec/41_melody_builder.md R160 to R165, spec/42_tone_sequencer.md R181
to R183): what each rejects, what an accepted SETMEL stores, and what every SETMEL leaves alone. -/

section

namespace Sys2Proof.Machine

variable {s t : State} {n : BitVec 16} {es : List EntryWord} {j k : Nat}

/-! The checks, in their order -/

section enabled
variable (hf : s.block.fsm.hostEnabled = true)
include hf

/-- A SETMEL with fewer entries than its N answers ERR_MALFORMED (R113). -/
theorem exec_setmel_malformed {rsv : BitVec 12} (hl : es.length < n.toNat) :
    exec (.setmel rsv n es) s = .next (s.answer 0x1#4 .errMalformed) :=
  (hostStep_enabled hf).trans (congrArg _ (if_pos hl))

/-- With all its entries there, and more after them or not, non-zero reserved bits answer ERR_RESERVED (R111). -/
theorem exec_setmel_reserved {rsv : BitVec 12} (hl : n.toNat ≤ es.length) (hr : rsv ≠ 0#12) :
    exec (.setmel rsv n es) s = .next (s.answer 0x1#4 .errReserved) := by
  refine (hostStep_enabled hf).trans (congrArg _ ?_)
  rw [setmelBody, if_neg (Nat.not_lt_of_le hl), if_pos hr]

/-- PLAY, RUN and STOP answer ERR_RESERVED to non-zero reserved bits, before any other check (R111). -/
theorem exec_playback_reserved {rsv : BitVec 28} (hr : rsv ≠ 0#28) :
    exec (.play rsv) s = .next (s.answer 0x2#4 .errReserved) ∧
      exec (.run rsv) s = .next (s.answer 0x3#4 .errReserved) ∧
      exec (.stop rsv) s = .next (s.answer 0x4#4 .errReserved) := by
  refine ⟨?_, ?_, ?_⟩ <;> exact (hostStep_enabled hf).trans (congrArg _ (if_pos hr))

end enabled

/-- A well-formed SETMEL is left to its checks of FSM_STATE and of N. -/
theorem setmelBody_wellFormed (hl : n.toNat ≤ es.length) :
    setmelBody 0#12 n es s =
      if s.block.fsm = .fault then s.answer 0x1#4 .errFaulted
      else if s.block.fsm ≠ .unset ∧ s.block.fsm ≠ .idle then s.answer 0x1#4 .errBusy
      else if Config.capacity < n.toNat then s.answer 0x1#4 .errCapacity
      else installMelody (es.take n.toNat) s := by
  rw [setmelBody, if_neg (Nat.not_lt_of_le hl), if_neg (not_not_intro rfl)]

/-- In FAULT, a well-formed SETMEL answers ERR_FAULTED (R161). -/
theorem exec_setmel_faulted (hl : n.toNat ≤ es.length) (hq : s.block.fsm = .fault) :
    exec (.setmel 0#12 n es) s = .next (s.answer 0x1#4 .errFaulted) := by
  refine (hostStep_enabled (by rw [hq]; rfl)).trans (congrArg _ ?_)
  rw [setmelBody_wellFormed hl, if_pos hq]

/-- In WAIT, a well-formed SETMEL answers ERR_BUSY (R161). -/
theorem exec_setmel_busy (hl : n.toNat ≤ es.length) (hq : s.block.fsm = .wait) :
    exec (.setmel 0#12 n es) s = .next (s.answer 0x1#4 .errBusy) := by
  refine (hostStep_enabled (by rw [hq]; rfl)).trans (congrArg _ ?_)
  rw [setmelBody_wellFormed hl, if_neg (by simp [hq]), if_pos (by simp [hq])]

/-- In FAULT, well-formed PLAY, RUN and STOP answer ERR_FAULTED (R181 to R183). -/
theorem exec_playback_faulted (hq : s.block.fsm = .fault) :
    exec (.play 0#28) s = .next (s.answer 0x2#4 .errFaulted) ∧
      exec (.run 0#28) s = .next (s.answer 0x3#4 .errFaulted) ∧
      exec (.stop 0#28) s = .next (s.answer 0x4#4 .errFaulted) := by
  have hf : s.block.fsm.hostEnabled = true := by rw [hq]; rfl
  refine ⟨?_, ?_, ?_⟩ <;> exact (hostStep_enabled hf).trans (congrArg _ (if_pos hq))

/-- In WAIT, well-formed PLAY and RUN answer ERR_BUSY (R181, R182). -/
theorem exec_playback_busy (hq : s.block.fsm = .wait) :
    exec (.play 0#28) s = .next (s.answer 0x2#4 .errBusy) ∧
      exec (.run 0#28) s = .next (s.answer 0x3#4 .errBusy) := by
  have hf : s.block.fsm.hostEnabled = true := by rw [hq]; rfl
  have hn : s.block.fsm ≠ .fault := by simp [hq]
  refine ⟨?_, ?_⟩ <;>
    exact (hostStep_enabled hf).trans (congrArg _ ((if_neg hn).trans (if_pos hq)))

section rest
variable (hq : s.block.fsm = .unset ∨ s.block.fsm = .idle)
include hq

/-- In UNSET and IDLE, only the capacity is left to check (R161). -/
theorem exec_setmel_rest (hl : n.toNat ≤ es.length) :
    exec (.setmel 0#12 n es) s = .next
      (if Config.capacity < n.toNat then s.answer 0x1#4 .errCapacity else installMelody (es.take n.toNat) s) := by
  refine (hostStep_enabled ((Fsm.hostEnabled_iff _).2 (hq.imp_right .inl))).trans (congrArg _ ?_)
  have hfault : s.block.fsm ≠ .fault := by rcases hq with hq | hq <;> simp [hq]
  rw [setmelBody_wellFormed hl, if_neg hfault, if_neg (not_and_or.2 (hq.imp not_not_intro not_not_intro))]

/-- More entries than the store holds answer ERR_CAPACITY (R161, R164). -/
theorem exec_setmel_overCapacity (hl : n.toNat ≤ es.length) (hn : Config.capacity < n.toNat) :
    exec (.setmel 0#12 n es) s = .next (s.answer 0x1#4 .errCapacity) := by
  rw [exec_setmel_rest hq hl, if_pos hn]

/-- A SETMEL that passes every check installs its melody (R162). -/
theorem exec_setmel_accepted (hl : es.length = n.toNat) (hn : n.toNat ≤ Config.capacity) :
    exec (.setmel 0#12 n es) s = .next (installMelody es s) := by
  rw [exec_setmel_rest hq hl.ge, if_neg (Nat.not_lt_of_le hn), ← hl, List.take_length]

end rest

/-! What an accepted SETMEL stores -/

/-- The response of an accepted SETMEL, as a word (R118, R162). -/
theorem rspWord_okTrunc_or_ok (p : Prop) [Decidable p] :
    rspWord 0x1#4 false (if p then .okTrunc else .ok) = if p then 0x10000001#32 else 0x10000000#32 := by
  split <;> rfl

/-- The prefix ends at the first unresolved entry (R162). -/
theorem length_resolvePrefix_of_first_unresolved (hj : j < es.length) (hnone : rom es[j].note = none)
    (hbefore : ∀ (k : Nat) (hk : k < es.length), k < j → rom es[k].note ≠ none) : (resolvePrefix es).length = j := by
  rcases Nat.lt_trichotomy (resolvePrefix es).length j with hlt | heq | hgt
  · exact absurd (rom_after_resolvePrefix es (hlt.trans hj)) (hbefore _ _ hlt)
  · exact heq
  · have hsome := (getElem_resolvePrefix es hgt hj).1
    rw [hnone] at hsome
    cases hsome

/-- With no unresolved entry, the prefix is the whole list (R162). -/
theorem length_resolvePrefix_of_all_resolved (hall : ∀ e ∈ es, rom e.note ≠ none) :
    (resolvePrefix es).length = es.length := by
  refine (length_resolvePrefix_le es).antisymm (Nat.le_of_not_lt fun hlt => ?_)
  exact hall _ (List.getElem_mem hlt) (rom_after_resolvePrefix es hlt)

/-- With no unresolved entry, an accepted SETMEL answers OK (R162). -/
theorem installMelody_all_resolved (hall : ∀ e ∈ es, rom e.note ≠ none) :
    installMelody es s = ({ s with block := s.block.install es } : State).answer 0x1#4 .ok := by
  rw [installMelody, if_neg (length_resolvePrefix_of_all_resolved hall).not_lt]

/-- The store holds each entry of the prefix at its index: its code's frequency and its own duration (R162). -/
theorem Block.read_install {b : Block} (hw : MelStore.wf b.mel = true) (hl : es.length ≤ Config.capacity)
    (hp : k < (resolvePrefix es).length) (hk : k < es.length) :
    rom es[k].note = some (MelStore.read (b.install es).mel k).freq ∧
      (MelStore.read (b.install es).mel k).dur = es[k].dur := by
  have hcap : 0 + (resolvePrefix es).length ≤ Config.capacity := by
    rw [Nat.zero_add]
    exact (length_resolvePrefix_le es).trans hl
  have hread : MelStore.read (b.install es).mel k = (resolvePrefix es)[k] := by
    rw [← MelStore.read_writeFrom_inside _ hw hcap hp, Nat.zero_add]
    rfl
  rw [hread]
  exact getElem_resolvePrefix es hp hk

/-- The entries from the end of the prefix on are as they were (R160). -/
theorem Block.read_install_above (b : Block) (hp : (resolvePrefix es).length ≤ k) :
    MelStore.read (b.install es).mel k = MelStore.read b.mel k :=
  MelStore.read_writeFrom_outside _ (.inr (by rwa [Nat.zero_add]))

/-! What any SETMEL does -/

/-- A SETMEL is held, answers alone, or installs the melody of its N entries (R161, R162). -/
theorem exec_setmel_next {rsv : BitVec 12} (h : exec (.setmel rsv n es) s = .next t) :
    t = s ∨ (∃ st, t = s.answer 0x1#4 st) ∨ t = installMelody (es.take n.toNat) s := by
  rcases hostStep_next h with ⟨_, rfl⟩ | ⟨_, rfl⟩
  · unfold setmelBody
    repeat' split
    case isFalse => exact .inr (.inr rfl)
    all_goals exact .inr (.inl ⟨_, rfl⟩)
  · exact .inl rfl

end Sys2Proof.Machine

namespace Sys2Proof

open Machine

/-- Settles O20, check by check; each reads only what the checks before it have left open. -/
theorem commandsRejectInOrder : Obligations.CommandsRejectInOrder := by
  refine ⟨fun s rsv n es hf => ⟨exec_setmel_malformed hf, exec_setmel_reserved hf, ?_, ?_, ?_⟩,
    fun s rsv hf => exec_playback_reserved hf, fun s => exec_playback_faulted, fun s => exec_playback_busy⟩
  · rintro hl rfl hq
    exact exec_setmel_faulted hl hq
  · rintro hl rfl hq
    exact exec_setmel_busy hl hq
  · rintro hl rfl hq hn
    exact exec_setmel_overCapacity hq hl hn

/-- Settles O15: no check fails, and what is left is the installation, its response written as a word. -/
theorem setmelStoresTheResolvedPrefix : Obligations.SetmelStoresTheResolvedPrefix := by
  intro s n es hq hl hn
  rw [← rspWord_okTrunc_or_ok]
  exact exec_setmel_accepted hq hl hn

/-- Settles O16: MEL_LEN is the prefix's length, which either premise fixes, and the store reads as the prefix. -/
theorem truncationLaw : Obligations.TruncationLaw := by
  intro s n es hq hw hl hn
  have hc : es.length ≤ Config.capacity := hl.trans_le hn
  refine ⟨_, exec_setmel_accepted hq hl hn, fun j hj hnone hbefore => ?_, fun hall => ?_⟩
  · have hlen := length_resolvePrefix_of_first_unresolved hj hnone hbefore
    exact ⟨(s.block.install_melLen hc).trans hlen, fun k hk hkj => Block.read_install hw hc (hlen.symm ▸ hkj) hk⟩
  · have hlen := length_resolvePrefix_of_all_resolved hall
    exact ⟨(s.block.install_melLen hc).trans (hlen.trans hl), fun k hk => Block.read_install hw hc (hlen.symm ▸ hk) hk⟩

/-- Settles O17: with 256 entries the truncation law's second case, with 257 the last check. -/
theorem capacityBoundary : Obligations.CapacityBoundary := by
  refine fun s es hq hw => ⟨fun hl hall => ?_, fun hl => ?_⟩
  · have hn : (256#16).toNat ≤ Config.capacity := Nat.le_refl 256
    obtain ⟨t, ht, -, hstored⟩ := truncationLaw s 256#16 es hq hw hl hn
    obtain ⟨hlen, hread⟩ := hstored hall
    refine ⟨t, ht, hlen, ?_, hread⟩
    cases (exec_setmel_accepted hq hl hn).symm.trans ht
    rw [installMelody_all_resolved hall]
    rfl
  · exact ⟨_, exec_setmel_overCapacity hq hl.ge (by decide), rfl, rfl⟩

/-- Settles O18: a SETMEL is held, answers alone, or installs a melody, which writes the prefix's indexes alone. -/
theorem setmelFrame : Obligations.SetmelFrame := by
  intro s t rsv n es h
  rcases exec_setmel_next h with rfl | ⟨st, rfl⟩ | rfl
  · exact ⟨rfl, rfl, rfl, rfl, rfl, rfl, rfl, rfl, rfl, rfl, rfl, rfl, rfl, rfl, fun _ _ => rfl⟩
  · exact ⟨rfl, rfl, rfl, rfl, rfl, rfl, rfl, rfl, rfl, rfl, rfl, rfl, rfl, rfl, fun _ _ => rfl⟩
  · exact ⟨rfl, rfl, rfl, rfl, rfl, rfl, rfl, rfl, rfl, rfl, rfl, rfl, rfl, rfl,
      fun _ => s.block.read_install_above⟩

end Sys2Proof

end

/-! Entries in order (spec/42_tone_sequencer.md R194, R196): what one move adds to the records of the entry being played,
and that it adds none where the phase does not let it stand. -/

section

namespace Sys2Proof.Machine

variable {s t : State} {b c : Block} {now : Nat} {rs : List ToneRecord}

theorem TonePhase.afterAll_append {p q : TonePhase} {xs : List ToneRecord} (ys : List ToneRecord)
    (h : p.afterAll xs = some q) : p.afterAll (xs ++ ys) = q.afterAll ys := by
  induction xs generalizing p with
  | nil =>
    cases h
    rfl
  | cons x xs ih =>
    simp only [List.cons_append, TonePhase.afterAll] at h ⊢
    cases hx : p.after x with
    | none =>
      rw [hx] at h
      cases h
    | some r =>
      rw [hx] at h
      exact ih h

@[simp] theorem TonePhase.afterAll_nil (p : TonePhase) : p.afterAll [] = some p := rfl

@[simp] theorem TonePhase.afterAll_singleton (p : TonePhase) (r : ToneRecord) : p.afterAll [r] = p.after r := by
  rw [TonePhase.afterAll]
  split <;> simp_all

/-- The 50 % duty is exact (R187). -/
theorem toNat_halfDuty (m : Duty) : (halfDuty m).toNat = m.toNat / 2 := by
  have hm := m.isLt
  rw [halfDuty, BitVec.toNat_ofNat, Nat.mod_eq_of_lt (by omega)]

/-- What a move adds to the tone trace takes the phase before it to the phase after it: each record is the next one
of the entry being played, and a move without a record leaves the phase. -/
theorem BlockMove.phase (m : BlockMove now b c rs) (h : b.Inv) : b.phase.afterAll rs = some c.phase := by
  cases m with
  | stay => rfl
  | install es hf hl => rcases hf with hf | hf <;> simp [Block.phase, Block.install, hf]
  | load hf hi hc =>
    by_cases hq : (MelStore.read b.mel b.idx.toNat).freq = 0#32 <;> simp [Block.phase, hf, hq]
  | start l hf _ | faultUnset hf | faultLoop hf _ | stop hf | wrap hf _ _ | done hf _ _ | honour hf _ | advance hf _ =>
    simp [Block.phase, hf]
  | setfreq hf =>
    have hq := h.tone_freq (.inl hf)
    simp [Block.phase, TonePhase.after, hf, hq]
  | getmax m hf => simp [Block.phase, TonePhase.after, hf, -BitVec.toNat_setWidth, BitVec.toNat_setWidth_of_le]
  | setduty hf =>
    simp [Block.phase, TonePhase.after, hf, -BitVec.toNat_setWidth, BitVec.toNat_setWidth_of_le, toNat_halfDuty]
  | enable hf =>
    have hq := h.tone_freq (by simp [hf])
    simp [Block.phase, TonePhase.after, hf, hq]
  | sleep hf =>
    by_cases hq : b.curFreq = 0#32 <;> simp [Block.phase, TonePhase.after, Act.code, hf, hq]
  | wake hf hd =>
    by_cases hq : b.curFreq = 0#32 <;> simp [Block.phase, TonePhase.after, hf, hq]
  | disable hf => simp [Block.phase, TonePhase.after, hf]

/-- A step at which a reset was chosen is that reset (R340, R341). -/
theorem step_reset (he : s.nextEvent = .reset) : step s = .next s.afterEvent.applyReset := by
  rw [step_of_fetch he]
  rfl

/-- After a reset everything emitted so far stands before (R342). -/
theorem entriesInOrder_applyReset (s : State) : s.applyReset.EntriesInOrder s.out.tone :=
  ⟨[], by simp, rfl⟩

/-- A move's records keep the order of the records since `before`. -/
theorem State.EntriesInOrder.move {before : List ToneRecord} (ho : s.EntriesInOrder before) (h : s.block.Inv)
    (hm : BlockMove now s.block t.block rs) (ht : t.out.tone = s.out.tone ++ rs) : t.EntriesInOrder before := by
  obtain ⟨since, htone, hphase⟩ := ho
  refine ⟨since ++ rs, by rw [ht, htone, List.append_assoc], ?_⟩
  rw [TonePhase.afterAll_append rs hphase, hm.phase h]

end Sys2Proof.Machine

namespace Sys2Proof

open Machine

/-- Settles O56: a reset starts anew, and any other step is a move, whose records take the phase on. -/
theorem entriesStayInOrder : Obligations.EntriesStayInOrder := by
  intro s t before hinv ho h
  by_cases he : s.nextEvent = .reset
  · rw [step_reset he] at h
    cases h
    refine .inl ⟨he, ?_⟩
    simpa using entriesInOrder_applyReset s.afterEvent
  · obtain ⟨⟨hr, _⟩ | ⟨rs, hm, ht⟩, _⟩ := step_move h
    · exact absurd hr he
    · exact .inr ⟨he, ho.move hinv hm ht⟩

end Sys2Proof

end

/-! PLAY, RUN and STOP where they are accepted, and the micro-steps each in its own state (spec/42_tone_sequencer.md R181
to R192). -/

section

namespace Sys2Proof.Machine

variable {s : State}

/-! PLAY, RUN and STOP -/

/-- In IDLE, PLAY starts a pass that ends with the last entry (R181). -/
theorem exec_play_started (hf : s.block.fsm = .idle) :
    exec (.play 0#28) s = .next ((s.startPass false).answer 0x2#4 .ok) := by
  refine (hostStep_enabled (by rw [hf]; rfl)).trans (congrArg _ ?_)
  simp [playBody, hf]

/-- In IDLE, RUN of a melody with an entry starts a pass that loops (R182). -/
theorem exec_run_started (hf : s.block.fsm = .idle) (hl : s.block.melLen ≠ 0#9) :
    exec (.run 0#28) s = .next ((s.startPass true).answer 0x3#4 .ok) := by
  refine (hostStep_enabled (by rw [hf]; rfl)).trans (congrArg _ ?_)
  simp [runBody, hf, hl]

/-- In WAIT, STOP asks for the stop that NEXT honours (R183). -/
theorem exec_stop_requested (hf : s.block.fsm = .wait) :
    exec (.stop 0#28) s =
      .next (({ s with block := { s.block with stopReq := true } } : State).answer 0x4#4 .ok) := by
  refine (hostStep_enabled (by rw [hf]; rfl)).trans (congrArg _ ?_)
  simp [stopBody, hf]

/-- In UNSET and IDLE there is nothing to stop, and STOP answers alone (R183). -/
theorem exec_stop_nothing (hf : s.block.fsm = .unset ∨ s.block.fsm = .idle) :
    exec (.stop 0#28) s = .next (s.answer 0x4#4 .ok) := by
  refine (hostStep_enabled ((Fsm.hostEnabled_iff _).2 (hf.imp_right .inl))).trans (congrArg _ ?_)
  rcases hf with hf | hf <;> simp [stopBody, hf]

/-! FETCH -/

/-- FETCH at an entry loads it (R184). -/
theorem exec_fetch_entry (hf : s.block.fsm = .fetch) (hi : s.block.idx.toNat < s.block.melLen.toNat)
    (hl : s.block.melLen.toNat ≤ 256) :
    exec .ustepFetch s = .next (s.loadEntry (MelStore.read s.block.mel s.block.idx.toNat)) := by
  refine (seqStep_enabled hf).trans ?_
  rw [if_pos hi, if_pos (hi.trans_le hl)]

/-- FETCH past the last entry ends the pass (R184). -/
theorem exec_fetch_passEnd (hf : s.block.fsm = .fetch) (hi : s.block.idx = s.block.melLen) :
    exec .ustepFetch s = .next s.passEnd := by
  refine (seqStep_enabled hf).trans (if_neg ?_)
  rw [hi]
  exact Nat.lt_irrefl _

/-- A pass that loops goes back to entry 0 (R184). -/
theorem State.passEnd_loop (hl : s.block.loop = true) :
    s.passEnd = { s with block := { s.block with idx := 0#9 } } := if_pos hl

/-- A pass that does not loop goes to IDLE (R184). -/
theorem State.passEnd_once (hl : s.block.loop = false) :
    s.passEnd = { s with block := { s.block with idx := 0#9, stopReq := false, fsm := .idle } } :=
  if_neg (by simp [hl])

/-- Either way the pass leaves IDX at 0 (R197). -/
theorem State.passEnd_idx (s : State) : s.passEnd.block.idx = 0#9 := by
  rw [State.passEnd_block]
  split <;> rfl

/-! The micro-steps of an entry -/

/-- Drawing an answer changes the choices alone. -/
theorem State.afterDraw_eq (s : State) : s.afterDraw = { s with choices := s.afterDraw.choices } := by
  unfold State.afterDraw
  split <;> rfl

theorem exec_setfreq (hf : s.block.fsm = .setfreq) :
    exec .ustepSetfreq s = .next ((s.emit .setFreq s.block.curFreq).goto .getmax) := seqStep_enabled hf

/-- GETMAX draws ENV's answer, records it and latches it (R186). -/
theorem exec_getmax (hf : s.block.fsm = .getmax) :
    exec .ustepGetmax s = .next
      (((({ s with choices := s.afterDraw.choices } : State).emit .getMaxDuty (s.drawMaxd.setWidth 32)).latchMaxd
        s.drawMaxd).goto .setduty) := by
  rw [← s.afterDraw_eq]
  exact seqStep_enabled hf

theorem exec_setduty (hf : s.block.fsm = .setduty) :
    exec .ustepSetduty s = .next ((s.emit .setDuty ((halfDuty s.block.maxd).setWidth 32)).goto .enable) :=
  seqStep_enabled hf

theorem exec_enable (hf : s.block.fsm = .enable) :
    exec .ustepEnable s = .next (((s.emit .enable 0#32).setOutEn true).goto .sleep) := seqStep_enabled hf

theorem exec_sleep (hf : s.block.fsm = .sleep) :
    exec .ustepSleep s = .next ((s.setDeadline.emit .sleep (s.block.curDur.setWidth 32)).goto .wait) :=
  seqStep_enabled hf

/-- WAIT is held before its deadline (R190). -/
theorem exec_wait_held (hf : s.block.fsm = .wait) (hd : s.env.now < s.block.deadline) :
    exec .ustepWait s = .next s := (seqStep_enabled hf).trans (if_pos hd)

/-- From its deadline on WAIT wakes (R190). -/
theorem exec_wait_wakes (hf : s.block.fsm = .wait) (hd : s.block.deadline ≤ s.env.now) :
    exec .ustepWait s =
      .next ((s.emit .wake 0#32).goto (if s.block.curFreq ≠ 0#32 then .disable else .next)) :=
  (seqStep_enabled hf).trans (if_neg (Nat.not_lt_of_le hd))

theorem exec_disable (hf : s.block.fsm = .disable) :
    exec .ustepDisable s = .next (((s.emit .disable 0#32).setOutEn false).goto .next) := seqStep_enabled hf

/-- NEXT honours a stop (R192). -/
theorem exec_next_honours (hf : s.block.fsm = .next) (hs : s.block.stopReq = true) :
    exec .ustepNext s = .next s.endPass := (seqStep_enabled hf).trans (congrArg _ (if_pos hs))

/-- Without a stop NEXT goes on to the next entry (R192). -/
theorem exec_next_advances (hf : s.block.fsm = .next) (hs : s.block.stopReq = false) :
    exec .ustepNext s = .next s.advance :=
  (seqStep_enabled hf).trans (congrArg _ (if_neg (by simp [hs])))

end Sys2Proof.Machine

namespace Sys2Proof

open Machine

/-- Settles O19, command by command; the responses are the words of R118. -/
theorem playbackCommandsComplete : Obligations.PlaybackCommandsComplete :=
  ⟨fun _ hf => exec_play_started hf, fun _ hf hl => exec_run_started hf hl, fun _ hf => exec_stop_requested hf,
    fun _ hf => exec_stop_nothing hf⟩

/-- Settles O38: an entry is loaded, or the pass ends in one of its two ways. -/
theorem fetchLoadsAnEntryOrEndsThePass : Obligations.FetchLoadsAnEntryOrEndsThePass := by
  refine fun s hf => ⟨fun f d hi hl he => ?_, fun hi hl => ?_, fun hi hl => ?_⟩
  · rw [exec_fetch_entry hf hi hl, he]
    rfl
  · rw [exec_fetch_passEnd hf hi, State.passEnd_loop hl]
  · rw [exec_fetch_passEnd hf hi, State.passEnd_once hl]

/-- Settles O39, micro-step by micro-step; the half of MAXD is exact. -/
theorem toneMicroStepsEmitAndWrite : Obligations.ToneMicroStepsEmitAndWrite :=
  ⟨fun _ hf => exec_setfreq hf, fun _ hf => exec_getmax hf,
    fun s hf => ⟨halfDuty s.block.maxd, toNat_halfDuty s.block.maxd, exec_setduty hf⟩, fun _ hf => exec_enable hf⟩

/-- Settles O40: SLEEP is one effect, and WAIT is held or wakes. -/
theorem sleepAndWait : Obligations.SleepAndWait :=
  ⟨fun _ hf => exec_sleep hf, fun _ hf hd => exec_wait_held hf hd, fun _ hf hd => exec_wait_wakes hf hd⟩

/-- Settles O41: IDX is below MEL_LEN where it advances, so that adding 1 does not wrap. -/
theorem disableAndNext : Obligations.DisableAndNext := by
  refine ⟨fun s hf => exec_disable hf, fun s hf hs => exec_next_honours hf hs, fun s hf hs hi => ?_⟩
  have hk : (s.block.idx + 1#9).toNat = s.block.idx.toNat + 1 := by bv_omega
  exact ⟨_, hk, exec_next_advances hf hs⟩

/-- Settles O42: no micro-step is a SETMEL, the one writer of these five fields (R31). -/
theorem microStepsNeverWriteTheMelody : Obligations.MicroStepsNeverWriteTheMelody := by
  intro s t i hi h
  obtain ⟨_, _, _, _, _, _, _, hmel, _, _⟩ := fieldsHaveOnlyTheirWriters s t i h
  have hkept := mt hmel (by rintro ⟨r, n, es, rfl⟩; cases hi)
  simpa only [not_or, not_not] using hkept

end Sys2Proof

end

/-! Passes, waits and deadlines along a step (spec/42_tone_sequencer.md R189, R190, R197, R355): what each move does to
IDX, to WAIT and to DEADLINE, and that only SEQ adds to the tone trace. -/

section

namespace Sys2Proof.Machine

variable {s t : State} {b c : Block} {now : Nat} {rs : List ToneRecord}

/-- A move into FETCH is the start of a pass, at entry 0, or NEXT's (R181, R182, R192). -/
theorem BlockMove.enters_fetch (m : BlockMove now b c rs) (hb : b.fsm ≠ .fetch) (hc : c.fsm = .fetch) :
    c.idx = 0#9 ∨ b.fsm = .next := by
  cases m with
  | start l hf hl => exact .inl rfl
  | advance hf hs => exact .inr hf
  | stay | stop _ => exact absurd hc hb
  | load hf _ _ | wrap hf _ _ => exact absurd hf hb
  | wake hf hd => split at hc <;> cases hc
  | install _ _ _ | faultUnset _ | faultLoop _ _ | done _ _ _ | honour _ _ | setfreq _ | getmax _ _ | setduty _
  | enable _ | sleep _ | disable _ => cases hc

/-- A command that goes to FETCH starts a pass at entry 0: in NEXT it is held (R77, R197). -/
theorem exec_command_fetch_idx {i : Instr} (hi : i.isCommand = true) (h : exec i s = .next t)
    (hs : s.block.fsm ≠ .fetch) (ht : t.block.fsm = .fetch) : t.block.idx = 0#9 := by
  obtain ⟨rs, hm, _⟩ := exec_move i h
  rcases hm.enters_fetch hs ht with hidx | hnext
  · exact hidx
  · rw [exec_command_held hi (by rw [hnext]; rfl)] at h
    cases h
    exact absurd ht hs

/-- A move from WAIT waits on, or wakes at or after DEADLINE (R190). -/
theorem BlockMove.from_wait (m : BlockMove now b c rs) (hb : b.fsm = .wait) :
    (rs = [] ∧ c.fsm = .wait ∧ c.deadline = b.deadline ∧ c.curFreq = b.curFreq ∧ c.outEn = b.outEn) ∨
      (rs = [⟨now, recordWord .wake 0#32⟩] ∧ b.deadline ≤ now ∧
        c.fsm = if b.curFreq ≠ 0#32 then .disable else .next) := by
  cases m with
  | stay | stop _ => exact .inl ⟨rfl, hb, rfl, rfl, rfl⟩
  | wake hf hd => exact .inr ⟨rfl, hd, rfl⟩
  | install _ hf _ => rcases hf with hf | hf <;> cases hb.symm.trans hf
  | start _ hf _ | faultUnset hf | faultLoop hf _ | load hf _ _ | wrap hf _ _ | done hf _ _ | honour hf _ | setfreq hf
  | getmax _ hf | setduty hf | enable hf | sleep hf | disable hf | advance hf _ => cases hb.symm.trans hf

/-- Where outside WAIT the last deadline has passed, a move makes DEADLINE no smaller and keeps that: SLEEP alone
writes it, to NOW or later, and goes to WAIT, which only the wake-up leaves (R189, R190). -/
theorem BlockMove.deadline (m : BlockMove now b c rs) (h : b.fsm ≠ .wait → b.deadline ≤ now) :
    b.deadline ≤ c.deadline ∧ (c.fsm ≠ .wait → c.deadline ≤ now) := by
  cases m with
  | sleep hf =>
    have hpassed := h (by simp [hf])
    exact ⟨hpassed.trans (Nat.le_add_right _ _), fun hc => absurd rfl hc⟩
  | wake hf hd => exact ⟨Nat.le_refl _, fun _ => hd⟩
  | stay | stop _ => exact ⟨Nat.le_refl _, h⟩
  | install _ hf _ => exact ⟨Nat.le_refl _, fun _ => h (by rcases hf with hf | hf <;> simp [hf])⟩
  | start _ hf _ | faultUnset hf | faultLoop hf _ | load hf _ _ | wrap hf _ _ | done hf _ _ | honour hf _ | setfreq hf
  | getmax _ hf | setduty hf | enable hf | disable hf | advance hf _ =>
    exact ⟨Nat.le_refl _, fun _ => h (by simp [hf])⟩

/-- A HOST step, done or held, leaves the tone trace where its result does. -/
theorem hostStep_tone {u : State} (hu : u.out.tone = s.out.tone) (h : hostStep s u = .next t) :
    t.out.tone = s.out.tone := by
  rcases hostStep_next h with ⟨_, rfl⟩ | ⟨_, rfl⟩
  · exact hu
  · rfl

/-- An instruction that adds to the tone trace is a micro-step (R8, R120). -/
theorem exec_tone_changed {i : Instr} (h : exec i s = .next t) (hne : t.out.tone ≠ s.out.tone) :
    i.isMicroStep = true := by
  by_cases hi : writesBlock i = true
  · cases i with
    | setmel rsv n es => exact absurd (hostStep_tone (setmelBody_rest rsv n es s).1 h) hne
    | play rsv => exact absurd (hostStep_tone (playBody_rest rsv s).1 h) hne
    | run rsv => exact absurd (hostStep_tone (runBody_rest rsv s).1 h) hne
    | stop rsv => exact absurd (hostStep_tone (stopBody_rest rsv s).1 h) hne
    | _ => exact hi
  · exact absurd (exec_blockKept (by simpa using hi) h).tone hne

/-- A step that adds to the tone trace is SEQ's (R8, R120). -/
theorem step_tone_changed (h : step s = .next t) (hne : t.out.tone ≠ s.out.tone) : s.nextEvent = .seq := by
  obtain ⟨hout, _, _⟩ := fetchFor_still s.nextEvent s.afterEvent
  rw [s.afterEvent_out] at hout
  rcases step_next h with hf | ⟨i, u, hf, hx⟩ <;> rw [hf] at hout
  · exact absurd (congrArg Traces.tone hout) hne
  · have hmicro := exec_tone_changed hx (by rwa [hout])
    exact (fetchFor_kind (by rw [hf])).2 hmicro

end Sys2Proof.Machine

namespace Sys2Proof

open Machine

/-- Settles O24: PLAY, RUN, FETCH and NEXT each set IDX to 0, and in IDLE the invariant says it (R48). -/
theorem everyPassStartsAtEntryZero : Obligations.EveryPassStartsAtEntryZero := by
  refine ⟨fun s t i hi h hs ht => exec_command_fetch_idx hi h hs ht, fun s hf hi => ?_, fun s hf hs => ?_,
    fun s t hinv h ht => ?_⟩
  · exact ⟨_, exec_fetch_passEnd hf hi, s.passEnd_idx⟩
  · exact ⟨_, exec_next_honours hf hs, rfl, rfl⟩
  · exact ((stepKeepsTheBlockInvariant s t hinv h).at_rest (.inr (.inl ht))).1

/-- Settles O47: a reset or a move from WAIT; the one that adds a record is SEQ's. -/
theorem waitEndsOnlyByWakeUpOrReset : Obligations.WaitEndsOnlyByWakeUpOrReset := by
  intro s t hf h
  obtain ⟨⟨he, _⟩ | ⟨rs, hm, ht⟩, _⟩ := step_move h
  · exact .inr (.inr he)
  · rcases hm.from_wait hf with ⟨rfl, hfsm, hdead, hfreq, hout⟩ | ⟨rfl, hdue, hfsm⟩
    · exact .inl ⟨hfsm, hdead, hfreq, hout, by rw [ht, List.append_nil]⟩
    · have he := step_tone_changed h (by simp [ht])
      exact .inr (.inl ⟨he, hdue, hfsm, ht⟩)

/-- Settles O54: a reset sets DEADLINE to 0, a move makes it no smaller, and NOW does not decrease. -/
theorem deadlinesNeverShrink : Obligations.DeadlinesNeverShrink := by
  intro s t hp h
  obtain ⟨⟨he, hb, _⟩ | ⟨rs, hm, _⟩, hnow⟩ := step_move h
  · refine ⟨fun _ => ?_, .inr he⟩
    rw [hb]
    exact Nat.zero_le _
  · obtain ⟨hle, hpassed⟩ := hm.deadline hp
    exact ⟨fun hf => (hpassed hf).trans hnow, .inl hle⟩

end Sys2Proof

end

/-! Runs of SEQ (spec/42_tone_sequencer.md R193, R194): the micro-steps of one entry one after another, and how many of
them a segment takes at most. -/

section

namespace Sys2Proof.Machine

variable {s t : State} {f : Fsm} {i : Instr} {k n : Nat}

/-- A run of SEQ begins with the micro-step of FSM_STATE (R180). -/
theorem seqRun_succ (hf : s.block.fsm = f) (hd : decodeUstep f.code = .ok i) (hx : exec i s = .next t) :
    seqRun (n + 1) s = seqRun n t := by
  simp only [seqRun, seqOnce, hf, hd, hx, andThen]

/-! One entry -/

/-- The operand of SETDUTY's record is half the answer (R187). -/
theorem setWidth_halfDuty (m : Duty) : (halfDuty m).setWidth 32 = BitVec.ofNat 32 (m.toNat / 2) := by
  rw [← toNat_halfDuty, BitVec.ofNat_toNat]

/-- The start of a tone, from SETFREQ to the WAIT after its SLEEP (R185 to R189). -/
theorem seqRun_tone_start (hf : s.block.fsm = .setfreq) :
    ∃ t, seqRun 5 s = .next t ∧
      t.block = { s.block with
        maxd := s.drawMaxd, outEn := true, deadline := s.env.now + s.block.curDur.toNat, fsm := .wait } ∧
      t.out.tone = s.out.tone ++
        [⟨s.env.now, recordWord .setFreq s.block.curFreq⟩,
          ⟨s.env.now, recordWord .getMaxDuty (s.drawMaxd.setWidth 32)⟩,
          ⟨s.env.now, recordWord .setDuty (BitVec.ofNat 32 (s.drawMaxd.toNat / 2))⟩,
          ⟨s.env.now, recordWord .enable 0#32⟩, ⟨s.env.now, recordWord .sleep (s.block.curDur.setWidth 32)⟩] := by
  rw [seqRun_succ hf rfl (exec_setfreq hf), seqRun_succ rfl rfl (exec_getmax rfl),
    seqRun_succ rfl rfl (exec_setduty rfl), seqRun_succ rfl rfl (exec_enable rfl),
    seqRun_succ rfl rfl (exec_sleep rfl)]
  exact ⟨_, rfl, rfl, by simp [State.drawMaxd, setWidth_halfDuty]⟩

/-- The end of a tone, from WAIT at or after its deadline to NEXT (R190, R191). -/
theorem seqRun_tone_end (hf : s.block.fsm = .wait) (hd : s.block.deadline ≤ s.env.now)
    (hq : s.block.curFreq ≠ 0#32) :
    ∃ t, seqRun 2 s = .next t ∧ t.block = { s.block with outEn := false, fsm := .next } ∧
      t.out.tone = s.out.tone ++ [⟨s.env.now, recordWord .wake 0#32⟩, ⟨s.env.now, recordWord .disable 0#32⟩] := by
  have hx := exec_wait_wakes hf hd
  rw [if_pos hq] at hx
  rw [seqRun_succ hf rfl hx, seqRun_succ rfl rfl (exec_disable rfl)]
  exact ⟨_, rfl, rfl, by simp⟩

/-- The start of a rest, its SLEEP alone (R189). -/
theorem seqRun_rest_start (hf : s.block.fsm = .sleep) :
    ∃ t, seqRun 1 s = .next t ∧
      t.block = { s.block with deadline := s.env.now + s.block.curDur.toNat, fsm := .wait } ∧
      t.out.tone = s.out.tone ++ [⟨s.env.now, recordWord .sleep (s.block.curDur.setWidth 32)⟩] := by
  rw [seqRun_succ hf rfl (exec_sleep hf)]
  exact ⟨_, rfl, rfl, rfl⟩

/-- The end of a rest, from WAIT at or after its deadline to NEXT (R190). -/
theorem seqRun_rest_end (hf : s.block.fsm = .wait) (hd : s.block.deadline ≤ s.env.now)
    (hq : s.block.curFreq = 0#32) :
    ∃ t, seqRun 1 s = .next t ∧ t.block = { s.block with fsm := .next } ∧
      t.out.tone = s.out.tone ++ [⟨s.env.now, recordWord .wake 0#32⟩] := by
  have hx := exec_wait_wakes hf hd
  rw [if_neg (not_not_intro hq)] at hx
  rw [seqRun_succ hf rfl hx]
  exact ⟨_, rfl, rfl, rfl⟩

/-- The entry that FETCH loads decides between the tone path and the rest path (R184). -/
theorem State.loadEntry_fsm_tone {e : NoteEntry} (hq : e.freq ≠ 0#32) : (s.loadEntry e).block.fsm = .setfreq :=
  if_pos hq

theorem State.loadEntry_fsm_rest {e : NoteEntry} (hq : e.freq = 0#32) : (s.loadEntry e).block.fsm = .sleep :=
  if_neg (not_not_intro hq)

/-! How long a segment is -/

/-- SEQ reaches WAIT or IDLE within 1 to `k` micro-steps (R193). -/
def State.StopsWithin (s : State) (k : Nat) : Prop :=
  ∃ (n : Nat) (t : State), 1 ≤ n ∧ n ≤ k ∧ seqRun n s = .next t ∧ (t.block.fsm = .wait ∨ t.block.fsm = .idle)

theorem State.StopsWithin.mono {k' : Nat} (h : s.StopsWithin k) (hk : k ≤ k') : s.StopsWithin k' := by
  obtain ⟨n, t, h1, hn, hr, ht⟩ := h
  exact ⟨n, t, h1, hn.trans hk, hr, ht⟩

/-- One micro-step into WAIT or IDLE. -/
theorem State.StopsWithin.last (hf : s.block.fsm = f) (hd : decodeUstep f.code = .ok i) (hx : exec i s = .next t)
    (ht : t.block.fsm = .wait ∨ t.block.fsm = .idle) : s.StopsWithin 1 :=
  ⟨1, t, Nat.le_refl 1, Nat.le_refl 1, seqRun_succ hf hd hx, ht⟩

/-- One micro-step before the others. -/
theorem State.StopsWithin.step (hf : s.block.fsm = f) (hd : decodeUstep f.code = .ok i) (hx : exec i s = .next t)
    (ht : t.StopsWithin k) : s.StopsWithin (k + 1) := by
  obtain ⟨n, u, _, hn, hr, hu⟩ := ht
  exact ⟨n + 1, u, Nat.le_add_left 1 n, Nat.succ_le_succ hn, (seqRun_succ hf hd hx).trans hr, hu⟩

theorem stopsWithin_sleep (hf : s.block.fsm = .sleep) : s.StopsWithin 1 := .last hf rfl (exec_sleep hf) (.inl rfl)

/-- The four micro-steps that start a tone, and SLEEP (R185 to R189). -/
theorem stopsWithin_setfreq (hf : s.block.fsm = .setfreq) : s.StopsWithin 5 :=
  .step hf rfl (exec_setfreq hf) <| .step rfl rfl (exec_getmax rfl) <| .step rfl rfl (exec_setduty rfl) <|
    .step rfl rfl (exec_enable rfl) <| stopsWithin_sleep rfl

/-- FETCH at an entry, then the longer of its two paths, the tone's (R184). -/
theorem stopsWithin_fetch_entry (hf : s.block.fsm = .fetch) (hi : s.block.idx.toNat < s.block.melLen.toNat)
    (hl : s.block.melLen.toNat ≤ 256) : s.StopsWithin 6 := by
  refine .step hf rfl (exec_fetch_entry hf hi hl) ?_
  by_cases hq : (MelStore.read s.block.mel s.block.idx.toNat).freq = 0#32
  · exact (stopsWithin_sleep (State.loadEntry_fsm_rest hq)).mono (by decide)
  · exact stopsWithin_setfreq (State.loadEntry_fsm_tone hq)

/-- FETCH at the end of a pass stops, or goes round to entry 0, which a looping melody has (R182, R184). -/
theorem stopsWithin_fetch_passEnd (hinv : s.block.Inv) (hf : s.block.fsm = .fetch)
    (hi : s.block.idx = s.block.melLen) : s.StopsWithin 7 := by
  have hx := exec_fetch_passEnd hf hi
  cases hl : s.block.loop with
  | false =>
    rw [State.passEnd_once hl] at hx
    exact (State.StopsWithin.last hf rfl hx (.inr rfl)).mono (by decide)
  | true =>
    rw [State.passEnd_loop hl] at hx
    have hlen : 0 < s.block.melLen.toNat := Nat.pos_of_ne_zero fun h0 => hinv.loop_len hl (BitVec.eq_of_toNat_eq h0)
    exact .step hf rfl hx (stopsWithin_fetch_entry hf hlen hinv.melLen_le)

theorem stopsWithin_fetch (hinv : s.block.Inv) (hf : s.block.fsm = .fetch) : s.StopsWithin 7 := by
  by_cases hi : s.block.idx = s.block.melLen
  · exact stopsWithin_fetch_passEnd hinv hf hi
  · have hlt := Nat.lt_of_le_of_ne hinv.idx_le fun h => hi (BitVec.eq_of_toNat_eq h)
    exact (stopsWithin_fetch_entry hf hlt hinv.melLen_le).mono (by decide)

/-- NEXT stops, or goes on to the FETCH of the next entry (R192). -/
theorem stopsWithin_next (hinv : s.block.Inv) (hf : s.block.fsm = .next) : s.StopsWithin 8 := by
  cases hs : s.block.stopReq with
  | true => exact (State.StopsWithin.last hf rfl (exec_next_honours hf hs) (.inr rfl)).mono (by decide)
  | false =>
    have hinv' : s.advance.block.Inv := (BlockMove.advance (now := 0) _ hf hs).inv hinv
    exact .step hf rfl (exec_next_advances hf hs) (stopsWithin_fetch hinv' rfl)

theorem stopsWithin_disable (hinv : s.block.Inv) (hf : s.block.fsm = .disable) : s.StopsWithin 9 := by
  have hinv' := (BlockMove.disable (now := 0) _ hf).inv hinv
  exact .step hf rfl (exec_disable hf) (stopsWithin_next hinv' rfl)

/-- A WAIT that is due wakes into DISABLE or NEXT (R190). -/
theorem stopsWithin_wait (hinv : s.block.Inv) (hf : s.block.fsm = .wait) (hd : s.block.deadline ≤ s.env.now) :
    s.StopsWithin 10 := by
  have hinv' := (BlockMove.wake _ hf hd).inv hinv
  refine .step hf rfl (exec_wait_wakes hf hd) ?_
  by_cases hq : s.block.curFreq = 0#32
  · exact (stopsWithin_next hinv' (if_neg (not_not_intro hq))).mono (by decide)
  · exact stopsWithin_disable hinv' (if_pos hq)

end Sys2Proof.Machine

namespace Sys2Proof

open Machine

/-- Settles O45: FETCH loads the entry, and then come the start and the end of a tone or of a rest. -/
theorem entryEmitsItsRecords : Obligations.EntryEmitsItsRecords := by
  intro s f d hf hi hl he
  have hx := exec_fetch_entry hf hi hl
  rw [he] at hx
  refine ⟨fun hq => ?_, fun hq => ?_⟩
  · obtain ⟨t, hrun, hblock, htone⟩ := seqRun_tone_start (State.loadEntry_fsm_tone (s := s) (e := ⟨f, d⟩) hq)
    refine ⟨t, (seqRun_succ hf rfl hx).trans hrun, by rw [hblock], by rw [hblock]; rfl, htone, fun now hd => ?_⟩
    obtain ⟨u, hrun', hblock', htone'⟩ :=
      seqRun_tone_end (s := { t with env := { t.env with now := now } }) (by rw [hblock]) hd (by rw [hblock]; exact hq)
    exact ⟨u, hrun', by rw [hblock'], by rw [hblock', hblock]; rfl, htone'⟩
  · obtain ⟨t, hrun, hblock, htone⟩ := seqRun_rest_start (State.loadEntry_fsm_rest (s := s) (e := ⟨f, d⟩) hq)
    refine ⟨t, (seqRun_succ hf rfl hx).trans hrun, by rw [hblock], by rw [hblock]; rfl, htone, fun now hd => ?_⟩
    obtain ⟨u, hrun', hblock', htone'⟩ :=
      seqRun_rest_end (s := { t with env := { t.env with now := now } }) (by rw [hblock]) hd (by rw [hblock]; exact hq)
    exact ⟨u, hrun', by rw [hblock'], by rw [hblock', hblock]; rfl, htone'⟩

/-- Settles O46: a segment begins in FETCH or in WAIT, and the longer of the two has 10 micro-steps. -/
theorem segmentBound : Obligations.SegmentBound := by
  rintro s hinv (hf | ⟨hf, hd⟩)
  · exact (stopsWithin_fetch hinv hf).mono (by decide)
  · exact stopsWithin_wait hinv hf hd

end Sys2Proof

end

/-! The thresholds of the encoder (spec/43_rgb_encoder.md R232, R233, R236). -/

section

namespace Sys2Proof.Machine

variable (m : Duty)

/-- M * 7 div 10 is at most M, and so fits the duty's 16 bits (R233). -/
theorem toNat_highDuty : (highDuty m).toNat = m.toNat * 7 / 10 := by
  have hlt : m.toNat * 7 / 10 < 2 ^ 16 := by omega
  exact (BitVec.toNat_ofNat _ _).trans (Nat.mod_eq_of_lt hlt)

theorem toNat_lowDuty : (lowDuty m).toNat = m.toNat * 3 / 10 := by
  have hlt : m.toNat * 3 / 10 < 2 ^ 16 := by omega
  exact (BitVec.toNat_ofNat _ _).trans (Nat.mod_eq_of_lt hlt)

theorem lowDuty_le_highDuty : lowDuty m ≤ highDuty m := by
  rw [BitVec.le_def, toNat_lowDuty, toNat_highDuty]
  omega

/-- From M = 3 on, M * 7 and M * 3 are more than 10 apart, so that their quotients differ; the three M below are read
off (R236). -/
theorem lowDuty_lt_highDuty_iff : lowDuty m < highDuty m ↔ 2 ≤ m.toNat := by
  rw [BitVec.lt_def, toNat_lowDuty, toNat_highDuty]
  by_cases hsmall : m.toNat < 3
  · interval_cases m.toNat <;> decide
  · omega

end Sys2Proof.Machine

namespace Sys2Proof

open Machine

/-- Settles O32: both quotients are exact for every M, and the bounds and the order follow from that. -/
theorem thresholds : Obligations.Thresholds := by
  refine ⟨fun m => ?_, by decide⟩
  have hhigh := toNat_highDuty m
  have hlow := toNat_lowDuty m
  exact ⟨hhigh, hlow, by omega, by omega, lowDuty_le_highDuty m, lowDuty_lt_highDuty_iff m⟩

end Sys2Proof

end

/-! The duty buffer value by value (spec/43_rgb_encoder.md R234, R235, R238): a buffer is 24 values for each pixel, and
a pixel 8 for each lane, so that the index of a value says its pixel, its lane and its bit. -/

section

namespace Sys2Proof

/-- The lanes of a pixel in the order of the buffer: G, R, B (R231). -/
def PixelWord.lane (p : PixelWord) (l : Nat) : BitVec 8 := if l = 0 then p.g else if l = 1 then p.r else p.b

/-- The pixel with red and blue exchanged (R238). -/
def PixelWord.swapRedBlue (p : PixelWord) : PixelWord := ⟨p.rsv, p.b, p.g, p.r⟩

namespace Machine

/-- Where every element gives `n` values, value `k` is value `k mod n` of element `k div n`. -/
theorem getElem?_flatMap_of_length {α β : Type} {f : α → List β} {n : Nat} (hn : 0 < n) (hf : ∀ a, (f a).length = n)
    (xs : List α) (k : Nat) : (xs.flatMap f)[k]? = xs[k / n]?.bind fun a => (f a)[k % n]? := by
  induction xs generalizing k with
  | nil => rfl
  | cons x xs ih =>
    rw [List.flatMap_cons]
    by_cases hk : k < n
    · rw [List.getElem?_append_left (by rwa [hf]), Nat.div_eq_of_lt hk, Nat.mod_eq_of_lt hk]
      rfl
    · have hle : n ≤ k := Nat.le_of_not_lt hk
      rw [List.getElem?_append_right (by rwa [hf]), hf, ih, Nat.div_eq_sub_div hn hle, Nat.mod_eq_sub_mod hle]
      rfl

variable (m : Duty)

/-- The duty of bit `j` of a lane (R231, R232). -/
def bitDuty (lane : BitVec 8) (j : Nat) : Duty := if lane.getLsbD j then highDuty m else lowDuty m

theorem bitDuty_low_or_high (lane : BitVec 8) (j : Nat) :
    bitDuty m lane j = lowDuty m ∨ bitDuty m lane j = highDuty m := by
  unfold bitDuty
  split
  · exact .inr rfl
  · exact .inl rfl

/-- A lane's bits go from 7 down to 0 (R231). -/
theorem getElem?_laneDuties (lane : BitVec 8) {j : Nat} (hj : j < 8) :
    (laneDuties m lane)[j]? = some (bitDuty m lane (7 - j)) := by
  interval_cases j <;> rfl

theorem pixelDuties_eq (p : PixelWord) : pixelDuties m p = [0, 1, 2].flatMap fun l => laneDuties m (p.lane l) := rfl

theorem dutyBuffer_eq (ps : List PixelWord) : dutyBuffer m ps = ps.flatMap (pixelDuties m) := rfl

/-- Value `j` of a pixel is of bit `7 - j mod 8` of its lane `j div 8`. -/
theorem getElem?_pixelDuties (p : PixelWord) {j : Nat} (hj : j < 24) :
    (pixelDuties m p)[j]? = some (bitDuty m (p.lane (j / 8)) (7 - j % 8)) := by
  have hl : [0, 1, 2][j / 8]? = some (j / 8) := by
    have : j / 8 < 3 := by omega
    interval_cases j / 8 <;> rfl
  rw [pixelDuties_eq, getElem?_flatMap_of_length (n := 8) (by decide) (fun _ => rfl), hl, Option.bind_some,
    getElem?_laneDuties m _ (Nat.mod_lt _ (by decide))]

/-- The closed form of the buffer (R234), for a batch of any length. -/
theorem getElem?_dutyBuffer (ps : List PixelWord) (k : Nat) :
    (dutyBuffer m ps)[k]? = ps[k / 24]?.map fun p => bitDuty m (p.lane (k % 24 / 8)) (7 - k % 8) := by
  have hmod : k % 24 % 8 = k % 8 := by omega
  rw [dutyBuffer_eq, getElem?_flatMap_of_length (n := 24) (by decide) (fun _ => rfl), Option.map_eq_bind]
  congr 1
  funext p
  rw [getElem?_pixelDuties m p (Nat.mod_lt _ (by decide)), hmod]
  rfl

theorem length_dutyBuffer (ps : List PixelWord) : (dutyBuffer m ps).length = 24 * ps.length := by
  have h24 : (fun p => (pixelDuties m p).length) = fun _ => 24 := rfl
  rw [dutyBuffer_eq, List.length_flatMap, h24, List.map_const', List.sum_replicate, smul_eq_mul, Nat.mul_comm]

theorem mem_dutyBuffer {ps : List PixelWord} {d : Duty} (hd : d ∈ dutyBuffer m ps) :
    d = lowDuty m ∨ d = highDuty m := by
  obtain ⟨k, hk⟩ := List.mem_iff_getElem?.mp hd
  rw [getElem?_dutyBuffer, Option.map_eq_some_iff] at hk
  obtain ⟨p, _, rfl⟩ := hk
  exact bitDuty_low_or_high m _ _

/-- The values of pixel `i`, wherever their index stands. -/
theorem getElem?_dutyBuffer_of_pixel {ps : List PixelWord} {i k l j : Nat} {p : PixelWord} (hp : ps[i]? = some p)
    (hi : k / 24 = i) (hl : k % 24 / 8 = l) (hj : k % 8 = j) :
    (dutyBuffer m ps)[k]? = some (bitDuty m (p.lane l) (7 - j)) := by
  subst hi hl hj
  rw [getElem?_dutyBuffer, hp, Option.map_some]

/-- A pixel that is replaced leaves every other pixel's values. -/
theorem getElem?_dutyBuffer_set_ne (ps : List PixelWord) (q : PixelWord) {i k : Nat} (hk : k / 24 ≠ i) :
    (dutyBuffer m (ps.set i q))[k]? = (dutyBuffer m ps)[k]? := by
  rw [getElem?_dutyBuffer, getElem?_dutyBuffer, List.getElem?_set_ne hk.symm]

end Machine

open Machine

/-- Settles O33: the closed form that holds for a batch of any length, at an index inside this one. -/
theorem bufferClosedForm : Obligations.BufferClosedForm := by
  intro m ps hl k hk
  have hp : k / 24 < ps.length := by omega
  refine ⟨ps[k / 24], List.getElem?_eq_getElem hp, ?_⟩
  rw [getElem?_dutyBuffer, List.getElem?_eq_getElem hp]
  rfl

/-- Settles O34: eight pixels of 24 values, each the duty of one bit. -/
theorem bufferShape : Obligations.BufferShape := by
  refine fun m ps hl => ⟨?_, fun d hd => mem_dutyBuffer m hd⟩
  rw [length_dutyBuffer, hl]

/-- Settles O35: inside the pixel the swap leaves lane 0 (G) and exchanges lanes 1 and 2; outside, nothing changes. -/
theorem swappingRedAndBlue : Obligations.SwappingRedAndBlue := by
  intro m ps i p _ hp k _
  obtain ⟨hi, -⟩ := List.getElem?_eq_some_iff.mp hp
  by_cases hk : k / 24 = i
  · have hset : (ps.set i p.swapRedBlue)[i]? = some p.swapRedBlue := List.getElem?_set_self hi
    refine (getElem?_dutyBuffer_of_pixel m hset hk rfl rfl).trans (Eq.symm ?_)
    split_ifs with hmid hlast
    · have hlane : k % 24 / 8 = 1 := by omega
      rw [hlane, getElem?_dutyBuffer_of_pixel m hp (l := 2) (j := k % 8) (by omega) (by omega) (by omega)]
      rfl
    · have hlane : k % 24 / 8 = 2 := by omega
      rw [hlane, getElem?_dutyBuffer_of_pixel m hp (l := 1) (j := k % 8) (by omega) (by omega) (by omega)]
      rfl
    · have hlane : k % 24 / 8 = 0 := by omega
      rw [hlane, getElem?_dutyBuffer_of_pixel m hp hk hlane rfl]
      rfl
  · rw [if_neg (by omega), if_neg (by omega)]
    exact getElem?_dutyBuffer_set_ne m ps _ hk

end Sys2Proof

end

/-! ENCODE (spec/43_rgb_encoder.md R230, R231, R237): what an accepted one does, and that what any one emits is fixed by
its words. -/

section

namespace Sys2Proof.Machine

/-- An accepted ENCODE emits the batch's buffer and answers OK (R231). -/
theorem exec_encode_accepted {s : State} (hf : s.block.fsm.hostEnabled = true) (m : Duty) {ps : List PixelWord}
    (hl : ps.length = Config.pixels) (hr : ∀ p ∈ ps, p.rsv = 0#8) :
    exec (.encode 0#12 m ps) s = .next ((s.emitLed (dutyBuffer m ps)).answer 0x5#4 .ok) := by
  refine (hostStep_enabled hf).trans (congrArg _ ?_)
  rw [encodeBody, if_neg hl.not_lt, ← hl, List.take_length, if_neg]
  simpa using hr

/-- The payloads an ENCODE emits: its buffer where it is accepted, and none where it is malformed or has a reserved bit
set. -/
theorem encodeBody_emits (rsv : BitVec 12) (m : Duty) (ps : List PixelWord) :
    ∃ emitted : List (List Duty), ∀ s : State,
      (encodeBody rsv m ps s).out.led.map (·.payload) = s.out.led.map (·.payload) ++ emitted := by
  unfold encodeBody
  split_ifs
  · exact ⟨[], fun _ => (List.append_nil _).symm⟩
  · exact ⟨[], fun _ => (List.append_nil _).symm⟩
  · exact ⟨[dutyBuffer m (ps.take Config.pixels)], fun _ => List.map_append⟩

/-- Where HOST steps, the next state of an ENCODE is that of its effect. -/
theorem exec_encode_next {s t : State} {rsv : BitVec 12} {m : Duty} {ps : List PixelWord}
    (hf : s.block.fsm.hostEnabled = true) (h : exec (.encode rsv m ps) s = .next t) : t = encodeBody rsv m ps s := by
  cases (hostStep_enabled hf).symm.trans h
  rfl

end Sys2Proof.Machine

namespace Sys2Proof

open Machine

/-- Settles O31: an accepted ENCODE, with its record and its response written out. -/
theorem encodeEmitsOneBuffer : Obligations.EncodeEmitsOneBuffer := fun _ m _ hf hl hr =>
  exec_encode_accepted hf m hl hr

/-- Settles O36: what an ENCODE emits does not depend on the state it runs in. -/
theorem encodeDependsOnItsWordsAlone : Obligations.EncodeDependsOnItsWordsAlone := by
  intro s s' t t' rsv m ps hf hf' h h'
  obtain ⟨emitted, hemitted⟩ := encodeBody_emits rsv m ps
  rw [exec_encode_next hf h, exec_encode_next hf' h']
  exact ⟨emitted, hemitted s, hemitted s'⟩

end Sys2Proof

end

/-! The records as ENV takes them (spec/44_pwm_interface.md R251 to R256, R258). -/

section

namespace Sys2Proof

/-- Settles O48: no record's meaning depends on a condition on the state, and each is written as its update of ENV's part
(GET_MAX_DUTY as none), so every clause, the frame included, is one arm of `exec` unfolded. -/
theorem envAppliesEachRecord : Obligations.EnvAppliesEachRecord :=
  fun _ _ => ⟨rfl, rfl, rfl, rfl, rfl, rfl, rfl, fun _ => rfl⟩

end Sys2Proof

end

/-! RDREG and RDMEL (spec/45_readback.md R270 to R272): what each answers where its number is in range and where it is
not. -/

section

namespace Sys2Proof.Machine

variable {s : State} {reg : BitVec 4} {index : BitVec 8}

/-- The register numbers past DEADLINE_HI are reserved (R270). -/
theorem Block.regValue_reserved (b : Block) (h : 10 ≤ reg.toNat) : b.regValue reg = none := by
  unfold Block.regValue
  split
  iterate 10 next heq => omega
  rfl

/-- The low and the high word of a number mod 2^64, put together, are its 64-bit word. -/
theorem high_append_low_word (n : Nat) :
    BitVec.ofNat 32 (n % 2 ^ 64 / 2 ^ 32) ++ BitVec.ofNat 32 (n % 2 ^ 64 % 2 ^ 32) = BitVec.ofNat 64 n := by
  apply BitVec.eq_of_toNat_eq
  rw [BitVec.toNat_append, ← Nat.shiftLeft_add_eq_or_of_lt (BitVec.isLt _), Nat.shiftLeft_eq]
  simp only [BitVec.toNat_ofNat]
  omega

section enabled
variable (hf : s.block.fsm.hostEnabled = true)
include hf

/-- RDREG of a register answers its value (R271). -/
theorem exec_rdreg_value {v : Word} (hv : s.block.regValue reg = some v) :
    exec (.rdreg 0#24 reg) s = .next (s.respond 0x7#4 false .ok [v]) := by
  have hb : rdregBody 0#24 reg s = s.respond 0x7#4 false .ok [v] := by rw [rdregBody, hv]; rfl
  exact (hostStep_enabled hf).trans (congrArg _ hb)

/-- RDREG of a number that no register has answers ERR_RANGE (R271). -/
theorem exec_rdreg_range (hv : s.block.regValue reg = none) :
    exec (.rdreg 0#24 reg) s = .next (s.answer 0x7#4 .errRange) := by
  have hb : rdregBody 0#24 reg s = s.answer 0x7#4 .errRange := by rw [rdregBody, hv]; rfl
  exact (hostStep_enabled hf).trans (congrArg _ hb)

/-- RDREG with non-zero reserved bits answers ERR_RESERVED, whatever its register (R111). -/
theorem exec_rdreg_reserved {rsv : BitVec 24} (hr : rsv ≠ 0#24) :
    exec (.rdreg rsv reg) s = .next (s.answer 0x7#4 .errReserved) :=
  (hostStep_enabled hf).trans (congrArg _ (if_pos hr))

/-- RDMEL below MEL_LEN answers the entry (R272). -/
theorem exec_rdmel_entry (hk : index.toNat < s.block.melLen.toNat) :
    exec (.rdmel 0#20 index) s = .next (s.respond 0x8#4 false .ok
      [(MelStore.read s.block.mel index.toNat).freq, (MelStore.read s.block.mel index.toNat).dur.setWidth 32]) :=
  (hostStep_enabled hf).trans (congrArg _ (if_neg hk.not_ge))

/-- RDMEL at or above MEL_LEN answers ERR_RANGE, whatever the store holds there (R272). -/
theorem exec_rdmel_range (hk : s.block.melLen.toNat ≤ index.toNat) :
    exec (.rdmel 0#20 index) s = .next (s.answer 0x8#4 .errRange) :=
  (hostStep_enabled hf).trans (congrArg _ (if_pos hk))

/-- RDMEL with non-zero reserved bits answers ERR_RESERVED, whatever its index (R111). -/
theorem exec_rdmel_reserved {rsv : BitVec 20} (hr : rsv ≠ 0#20) :
    exec (.rdmel rsv index) s = .next (s.answer 0x8#4 .errReserved) :=
  (hostStep_enabled hf).trans (congrArg _ (if_pos hr))

end enabled

end Sys2Proof.Machine

namespace Sys2Proof

open Machine

/-- Settles O27: registers 0 to 7 by their rows of R270, 8 and 9 as the two words of DEADLINE, the rest as reserved. -/
theorem rdregAnswers : Obligations.RdregAnswers := by
  intro s hf
  refine ⟨exec_rdreg_status hf, exec_rdreg_value hf rfl, exec_rdreg_value hf rfl, exec_rdreg_value hf rfl,
    exec_rdreg_value hf rfl, exec_rdreg_value hf rfl, exec_rdreg_value hf rfl, exec_rdreg_value hf rfl, ?_, ?_, ?_⟩
  · exact ⟨_, _, exec_rdreg_value hf rfl, exec_rdreg_value hf rfl, high_append_low_word s.block.deadline⟩
  · exact fun reg hreg => exec_rdreg_range hf (s.block.regValue_reserved hreg)
  · exact fun rsv reg hr => exec_rdreg_reserved hf hr

/-- Settles O29: INDEX is below MEL_LEN or not; with reserved bits the store is not read. The responses are the words of
R118. -/
theorem rdmelAnswers : Obligations.RdmelAnswers := by
  refine fun s k hf => ⟨?_, fun rsv hr => exec_rdmel_reserved hf hr⟩
  split_ifs with hk
  · exact exec_rdmel_entry hf hk
  · exact exec_rdmel_range hf (Nat.le_of_not_lt hk)

end Sys2Proof

end

/-! The sticky fault (spec/60_exceptions.md R303 to R305): how PLAY and RUN raise it, and that in FAULT nothing but a
reset changes the block. -/

section

namespace Sys2Proof.Machine

variable {s t : State} {b c : Block} {now : Nat} {rs : List ToneRecord}

/-! How it is raised -/

/-- In UNSET there is no melody, and PLAY faults (R181). -/
theorem exec_play_unset (hf : s.block.fsm = .unset) :
    exec (.play 0#28) s = .next ((s.raiseFault .emptyMelodyPlayback).answer 0x2#4 .errNoMelody) := by
  refine (hostStep_enabled (by rw [hf]; rfl)).trans (congrArg _ ?_)
  simp [playBody, hf]

/-- In UNSET there is no melody, and RUN faults (R182). -/
theorem exec_run_unset (hf : s.block.fsm = .unset) :
    exec (.run 0#28) s = .next ((s.raiseFault .emptyMelodyPlayback).answer 0x3#4 .errNoMelody) := by
  refine (hostStep_enabled (by rw [hf]; rfl)).trans (congrArg _ ?_)
  simp [runBody, hf]

/-- In IDLE, RUN of a melody without entries faults (R182). -/
theorem exec_run_emptyLoop (hf : s.block.fsm = .idle) (hl : s.block.melLen = 0#9) :
    exec (.run 0#28) s = .next ((s.raiseFault .emptyLoop).answer 0x3#4 .errEmptyLoop) := by
  refine (hostStep_enabled (by rw [hf]; rfl)).trans (congrArg _ ?_)
  simp [runBody, hf, hl]

/-- An instruction keeps the block's invariant: what it does to the block is a move. -/
theorem exec_inv {i : Instr} (hinv : s.block.Inv) (h : exec i s = .next t) : t.block.Inv := by
  obtain ⟨_, hm, _⟩ := exec_move i h
  exact hm.inv hinv

/-! How it stays -/

/-- In FAULT the block has no move but to stay: each other one starts in a state of its own (R304, R305). -/
theorem BlockMove.from_fault (m : BlockMove now b c rs) (hb : b.fsm = .fault) : c = b := by
  cases m with
  | stay => rfl
  | install _ hf _ => rcases hf with hf | hf <;> cases hb.symm.trans hf
  | start _ hf _ | faultUnset hf | faultLoop hf _ | stop hf | load hf _ _ | wrap hf _ _ | done hf _ _ | setfreq hf
  | getmax _ hf | setduty hf | enable hf | sleep hf | wake hf _ | disable hf | honour hf _ | advance hf _ =>
    cases hb.symm.trans hf

/-- SEQ has no micro-step in FAULT (R180, R304). -/
theorem seqOnce_fault (hf : s.block.fsm = .fault) : seqOnce s = .next s := by
  rw [seqOnce, hf, decodeUstep_code]

/-- In FAULT no instruction stops, whatever MEL_LEN is: no micro-step is enabled, FETCH included. -/
theorem exec_fault_has_next (hf : s.block.fsm = .fault) (i : Instr) : ∃ t, exec i s = .next t := by
  cases i with
  | ustepFetch | ustepSetfreq | ustepGetmax | ustepSetduty | ustepEnable | ustepSleep | ustepWait | ustepDisable
  | ustepNext => exact ⟨s, seqStep_held (by rw [hf]; decide)⟩
  | setmel _ _ _ | play _ | run _ | stop _ | encode _ _ _ | resolve _ _ | rdreg _ _ | rdmel _ _
  | illegalOp0 _ | illegalOp9 _ | illegalOpA _ | illegalOpB _ | illegalOpC _ | illegalOpD _ | illegalOpE _
  | illegalOpF _ => exact hostStep_has_next s _
  | entry _ _ | pixel _ _ _ _ | actSetFreq _ | actGetMaxDuty _ | actSetDuty _ | actEnable _ | actDisable _
  | actSleep _ | actWake _ | actDutyOut _ _ => exact ⟨_, rfl⟩

/-- In FAULT every instruction has a next state with the same block (R305). -/
theorem exec_fault_block (hf : s.block.fsm = .fault) (i : Instr) : ∃ t, exec i s = .next t ∧ t.block = s.block := by
  obtain ⟨t, h⟩ := exec_fault_has_next hf i
  obtain ⟨_, hm, _⟩ := exec_move i h
  exact ⟨t, h, hm.from_fault hf⟩

end Sys2Proof.Machine

namespace Sys2Proof

open Machine

/-- Settles O21: the three ways into FAULT, and after each the invariant gives the fields at rest. -/
theorem raisingAFaultIsPrecise : Obligations.RaisingAFaultIsPrecise := by
  refine ⟨fun s hf => ⟨exec_play_unset hf, exec_run_unset hf⟩, fun s hf hl => exec_run_emptyLoop hf hl,
    fun s t i hinv h ht => ?_⟩
  exact (exec_inv hinv h).at_rest (.inr (.inr ht))

/-- Settles O22: the checks of SETMEL, PLAY, RUN and STOP, the block's one move, and the field of STATUS. -/
theorem faultStateRejectsAndShowsItsCode : Obligations.FaultStateRejectsAndShowsItsCode := by
  intro s hf
  obtain ⟨hplay, hrun, hstop⟩ := exec_playback_faulted hf
  have hhost : s.block.fsm.hostEnabled = true := by rw [hf]; rfl
  exact ⟨seqOnce_fault hf, fun _ _ hl => exec_setmel_faulted hl.ge hf, hplay, hrun, hstop, exec_fault_block hf,
    s.block.statusWord, exec_rdreg_status hhost, s.block.statusWord_fault⟩

/-- Settles O23: a step is a reset or a move of the block, and in FAULT the move is to stay. -/
theorem onlyResetLeavesFault : Obligations.OnlyResetLeavesFault := by
  intro s t hf h
  obtain ⟨⟨he, _⟩ | ⟨rs, hm, _⟩, _⟩ := step_move h
  · exact .inr he
  · have hb := hm.from_fault hf
    exact .inl ⟨hb ▸ hf, by rw [hb]⟩

end Sys2Proof

end

/-! Fair executions (spec/60_exceptions.md R310): a WAIT that were never left would become due, since NOW grows without
bound, and SEQ, enabled from then on, would take its wake-up. -/

section

namespace Sys2Proof.Machine

variable {σ : Nat → Event} {s t : State} {n : Nat}

/-- The next state of an execution is that of its step. -/
theorem trajectory_succ_of_next (h : step ((trajectory σ s n).withEvent (σ n)) = .next t) :
    trajectory σ s (n + 1) = t := by
  rw [trajectory, h]

/-- NOW never decreases along an execution (R50). -/
theorem trajectory_now_monotone (σ : Nat → Event) (s : State) : Monotone fun n => (trajectory σ s n).env.now := by
  refine monotone_nat_of_le_succ fun n => ?_
  rcases trajectory_succ σ s n with h | h
  · exact (step_move h).2
  · rw [h]

/-- A step from WAIT to WAIT keeps DEADLINE: a reset leaves WAIT, and only SLEEP writes DEADLINE (R189). -/
theorem step_wait_deadline (hs : s.block.fsm = .wait) (ht : t.block.fsm = .wait) (h : step s = .next t) :
    t.block.deadline = s.block.deadline := by
  obtain ⟨⟨_, hb, _⟩ | ⟨rs, hm, _⟩, _⟩ := step_move h
  · rw [hb] at ht
    cases ht
  · rcases hm.from_wait hs with ⟨_, _, hdead, _⟩ | ⟨_, _, hfsm⟩
    · exact hdead
    · rw [ht] at hfsm
      split at hfsm <;> cases hfsm

/-- As long as a WAIT lasts its DEADLINE is the same. -/
theorem trajectory_wait_deadline (hw : ∀ n, (trajectory σ s n).block.fsm = .wait) (n : Nat) :
    (trajectory σ s n).block.deadline = s.block.deadline := by
  induction n with
  | zero => rfl
  | succ n ih =>
    rcases trajectory_succ σ s n with h | h
    · exact (step_wait_deadline (s := (trajectory σ s n).withEvent (σ n)) (hw n) (hw (n + 1)) h).trans ih
    · rw [h, ih]

/-- SEQ's choice leaves a WAIT that is due (R190). -/
theorem trajectory_wakes (he : σ n = .seq) (hf : (trajectory σ s n).block.fsm = .wait)
    (hd : (trajectory σ s n).block.deadline ≤ (trajectory σ s n).env.now) :
    (trajectory σ s (n + 1)).block.fsm ≠ .wait := by
  have hstep : step ((trajectory σ s n).withEvent .seq) = exec .ustepWait (trajectory σ s n) :=
    step_seq_microStep rfl (by rw [State.withEvent_block, hf]; rfl)
  rw [exec_wait_wakes hf hd, ← he] at hstep
  rw [trajectory_succ_of_next hstep, State.goto_block]
  split <;> nofun

end Sys2Proof.Machine

namespace Sys2Proof

open Machine

/-- Settles O59: were every state in WAIT, SEQ would stay enabled once NOW reaches the deadline, and then be taken. -/
theorem fairExecutionLeavesWait : Obligations.FairExecutionLeavesWait := by
  intro σ s hfair _
  by_contra hstays
  have hw : ∀ n, (trajectory σ s n).block.fsm = .wait := by simpa using hstays
  obtain ⟨n, hn⟩ := hfair.time_grows s.block.deadline
  have hdue : ∀ m, n ≤ m → (trajectory σ s m).block.deadline ≤ (trajectory σ s m).env.now := fun m hm => by
    rw [trajectory_wait_deadline hw]
    exact hn.trans (trajectory_now_monotone σ s hm)
  have henabled : ∀ m, n ≤ m → (trajectory σ s m).SeqEnabled := fun m hm => by
    simpa [State.SeqEnabled, hw m] using hdue m hm
  obtain ⟨m, hm, hseq⟩ := hfair.seq_taken n henabled
  exact trajectory_wakes hseq (hw m) (hdue m hm) (hw (m + 1))

end Sys2Proof

end

/-! Reset (spec/70_reset_and_hazards.md R340, R342, R343): the registers at their reset values, and what the two agents
find to do right after a reset. -/

section

namespace Sys2Proof.Machine

variable {s : State}

/-! The block at its reset values -/

/-- STATUS reads 0 at reset (R340). -/
theorem Block.reset_statusWord : Block.reset.statusWord = 0#32 := by decide

/-- At reset every register but CHAN reads 0 (R343). -/
theorem Block.regValue_reset {reg : BitVec 4} (h : reg.toNat < 10) :
    Block.reset.regValue reg = some (if reg = 4#4 then Config.channel.setWidth 32 else 0#32) := by
  by_cases hchan : reg = 4#4
  · subst hchan
    rfl
  · rw [if_neg hchan]
    unfold Block.regValue
    interval_cases hnum : reg.toNat
    · exact congrArg some Block.reset_statusWord
    iterate 3 · rfl
    · exact absurd (BitVec.eq_of_toNat_eq hnum) hchan
    iterate 5 · rfl

/-- RESOLVE answers what ROM holds, FOUND telling whether it holds anything (R142). -/
theorem exec_resolve_rom (hf : s.block.fsm.hostEnabled = true) (c : NoteCode) :
    exec (.resolve 0#20 c) s = .next (s.respond 0x6#4 (rom c).isSome .ok [(rom c).getD 0#32]) := by
  cases hr : rom c with
  | none => exact exec_resolve_unknown hf hr
  | some f => exact exec_resolve_found hf hr

/-! The agents after a reset -/

/-- SEQ has no micro-step in UNSET (R180). -/
theorem seqOnce_unset (hf : s.block.fsm = .unset) : seqOnce s = .next s := by
  rw [seqOnce, hf, decodeUstep_code]

/-- A word sent in header position joins the stream (R100, R101). -/
theorem step_withEvent_send_header (w : Word) (hend : s.port.ended = false)
    (hpos : nextPosition s.port.stream = .header) : step (s.withEvent (.send w)) = .next (s.sendWord w) := by
  rw [step_of_fetch (s.nextEvent_withEvent _), s.afterEvent_withEvent, fetchFor, fetchSend_header hend hpos, runFetched]

/-- On an empty stream HOST finds no command, and its step only uses up its choice (log 15). -/
theorem step_withEvent_host_empty (hs : s.port.stream = []) : step (s.withEvent .host) = .next s := by
  have hwait : decodeCommand s.port.ended s.port.stream = .error .noWord := by rw [hs, decodeCommand]
  rw [step_of_fetch (s.nextEvent_withEvent _), s.afterEvent_withEvent, fetchFor, fetchHost_waiting hwait, runFetched]

end Sys2Proof.Machine

namespace Sys2Proof

open Machine

/-- Settles O13: the reset leaves UNSET, where SEQ has no micro-step, and an empty stream that has not ended. -/
theorem resetActsOnTheBlockAlone : Obligations.ResetActsOnTheBlockAlone := fun s he =>
  ⟨s.afterEvent.applyReset, step_reset he, s.afterEvent_out, s.afterEvent_env,
    (congrArg Port.responses s.afterEvent_port :), seqOnce_unset rfl, fun _ _ _ _ => rfl, rfl,
    fun w => step_withEvent_send_header w rfl rfl, fun _ => step_withEvent_host_empty rfl⟩

/-- Settles O14: each command by its rule in UNSET, with MEL_LEN at 0 and the registers at their reset values. -/
theorem commandsRightAfterReset : Obligations.CommandsRightAfterReset := by
  intro s hb
  have hq : s.block.fsm = .unset := by rw [hb]; rfl
  have hf : s.block.fsm.hostEnabled = true := by rw [hq]; rfl
  have hlen : s.block.melLen.toNat = 0 := by rw [hb]; rfl
  refine ⟨fun n es hl hn => ⟨_, exec_setmel_accepted (.inl hq) hl hn, rfl⟩,
    ⟨_, exec_play_unset hq, rfl, rfl, rfl⟩, ⟨_, exec_run_unset hq, rfl, rfl, rfl⟩,
    exec_stop_nothing (.inl hq), fun m ps => exec_encode_accepted hf m, exec_resolve_rom hf,
    fun reg hreg => exec_rdreg_value hf ?_, fun k => exec_rdmel_range hf ?_⟩
  · rw [hb, Block.regValue_reset hreg]
  · rw [hlen]
    exact Nat.zero_le _

/-- Settles O12: at power-on and after every reset step alike the block is `Block.reset`, R31's reset column. -/
theorem resetPutsEveryFieldAtItsValue : Obligations.ResetPutsEveryFieldAtItsValue := by
  intro b hb
  have hreset : b = Block.reset := by
    rcases hb with rfl | ⟨s, t, he, ht, rfl⟩
    · rfl
    · cases (step_reset he).symm.trans ht
      rfl
  subst hreset
  exact ⟨rfl, rfl, rfl, rfl, rfl, rfl, rfl, rfl, rfl, rfl, rfl, rfl, rfl, rfl, rfl, Block.reset_statusWord⟩

end Sys2Proof

end
